-- ==== Sys2Proof/Word.lean ====
section
/-! DEFINITION. The word types of the UCT block: every value of the hardware is unsigned (R8). -/

namespace Sys2Proof

/-- A byte: every register and every memory cell (R43). -/
abbrev Byte := BitVec 8

/-- A data-memory address, `ADDR_W = 16` bits (R7, D3). -/
abbrev Addr := BitVec 16

/-- A DMA transfer length, `LEN_W = 13` bits (R7, D4). -/
abbrev Count := BitVec 13

/-- A command word `CW[31:0]` (R60). -/
abbrev CmdWord := BitVec 32

end Sys2Proof
end

