-- ==== Sys2Proof/Syntax.lean ====
section
/-! DEFINITION. The commands of the block, which stand where a processor has instructions: one constructor per row of
spec/opcode_table.json (R60). -/

namespace Sys2Proof

/-- A command with its operands as decoded (R61 to R65); the operand types are exactly the fields' widths. -/
inductive Instr where
  /-- INIT, doc00's `initialize()` (R100). -/
  | init
  /-- SET_MODE cfg, doc00's `set_mode(config)` (R115); `cfg` is a FrameCfg byte (R66). -/
  | setMode (cfg : Byte)
  /-- START_TX buf, len, doc00's `start_transmission(buffer, length)` (R130). -/
  | startTx (buf : Addr) (len : Count)
  /-- RD_REG reg, the register read-back (R180). -/
  | rdReg (reg : BitVec 4)
deriving DecidableEq, Repr

end Sys2Proof
end

