-- ==== Sys2Proof/WellFormed.lean ====
section
/-! DEFINITION. Which command terms carry no reserved operand value (R76): an ill-formed term still has an encoding and
decodes; what then happens is the machine's business (START_TX with `len = 0` is U2, a refused index is U19). -/

namespace Sys2Proof

/-- The read-back indices 0 to 11 but 4 are assigned to a readable register (R181, R182). -/
def readableIndex (reg : BitVec 4) : Bool :=
  decide (reg.toNat < 12) && decide (reg ≠ 4)

/-- No reserved operand value: `reg` in 12..15, `reg = 4`, `len = 0` are reserved (R76). -/
def Instr.wellFormed : Instr → Bool
  | .init => true
  | .setMode _ => true
  | .startTx _ len => decide (len ≠ 0)
  | .rdReg reg => readableIndex reg

end Sys2Proof
end

