-- ==== Sys2Proof/Decode.lean ====
section
/-! DEFINITION. The decoder of command words, total on every 32-bit word, and the encoder (R60 to R65, R76, R80). -/

namespace Sys2Proof

/-- Why a command word is reserved (R76, U14). -/
inductive Reserved where
  /-- `OP` is 000, 101, 110 or 111. -/
  | opcode
  /-- `OP = 001` with `CW[28:0] != 0`. -/
  | initNotZero
  /-- `OP = 010` with `CW[28:8] != 0`. -/
  | setModeNotZero
  /-- `OP = 100` with `CW[28:4] != 0`. -/
  | rdRegNotZero
deriving DecidableEq, Repr

/-- One row of the opcode table: a word matches when `CW & mask = match`. -/
structure OpRow where
  mnemonic : String
  pattern : CmdWord
  mask : CmdWord
deriving DecidableEq, Repr

/-- R61 -/
def rowInit : OpRow := ⟨"INIT", 0x20000000, 0xFFFFFFFF⟩
/-- R62 -/
def rowSetMode : OpRow := ⟨"SET_MODE", 0x40000000, 0xFFFFFF00⟩
/-- R63 -/
def rowStartTx : OpRow := ⟨"START_TX", 0x60000000, 0xE0000000⟩
/-- R64 -/
def rowRdReg : OpRow := ⟨"RD_REG", 0x80000000, 0xFFFFFFF0⟩

/-- The (match, mask) pairs of R61 to R64. -/
def opTable : List OpRow := [rowInit, rowSetMode, rowStartTx, rowRdReg]

/-- R65: compare the word against a (match, mask) pair. -/
def OpRow.matchesWord (r : OpRow) (w : CmdWord) : Bool := w &&& r.mask == r.pattern

/-- `CW[31:29]`, the field `OP` (R60). -/
def opField (w : CmdWord) : BitVec 3 := w.extractLsb' 29 3

/-- Why a word that matches no row is reserved (R76). -/
def reservedReason (w : CmdWord) : Reserved :=
  if opField w = 1 then .initNotZero
  else if opField w = 2 then .setModeNotZero
  else if opField w = 4 then .rdRegNotZero
  else .opcode

/-- R65: on a match the operands are the fields of the word, unsigned, neither extended nor scaled nor shifted. -/
def decode (w : CmdWord) : Except Reserved Instr :=
  if rowInit.matchesWord w then .ok .init
  else if rowSetMode.matchesWord w then .ok (.setMode (w.extractLsb' 0 8))
  else if rowStartTx.matchesWord w then .ok (.startTx (w.extractLsb' 0 16) (w.extractLsb' 16 13))
  else if rowRdReg.matchesWord w then .ok (.rdReg (w.extractLsb' 0 4))
  else .error (reservedReason w)

/-- The row of the opcode table a command belongs to. -/
def Instr.row : Instr → OpRow
  | .init => rowInit
  | .setMode _ => rowSetMode
  | .startTx _ _ => rowStartTx
  | .rdReg _ => rowRdReg

/-- The command word of a command, from the formats N, M, S, R of R61 to R64. -/
def encode : Instr → CmdWord
  | .init => (0b001#3 ++ 0#29 : BitVec 32)
  | .setMode cfg => (0b010#3 ++ 0#21 ++ cfg : BitVec 32)
  | .startTx buf len => (0b011#3 ++ len ++ buf : BitVec 32)
  | .rdReg reg => (0b100#3 ++ 0#25 ++ reg : BitVec 32)

/-- The word of the opcode table's numbering with the bits from `nbits` up zero. A command word is one 32-bit value on
the command port and has no byte order (R41), so the table's bit numbers are the word's own (log 28). -/
def tableWord (nbits w : Nat) : CmdWord := BitVec.ofNat 32 (w % 2 ^ nbits)

/-- The command the decoder reads from a word numbered as the opcode table numbers it; none for a reserved word. -/
def decodeTableWord (nbits w : Nat) : Option Instr :=
  match decode (tableWord nbits w) with
  | .ok i => some i
  | .error _ => none

end Sys2Proof
end

