-- ==== Sys2Proof/Config.lean ====
section
/-! DEFINITION. What is fixed for one machine (the build-time parameters of R6 and the OPEN constants of R7), and the
free values: constants without a body that stand for what the spec leaves open. -/

namespace Sys2Proof

/-- The Peripheral Selection `P_SEL`: exactly the supported variants (R6, R19, R201). -/
inductive PSel where
  | u0Loc0 | u0Loc1 | u1Loc0 | u1Loc1
deriving DecidableEq, Repr

/-- The parameters of R7 that the spec leaves OPEN, constant over a run (log 1). -/
structure Params where
  /-- `P_SEL` -/
  pSel : PSel
  /-- `P_INVERTED`: the inverted preset instead of the standard one. -/
  pInverted : Bool
  /-- `P_TELEMETRY_RX`: telemetry reception enabled. -/
  pTelemetryRx : Bool
  /-- `BAUD_M`, the divisor constant. -/
  baudM : Byte
  /-- `BAUD_E`, the exponent constant. -/
  baudE : BitVec 5
  /-- `SETTLE_CYCLES`, an integer of at least 1. -/
  settleCycles : Nat
  /-- `UART_IRQ_PRIO` -/
  uartIrqPrio : BitVec 2
  /-- `DESC_ADDR`, at most `0xFFF8` (R42). -/
  descAddr : Addr
  /-- `UDBUF_ADDR(0)` -/
  udbufAddr0 : Addr
  /-- `UDBUF_ADDR(1)` -/
  udbufAddr1 : Addr
  /-- `TRIG_UTX(0)` -/
  trigUtx0 : BitVec 5
  /-- `TRIG_UTX(1)` -/
  trigUtx1 : BitVec 5
deriving DecidableEq, Repr

/-- The ranges of R7 that the types do not give: `SETTLE_CYCLES >= 1`, `DESC_ADDR <= 0xFFF8`. -/
def Params.wf (p : Params) : Bool :=
  decide (1 ≤ p.settleCycles) && decide (p.descAddr.toNat ≤ 0xFFF8)

/-- The example values of D31 with the standard preset and telemetry off: "these are example values only" (log 2). -/
def Params.sample : Params where
  pSel := .u0Loc0
  pInverted := false
  pTelemetryRx := false
  baudM := 0x22
  baudE := 0x0C
  settleCycles := 9
  uartIrqPrio := 1
  descAddr := 0x0F00
  udbufAddr0 := 0xDFC1
  udbufAddr1 := 0xDFF9
  trigUtx0 := 15
  trigUtx1 := 17

/-- A free bit for each use: the collision of U13, a trigger of U10 (log 13, 14). -/
opaque Config.freeBit : Nat → Bool

/-- A free line level for each look at the line and each bit time (V4; log 22). -/
opaque Config.freeLevel : Nat → Nat → Bool

/-- A free byte for each use: the descriptor read from an unknown place (U9), the byte of a U10 trigger (log 12, 13). -/
opaque Config.freeByte : Nat → Byte

/-- A free address for each use: `W_SRC` after a U10 trigger (log 13). -/
opaque Config.freeAddr : Nat → Addr

/-- A free count for each use: `W_CNT` after a U10 trigger (log 13). -/
opaque Config.freeCount : Nat → Count

end Sys2Proof
end

