-- ==== Sys2Proof/Machine/State.lean ====
section
/-! DEFINITION. The state of the UCT block as plain data (R10), its reset value (R33), and why a step can stop. -/

namespace Sys2Proof.Machine

/-- The four commands as `SEQ` names them (R12). -/
inductive Cmd where
  | init | setMode | startTx | rdReg
deriving DecidableEq, Repr

/-- The sequencer position `SEQ`: `Idle`, or `Run(c, k)` with uop `k`, counted from 1, the next to issue (R12). -/
inductive Seq where
  | idle
  | run (c : Cmd) (k : Nat)
deriving DecidableEq, Repr

/-- One register-level effect issued by the sequencer (R9, R12). -/
inductive Uop where
  /-- INIT u1 (R101) -/
  | pmLoc
  /-- INIT u2 (R102) -/
  | pmFuncTx
  /-- INIT u3 (R102) -/
  | pmFuncRx
  /-- INIT u4 (R103) -/
  | pmDir
  /-- INIT u5 (R104) -/
  | modeEn
  /-- INIT u6 (R105) -/
  | baudM
  /-- INIT u7 (R106) -/
  | baudE
  /-- INIT u8, SET_MODE s1 (R116) -/
  | ufmtWr (cfg : Byte)
  /-- INIT u9, SET_MODE s2 (R117) -/
  | orderWr (cfg : Byte)
  /-- INIT u10, SET_MODE s3 (R118) -/
  | prioWr
  /-- INIT u11 (R107) -/
  | descInit
  /-- INIT u12 (R108) -/
  | slot
  /-- INIT u13 (R109) -/
  | arm
  /-- INIT u14, START_TX t4 (R110, R134) -/
  | settle
  /-- INIT u15 (R111) -/
  | rxIfClr
  /-- INIT u16 (R112) -/
  | reSet
  /-- INIT u17 (R113) -/
  | rxIeSet
  /-- INIT u18 (R114) -/
  | gieSet
  /-- START_TX t1 (R131) -/
  | descSrc
  /-- START_TX t2 (R132) -/
  | descLen
  /-- START_TX t3 (R133) -/
  | armTx
  /-- START_TX t5 (R135) -/
  | txd
  /-- RD_REG r1 (R180) -/
  | readReg
deriving DecidableEq, Repr

/-- doc00's channel-level state machine `TXSTATE` (R25). -/
inductive TxState where
  | idle | armed | transmitting
deriving DecidableEq, Repr

/-- The UART registers an `E_REG` event can name (R28). -/
inductive UartReg where
  | ufmt | ugcr | ubaud | ucsr
deriving DecidableEq, Repr

/-- The interrupt-interface elements an `E_IRQ` event can name (R28). -/
inductive IrqElement where
  | rxIf | rxIe | gie | prio
deriving DecidableEq, Repr

/-- The events of `EFFECTS` (R28). -/
inductive Effect where
  /-- `E_PM_LOC(i, b)` -/
  | pmLoc (i : Fin 2) (b : Bool)
  /-- `E_PM_FUNC(p, b)` -/
  | pmFunc (p : Fin 8) (b : Bool)
  /-- `E_PM_DIR(p, b)` -/
  | pmDir (p : Fin 8) (b : Bool)
  /-- `E_REG(name, mask, value)` -/
  | reg (name : UartReg) (mask value : Byte)
  /-- `E_IRQ(name, value)` -/
  | irq (name : IrqElement) (value : BitVec 2)
  /-- `E_MEM(addr, byte)` -/
  | mem (a : Addr) (b : Byte)
  /-- `E_SLOT(addr)` -/
  | slot (a : Addr)
  /-- `E_ARM` -/
  | arm
  /-- `E_SETTLE(n)` -/
  | settle (n : Nat)
  /-- `E_TXD(byte)` -/
  | txd (b : Byte)
deriving DecidableEq, Repr

/-- The reasons `U<n>` that a run can add to `UNDEF` (R30; section 2 of 93_implementation_defined.md). U6 and U17 cannot
occur, U14 and U19 are refusals, U16 and U18 need no treatment, U20 and U21 are not used. -/
inductive Undef where
  /-- START_TX while `TXSTATE != Idle`. -/
  | u1
  /-- START_TX with `len = 0`. -/
  | u2
  /-- START_TX with an invalid buffer. -/
  | u3
  /-- START_TX before INIT. -/
  | u4
  /-- A second INIT. -/
  | u5
  /-- The caller writes the buffer in flight. -/
  | u7
  /-- A trigger between ARM and LATCH. -/
  | u8
  /-- INIT, or a LATCH, with no descriptor table installed. -/
  | u9
  /-- A trigger on a channel armed with a latched count of 0. -/
  | u10
  /-- A command while not powered. -/
  | u11
  /-- A write by a non-owner of a sequencer-only element. -/
  | u12
  /-- A write of `UDBUF` while `TX_BUSY`. -/
  | u13
  /-- A frame started with `FLOW_EN = 1`. -/
  | u15
  /-- A latch of control fields or a destination the block does not write. -/
  | u22
  /-- A write of `UDBUF` while `MODE_EN = 0`. -/
  | u23
deriving DecidableEq, Repr

/-- The control fields of a descriptor, which are `W_CTL` once latched (R23, R72). -/
structure DescCtl where
  vlen : BitVec 3
  wordsize : BitVec 1
  tmode : BitVec 2
  trig : BitVec 5
  srcinc : BitVec 2
  dstinc : BitVec 2
  irqmask : BitVec 1
  m8 : BitVec 1
  priority : BitVec 2
deriving DecidableEq, Repr

/-- Data memory: (address, byte) pairs with addresses strictly rising, all below 2^16, none equal to what an unlisted
address reads as (R31, log 5). The operations are in Machine/Ops.lean. -/
abbrev Memory := List Host.Cell

/-- One contiguous piece of storage that the caller owns: `size` bytes from `base` up (R31, R137 (f); log 17). -/
structure Region where
  base : Addr
  size : Nat
deriving DecidableEq, Repr

/-- A LATCH that has made some of its eight byte reads (R44, R150): the descriptor's place, `DMA_SLOT` as it was at the
first read (none when no table was installed, U9), and the bytes read so far, ascending. -/
structure LatchRead where
  place : Option Addr
  bytes : List Byte
deriving DecidableEq, Repr

/-- The elements that R33 leaves unspecified at reset, with the values they have in one launch (V1, log 21). -/
structure Launch where
  opCfg : Byte
  opBuf : Addr
  opLen : Count
  opReg : BitVec 4
  rdata : Byte
  ufmt : Byte
  /-- `UGCR[5:0]` -/
  ugcr : BitVec 6
  ubaud : Byte
  /-- `UCSR.RE` -/
  re : Bool
  rxdata : Byte
  rxIf : Bool
  rxIe : Bool
  gie : Bool
  prio : BitVec 2
  pmLoc : BitVec 2
  pmFunc : BitVec 8
  pmDir : BitVec 8
  dmaSlot : Addr
  wSrc : Addr
  wDst : Addr
  wCnt : Count
  wCtl : DescCtl
  txShift : Byte
  txFmt : Byte
  /-- `POWERED`, set by the environment (R27). -/
  powered : Bool
  /-- The storage the caller owns, set by the environment (R137 (f); log 17). -/
  storage : List Region
  mem : Memory
deriving DecidableEq, Repr

/-- A write by an external owner of a shared element (R17, R34; log 20). -/
inductive SharedWrite where
  | rxIe (b : Bool)
  | gie (b : Bool)
  | prio (v : BitVec 2)
  | re (b : Bool)
  | pmLoc (i : Fin 2) (b : Bool)
  | pmFunc (p : Fin 8) (b : Bool)
  | pmDir (p : Fin 8) (b : Bool)
deriving DecidableEq, Repr

/-- A write by a non-owner of a register that is not shared (R34, R210, U12; a descriptor byte is a `callerWrite`; log 16). -/
inductive ForeignWrite where
  | dmaSlot (a : Addr)
  /-- `ARM`: writing 0 has no effect on it (R21) and is a breach like writing 1 (log 33). -/
  | arm (b : Bool)
  | ufmt (v : Byte)
  /-- Only bits 5:0: the reserved bits are never written (R76). -/
  | ugcr (v : BitVec 6)
  | ubaud (v : Byte)
  | udbuf (b : Byte)
  /-- `RX_IF`, by another than the receiver, INIT and the handler. -/
  | rxIf (b : Bool)
deriving DecidableEq, Repr

/-- One step of one agent; the script of a run is a list of them (log 6). -/
inductive Move where
  /-- The host presents `w`; the sequencer accepts it and runs it whole, no other agent between its uops (log 7). -/
  | command (w : CmdWord)
  /-- The host presents `w`; the sequencer accepts it (R65) and waits for `uop` moves. -/
  | present (w : CmdWord)
  /-- The sequencer issues its next uop (R12): all of it, or what the `store` moves have left of it. -/
  | uop
  /-- The sequencer makes the next byte store, not the last, of a uop that makes several (R44; log 19). -/
  | store
  /-- LATCH (R150): all eight reads, or those that the `latchByte` moves have left. -/
  | latch
  /-- The channel reads the next descriptor byte of a LATCH; the eighth ends it (R44, R150). -/
  | latchByte
  /-- FRAME_END with the channel's answer (R156) -/
  | frameEnd
  /-- RX_BYTE with the byte heard (R165) -/
  | rxByte (r : Byte)
  /-- RX_HANDLER (R166) -/
  | rxHandler
  /-- TABLE_INSTALL (R167) -/
  | tableInstall
  /-- CALLER_WRITE (R168) -/
  | callerWrite (a : Addr) (b : Byte)
  /-- A write by an external owner of a shared element (R17, R34). -/
  | shared (w : SharedWrite)
  /-- A write by a non-owner of a register that is not shared (U12). -/
  | foreign (w : ForeignWrite)
  /-- The environment powers and clocks the peripheral (R232 step 1). -/
  | powerOn
  /-- From now on the caller owns these pieces of storage (R53, R137 (f); log 17). -/
  | storage (rs : List Region)
  /-- The reset input, with the values it leaves in the unspecified elements (R230, R231). -/
  | reset (l : Launch)
deriving DecidableEq, Repr

/-- The state (R10). `par`, `free` and `script` are the model's own (log 1, 6, 30). -/
structure State where
  /-- `SEQ` (R12) -/
  seq : Seq
  /-- How many byte stores of the uop at `SEQ` are made: 0 but inside a uop that makes several (R44; log 19). -/
  stored : Nat
  /-- `OP_CFG` (R11) -/
  opCfg : Byte
  /-- `OP_BUF` (R11) -/
  opBuf : Addr
  /-- `OP_LEN` (R11) -/
  opLen : Count
  /-- `OP_REG` (R11) -/
  opReg : BitVec 4
  /-- `RDATA` (R11) -/
  rdata : Byte
  /-- `UFMT` (R13) -/
  ufmt : Byte
  /-- `UGCR` (R14) -/
  ugcr : Byte
  /-- `UBAUD` (R15) -/
  ubaud : Byte
  /-- `UCSR` (R16) -/
  ucsr : Byte
  /-- `RXDATA` (R16) -/
  rxdata : Byte
  /-- `RX_IF` (R17) -/
  rxIf : Bool
  /-- `RX_IE` (R17) -/
  rxIe : Bool
  /-- `GIE` (R17) -/
  gie : Bool
  /-- `PRIO` (R17) -/
  prio : BitVec 2
  /-- `PM_LOC` (R18), bit `i` for UART number `i` -/
  pmLoc : BitVec 2
  /-- `PM_FUNC` (R18), bit `p` for pin `p` -/
  pmFunc : BitVec 8
  /-- `PM_DIR` (R18), bit `p` for pin `p` -/
  pmDir : BitVec 8
  /-- `DMA_TABLE_VALID` (R20) -/
  dmaTableValid : Bool
  /-- `DMA_SLOT` (R20) -/
  dmaSlot : Addr
  /-- `DMAARM.ARM` (R21) -/
  arm : Bool
  /-- `LOAD_PENDING` (R23) -/
  loadPending : Bool
  /-- The LATCH in progress, none before its first and after its last read (R44, R150; log 32). -/
  latching : Option LatchRead
  /-- `W_SRC` (R23) -/
  wSrc : Addr
  /-- `W_DST` (R23) -/
  wDst : Addr
  /-- `W_CNT` (R23) -/
  wCnt : Count
  /-- `W_CTL` (R23) -/
  wCtl : DescCtl
  /-- `TX_BUSY` (R24) -/
  txBusy : Bool
  /-- `TX_SHIFT` (R24) -/
  txShift : Byte
  /-- `TX_FMT` (R24) -/
  txFmt : Byte
  /-- `TXSTATE` (R25) -/
  txState : TxState
  /-- `MEM` (R31) -/
  mem : Memory
  /-- `INIT_DONE` (R26) -/
  initDone : Bool
  /-- `POWERED` (R27) -/
  powered : Bool
  /-- The storage the caller owns, a fact of the environment as `POWERED` is (R53, R137 (f); log 17). -/
  storage : List Region
  /-- `EFFECTS` (R28), in issue order -/
  effects : List Effect
  /-- `WIRE` (R29), in order of completion -/
  wire : List (Byte × List Bool)
  /-- `UNDEF` (R30), in the order of the reasons' numbers, each at most once -/
  undef : List Undef
  /-- The build-time parameters (R6, R7), which no step changes. -/
  par : Params
  /-- How many free values have been drawn. -/
  free : Nat
  /-- The moves still to come. -/
  script : List Move
deriving DecidableEq, Repr

/-- Why a step faults. The hardware never does (R200). -/
inductive Fault where
  /-- Raised by Machine/Step.lean when the script asks for a step that its rule does not enable: no run of the hardware
  takes it. Safe: the model only stops on what is no execution (log 9). -/
  | stepNotEnabled
deriving DecidableEq, Repr

/-- Why a command has no meaning. -/
inductive Refusal where
  /-- Raised only by an arm of exec for a command that has no meaning yet. Safe. -/
  | notModelled (mnemonic : String)
  /-- U14: a reserved command word (R76). Raised by step. Safe: the spec refuses it. -/
  | reservedCommandWord
  /-- U19: RD_REG with `reg = 4` or `reg` in 12..15 (R182). Raised by RD_REG. Safe: the spec refuses it. -/
  | reservedReadIndex
deriving DecidableEq, Repr

/-- The state right after reset, for given parameters and a given launch: the table of R33. -/
def State.ofLaunch (p : Params) (l : Launch) (free : Nat) (script : List Move) : State where
  seq := .idle
  stored := 0
  opCfg := l.opCfg
  opBuf := l.opBuf
  opLen := l.opLen
  opReg := l.opReg
  rdata := l.rdata
  ufmt := l.ufmt
  ugcr := l.ugcr.zeroExtend 8
  ubaud := l.ubaud
  ucsr := if l.re then 0x40 else 0x00
  rxdata := l.rxdata
  rxIf := l.rxIf
  rxIe := l.rxIe
  gie := l.gie
  prio := l.prio
  pmLoc := l.pmLoc
  pmFunc := l.pmFunc
  pmDir := l.pmDir
  dmaTableValid := false
  dmaSlot := l.dmaSlot
  arm := false
  loadPending := false
  latching := none
  wSrc := l.wSrc
  wDst := l.wDst
  wCnt := l.wCnt
  wCtl := l.wCtl
  txBusy := false
  txShift := l.txShift
  txFmt := l.txFmt
  txState := .idle
  mem := l.mem
  initDone := false
  powered := l.powered
  storage := l.storage
  effects := []
  wire := []
  undef := []
  par := p
  free := free
  script := script

/-- The launch the model picks: every unspecified element zero (log 3), `MEM` with nothing listed (log 5), the peripheral
powered, as in the spec's common start state (log 4), and all of data memory the caller's storage (log 17). -/
def Launch.zero : Launch where
  opCfg := 0
  opBuf := 0
  opLen := 0
  opReg := 0
  rdata := 0
  ufmt := 0
  ugcr := 0
  ubaud := 0
  re := false
  rxdata := 0
  rxIf := false
  rxIe := false
  gie := false
  prio := 0
  pmLoc := 0
  pmFunc := 0
  pmDir := 0
  dmaSlot := 0
  wSrc := 0
  wDst := 0
  wCnt := 0
  wCtl := ⟨0, 0, 0, 0, 0, 0, 0, 0, 0⟩
  txShift := 0
  txFmt := 0
  powered := true
  storage := [⟨0, 65536⟩]
  mem := []

/-- The machine right after reset (R33, R230) with the parameters of log 2, the launch of log 3 to 5 and 17, and nothing to do. -/
def State.reset : State := State.ofLaunch Params.sample Launch.zero 0 []

end Sys2Proof.Machine
end

