-- ==== Sys2Proof/Machine/Operands.lean ====
section
/-! DEFINITION. The operand forms: the constants of the Peripheral Selection (R19), byte order (R41), the FrameCfg byte
and its presets (R66, R68), the DMA Transfer Descriptor (R72 to R74), and what START_TX derives from its operands (R70). -/

namespace Sys2Proof.Machine

/-! ### The Peripheral Selection (R19) -/

/-- `inst(P_SEL)` -/
def selInst (p : Params) : Fin 2 :=
  match p.pSel with
  | .u0Loc0 => 0
  | .u0Loc1 => 0
  | .u1Loc0 => 1
  | .u1Loc1 => 1

/-- `loc(P_SEL)` -/
def selLoc (p : Params) : Bool :=
  match p.pSel with
  | .u0Loc0 => false
  | .u0Loc1 => true
  | .u1Loc0 => false
  | .u1Loc1 => true

/-- `TXPIN(P_SEL)` -/
def txPin (p : Params) : Fin 8 :=
  match p.pSel with
  | .u0Loc0 => 0
  | .u0Loc1 => 2
  | .u1Loc0 => 4
  | .u1Loc1 => 6

/-- `RXPIN(P_SEL)` -/
def rxPin (p : Params) : Fin 8 :=
  match p.pSel with
  | .u0Loc0 => 1
  | .u0Loc1 => 3
  | .u1Loc0 => 5
  | .u1Loc1 => 7

/-- `UDBUF_ADDR(inst(P_SEL))`, the destination -/
def udbufAddr (p : Params) : Addr := if selInst p = 0 then p.udbufAddr0 else p.udbufAddr1

/-- `TRIG_UTX(inst(P_SEL))`, the trigger code -/
def trigUtx (p : Params) : BitVec 5 := if selInst p = 0 then p.trigUtx0 else p.trigUtx1

/-! ### Byte order (R41): most significant byte at the lower address -/

/-- `v[15:8]` -/
def hiByte (v : Addr) : Byte := v.extractLsb' 8 8

/-- `v[7:0]` -/
def loByte (v : Addr) : Byte := v.extractLsb' 0 8

/-- `{h, l}` -/
def joinBytes (h l : Byte) : Addr := h ++ l

/-! ### The FrameCfg byte (R66) -/

/-- Line level of the start bit. -/
def startPol (f : Byte) : Bool := f.getLsbD 0
/-- Line level of the stop bits and of the idle line. -/
def stopPol (f : Byte) : Bool := f.getLsbD 1
/-- Two stop bits. -/
def stop2 (f : Byte) : Bool := f.getLsbD 2
/-- Parity enable. -/
def parEn (f : Byte) : Bool := f.getLsbD 3
/-- A ninth bit time follows the eight data bits. -/
def nine (f : Byte) : Bool := f.getLsbD 4
/-- Odd parity. -/
def parOdd (f : Byte) : Bool := f.getLsbD 5
/-- Hardware flow-control enable. -/
def flowEn (f : Byte) : Bool := f.getLsbD 6
/-- Most significant data bit first. -/
def order (f : Byte) : Bool := f.getLsbD 7

/-- R68 -/
def presetStandard : Byte := 0x1E
/-- R68 -/
def presetInverted : Byte := 0x3D
/-- The preset INIT applies (R119). -/
def preset (p : Params) : Byte := if p.pInverted then presetInverted else presetStandard

/-! ### The DMA Transfer Descriptor (R72 to R74) -/

/-- The control values the block writes, `DMA_IRQMASK`, `DMA_M8` and `DMA_PRIORITY` among them (R74, R7). -/
def blockCtl (p : Params) : DescCtl where
  vlen := 0
  wordsize := 0
  tmode := 0
  trig := trigUtx p
  srcinc := 1
  dstinc := 0
  irqmask := 0
  m8 := 0
  priority := 0

/-- Descriptor byte 4, `{VLEN, LEN[12:8]}` (R72). -/
def descByte4 (vlen : BitVec 3) (len : Count) : Byte := (vlen ++ len.extractLsb' 8 5 : BitVec 8)

/-- Descriptor byte 5, `LEN[7:0]` (R72). -/
def descByte5 (len : Count) : Byte := len.extractLsb' 0 8

/-- Descriptor byte 6, `{WORDSIZE, TMODE, TRIG}` (R72). -/
def descByte6 (c : DescCtl) : Byte := (c.wordsize ++ c.tmode ++ c.trig : BitVec 8)

/-- Descriptor byte 7, `{SRCINC, DSTINC, IRQMASK, M8, PRIORITY}` (R72). -/
def descByte7 (c : DescCtl) : Byte := (c.srcinc ++ c.dstinc ++ c.irqmask ++ c.m8 ++ c.priority : BitVec 8)

/-- `W_CTL` as latched from descriptor bytes 4, 6 and 7 (R23, R150). -/
def ctlOfBytes (d4 d6 d7 : Byte) : DescCtl where
  vlen := d4.extractLsb' 5 3
  wordsize := d6.extractLsb' 7 1
  tmode := d6.extractLsb' 5 2
  trig := d6.extractLsb' 0 5
  srcinc := d7.extractLsb' 6 2
  dstinc := d7.extractLsb' 4 2
  irqmask := d7.extractLsb' 3 1
  m8 := d7.extractLsb' 2 1
  priority := d7.extractLsb' 0 2

/-- `{d[4][4:0], d[5]}`, the 13-bit length (R150). -/
def lenOfBytes (d4 d5 : Byte) : Count := (d4.extractLsb' 0 5 ++ d5 : BitVec 13)

/-! ### What START_TX derives from its operands (R70, R46) -/

/-- `src = OP_BUF +_16 1` -/
def txSource (buf : Addr) : Addr := buf + 1

/-- Is `a` one of the `n` addresses from `lo` up, without wrapping? -/
def inRange (a lo : Addr) (n : Nat) : Bool := decide (lo.toNat ≤ a.toNat) && decide (a.toNat < lo.toNat + n)

/-- Is `a` a descriptor byte, `DESC_ADDR .. DESC_ADDR+7`? -/
def isDescByte (p : Params) (a : Addr) : Bool := inRange a p.descAddr 8

/-- R137 (f): do the `n` bytes at `lo` lie in one piece of the caller's storage (log 17)? -/
def inStorage (rs : List Region) (lo : Addr) (n : Nat) : Bool :=
  rs.any fun r => decide (r.base.toNat ≤ lo.toNat) && decide (lo.toNat + n ≤ r.base.toNat + r.size)

/-- R46, R137 (g): the `len + 1` bytes at `buf` lie below 2^16 and contain neither a descriptor byte nor the data
register's address. -/
def bufferClear (p : Params) (buf : Addr) (len : Count) : Bool :=
  decide (buf.toNat + len.toNat ≤ 0xFFFF)
    && (decide (p.descAddr.toNat + 7 < buf.toNat) || decide (buf.toNat + len.toNat < p.descAddr.toNat))
    && !(inRange (udbufAddr p) buf (len.toNat + 1))

/-- The buffer of START_TX is valid: storage the caller owns, and clear of the block's own addresses (R137 (f), (g), R238). -/
def bufferValid (p : Params) (rs : List Region) (buf : Addr) (len : Count) : Bool :=
  inStorage rs buf (len.toNat + 1) && bufferClear p buf len

end Sys2Proof.Machine
end

