-- ==== Sys2Proof/Machine/Flags.lean ====
section
/-! DEFINITION. Register fields, masked writes (R8), the flags and events of R32, and the read-back views of R181. There
are no arithmetic condition codes. -/

namespace Sys2Proof.Machine

/-- `REG[...] <- v` under a mask: the named bits take `v`'s, every other bit stays as it was (R8, R50). -/
def maskedWrite (old mask v : Byte) : Byte := (old &&& ~~~mask) ||| (v &&& mask)

/-- Write one bit of a bit array. -/
def putBit {n : Nat} (v : BitVec n) (i : Nat) (b : Bool) : BitVec n :=
  if b then v ||| BitVec.twoPow n i else v &&& ~~~(BitVec.twoPow n i)

/-- A flag as one bit. -/
def bit (b : Bool) : BitVec 1 := BitVec.ofBool b

/-- `UFMT.MODE_EN` (R13) -/
def State.modeEn (s : State) : Bool := s.ufmt.getLsbD 7

/-- `UGCR.ORDER` (R14) -/
def State.orderBit (s : State) : Bool := s.ugcr.getLsbD 5

/-- `UCSR.RE` (R16) -/
def State.re (s : State) : Bool := s.ucsr.getLsbD 6

/-- `{UGCR.ORDER, UFMT[6:0]}`, the format in force (R24, R120). -/
def State.format (s : State) : Byte := (bit s.orderBit ++ s.ufmt.extractLsb' 0 7 : BitVec 8)

/-- A read of `UDBUF`, done by the external handler only, returns `RXDATA` (R16, R166). -/
def State.udbufRead (s : State) : Byte := s.rxdata

/-- The receive interrupt is taken exactly when `RX_IF`, `RX_IE` and `GIE` are 1 (R203). -/
def State.interruptTaken (s : State) : Bool := s.rxIf && s.rxIe && s.gie

/-- `IRQC` (R17, R181) -/
def State.irqc (s : State) : Byte := (bit s.gie ++ bit s.rxIe ++ bit s.rxIf ++ 0#3 ++ s.prio : BitVec 8)

/-- `DMAARM` (R21, R181) -/
def State.dmaarm (s : State) : Byte := (0#7 ++ bit s.arm : BitVec 8)

/-- `PMLOC` (R18, R181) -/
def State.pmlocReg (s : State) : Byte := (0#6 ++ s.pmLoc : BitVec 8)

/-- `regval(i)`, the index map of R181; none for a refused index (R182). Reserved bits read as zero (R76). -/
def State.regval (s : State) (i : BitVec 4) : Option Byte :=
  if i = 0 then some s.ufmt
  else if i = 1 then some (s.ugcr &&& 0x3F)
  else if i = 2 then some s.ubaud
  else if i = 3 then some (s.ucsr &&& 0x40)
  else if i = 5 then some s.irqc
  else if i = 6 then some s.dmaarm
  else if i = 7 then some (hiByte s.dmaSlot)
  else if i = 8 then some (loByte s.dmaSlot)
  else if i = 9 then some s.pmlocReg
  else if i = 10 then some s.pmFunc
  else if i = 11 then some s.pmDir
  else none

end Sys2Proof.Machine
end

