-- ==== Sys2Proof/Machine/Wire.lean ====
section
/-! DEFINITION. The wire format: the frame of a byte under a format (R160) and its parity bit (R161). A level is a Bool,
true for high. -/

namespace Sys2Proof.Machine

/-- R161: the exclusive-or of the eight data bits and `PAR_ODD`. -/
def parity (f b : Byte) : Bool :=
  b.getLsbD 0 ^^ b.getLsbD 1 ^^ b.getLsbD 2 ^^ b.getLsbD 3 ^^ b.getLsbD 4 ^^ b.getLsbD 5 ^^ b.getLsbD 6 ^^ b.getLsbD 7
    ^^ parOdd f

/-- The eight data bits, least significant first. -/
def bitsLsbFirst (b : Byte) : List Bool :=
  [b.getLsbD 0, b.getLsbD 1, b.getLsbD 2, b.getLsbD 3, b.getLsbD 4, b.getLsbD 5, b.getLsbD 6, b.getLsbD 7]

/-- The eight data bits in the order of `ORDER` (R160). -/
def dataBits (f b : Byte) : List Bool :=
  if order f then (bitsLsbFirst b).reverse else bitsLsbFirst b

/-- The ninth bit time: none without `NINE`, the parity bit with `PAR_EN`, else the level `PAR_ODD` (R160). -/
def ninthBit (f b : Byte) : List Bool :=
  if nine f then (if parEn f then [parity f b] else [parOdd f]) else []

/-- One or two stop bits (R160). -/
def stopBits (f : Byte) : List Bool :=
  if stop2 f then [stopPol f, stopPol f] else [stopPol f]

/-- R160: the line levels of a frame, one per bit time, first sent first. -/
def frame (f b : Byte) : List Bool :=
  [startPol f] ++ dataBits f b ++ ninthBit f b ++ stopBits f

end Sys2Proof.Machine
end

