-- ==== Sys2Proof/Machine/Ops.lean ====
section
/-! DEFINITION. The named operations over memory and state that the uops and the agents' steps share. Each state operation
is one record update, so that what it leaves alone can be read off. The block has no exception entry and no return from
one (R200, R206, R216): what stands in their place is `State.recordIf` (a broken precondition adds its reason to `UNDEF`
and the uops go on, R30, D21) and `State.handle` (the receive interrupt's handler, R166). -/

namespace Sys2Proof.Machine

/-! ### Data memory (R31, R43) -/

/-- What an address that the list does not hold reads as: `MEM` at reset is unspecified, the model takes 0 (log 5). -/
def Memory.unlisted : Byte := 0

/-- `MemRead(a, 1)` -/
def Memory.read : Memory → Addr → Byte
  | [], _ => Memory.unlisted
  | (k, v) :: m, a => if k = a.toNat then v else Memory.read m a

/-- The list without any entry for the key `k`. -/
def Memory.erase : Memory → Nat → Memory
  | [], _ => []
  | (j, v) :: m, k => if j = k then Memory.erase m k else (j, v) :: Memory.erase m k

/-- The list with an entry put before the first larger key. -/
def Memory.insert : Memory → Nat → Byte → Memory
  | [], k, v => [(k, v)]
  | (j, w) :: m, k, v => if k < j then (k, v) :: (j, w) :: m else (j, w) :: Memory.insert m k v

/-- `MemWrite(a, 1, v)`; a byte equal to what an unlisted address reads as is not listed. -/
def Memory.write (m : Memory) (a : Addr) (v : Byte) : Memory :=
  if v = Memory.unlisted then Memory.erase m a.toNat else Memory.insert (Memory.erase m a.toNat) a.toNat v

/-- The canonical form above a lower bound `lo` for the first key. -/
def Memory.wfFrom : Nat → Memory → Bool
  | _, [] => true
  | lo, (k, v) :: m => decide (lo ≤ k) && decide (k < 65536) && decide (v ≠ Memory.unlisted) && Memory.wfFrom (k + 1) m

/-- The canonical form: addresses strictly rising and below 2^16, no entry equal to what an unlisted address reads as. -/
def Memory.wf (m : Memory) : Bool := Memory.wfFrom 0 m

/-- The canonical memory that holds the cells of any list (keys modulo 2^16, a later cell over an earlier one). -/
def Memory.ofCells (cells : List Host.Cell) : Memory :=
  cells.foldl (fun m c => Memory.write m (BitVec.ofNat 16 c.1) c.2) []

/-- Consecutive byte stores from address `a` up, the first byte first. -/
def Memory.writeList : Memory → Addr → List Byte → Memory
  | m, _, [] => m
  | m, a, b :: bs => Memory.writeList (Memory.write m a b) (a + 1) bs

/-! ### The ghost lists -/

/-- The number of a reason, the order in which `UNDEF` lists its members. -/
def Undef.number : Undef → Nat
  | .u1 => 1
  | .u2 => 2
  | .u3 => 3
  | .u4 => 4
  | .u5 => 5
  | .u7 => 7
  | .u8 => 8
  | .u9 => 9
  | .u10 => 10
  | .u11 => 11
  | .u12 => 12
  | .u13 => 13
  | .u15 => 15
  | .u22 => 22
  | .u23 => 23

/-- Add a reason to the set, which stays in the order of the numbers (R30). -/
def insertUndef (u : Undef) : List Undef → List Undef
  | [] => [u]
  | v :: vs =>
    if u.number < v.number then u :: v :: vs
    else if u.number = v.number then v :: vs
    else v :: insertUndef u vs

/-- `undefined(U<n>)` on the set when `c` holds. -/
def addUndef (c : Bool) (u : Undef) (us : List Undef) : List Undef := if c then insertUndef u us else us

/-- `undefined(U<n>)` when `c` holds: the reason joins the sticky set and nothing else changes (R30, R200, D21; log 10). -/
def State.recordIf (c : Bool) (u : Undef) (s : State) : State := { s with undef := addUndef c u s.undef }

/-- `emit(e)` for each of the events in order (R8, R28). -/
def State.emit (es : List Effect) (s : State) : State := { s with effects := s.effects ++ es }

/-! ### Shared by the sequencer and the channel -/

/-- A sequencer's stores of consecutive descriptor bytes, those that are not made yet, and then the `E_MEM` events of all
(R107, R131, R132; log 19). Where `DESC_ADDR .. DESC_ADDR+7` contains `UDBUF_ADDR`, which R7 allows, R46 gives the access
no meaning: the model's choice is a plain byte of `MEM`, no frame (log 31). -/
def State.storeBytes (a : Addr) (bs : List Byte) (s : State) : State :=
  { s with
    mem := Memory.writeList s.mem (a + BitVec.ofNat 16 s.stored) (bs.drop s.stored)
    stored := 0
    effects := s.effects ++ (List.range bs.length).zipWith (fun k b => Effect.mem (a + BitVec.ofNat 16 k) b) bs }

/-- A write of 1 to `ARM`: `LOAD_PENDING <- true`, and a LATCH in progress starts again, since "the pending read simply
reads the newer descriptor" (R21, R109; log 32). -/
def State.scheduleLatch (s : State) : State := { s with arm := true, loadPending := true, latching := none }

/-- The ARM uop: `ARM <- 1`, `LOAD_PENDING <- true`, `E_ARM` (R109). -/
def State.armChannel (s : State) : State := s.scheduleLatch.emit [.arm]

/-- Is the UDBUF write lost because a frame is on the wire? Overwritten or lost is left open (U13; log 14). -/
def State.writeLost (s : State) : Bool := s.txBusy && Config.freeBit s.free

/-- FRAME_START: a write of `b` to `UDBUF` from either port (R155), with U23, U13 and, for a frame whose format has
`FLOW_EN = 1`, U15 (R164). The format is sampled here. -/
def State.frameStart (b : Byte) (s : State) : State :=
  { s with
    undef := addUndef (flowEn s.format) .u15 (addUndef s.txBusy .u13 (addUndef (!s.modeEn) .u23 s.undef))
    txShift := if s.writeLost then s.txShift else b
    txFmt := if s.writeLost then s.txFmt else s.format
    txBusy := true
    free := if s.txBusy then s.free + 1 else s.free }

/-- The LATCH in progress, or one about to make its first read: `a = DMA_SLOT` (R150), no place without a table (U9). -/
def State.latchRead (s : State) : LatchRead :=
  s.latching.getD { place := if s.dmaTableValid then some s.dmaSlot else none, bytes := [] }

/-- How many of the eight bytes are read. -/
def State.latchCount (s : State) : Nat := s.latchRead.bytes.length

/-- Is the descriptor's place unknown (U9)? -/
def State.latchLost (s : State) : Bool := s.latchRead.place.isNone

/-- Descriptor byte `k` as LATCH has it: read already, or read now from `a + k` (at `UDBUF_ADDR` too, log 31), or from an
unknown place (U9; log 12). For `a` above `0xFFF8` R150's `a + k` passes `0xFFFF` and no rule says what is read: the model's
choice is `a + k` modulo 2^16 (log 34). -/
def State.latchByte (s : State) (k : Nat) : Byte :=
  match s.latchRead.bytes[k]? with
  | some b => b
  | none =>
    match s.latchRead.place with
    | some a => Memory.read s.mem (a + BitVec.ofNat 16 k)
    | none => Config.freeByte (s.free + (k - s.latchCount))

/-- The destination LATCH reads. -/
def State.latchDst (s : State) : Addr := joinBytes (s.latchByte 2) (s.latchByte 3)

/-- The control fields LATCH reads. -/
def State.latchCtl (s : State) : DescCtl := ctlOfBytes (s.latchByte 4) (s.latchByte 6) (s.latchByte 7)

/-- Does LATCH read other control fields or another destination than the block writes (R73, R150)? -/
def State.latchForeign (s : State) : Bool :=
  decide (s.latchCtl ≠ blockCtl s.par) || decide (s.latchDst ≠ udbufAddr s.par)

/-- LATCH: the channel makes the reads that are left of the eight and loads its working registers (R150), with U9 and U22
(R73). -/
def State.latch (s : State) : State :=
  { s with
    undef := addUndef s.latchForeign .u22 (addUndef s.latchLost .u9 s.undef)
    wSrc := joinBytes (s.latchByte 0) (s.latchByte 1)
    wDst := s.latchDst
    wCnt := lenOfBytes (s.latchByte 4) (s.latchByte 5)
    wCtl := s.latchCtl
    loadPending := false
    latching := none
    free := if s.latchLost then s.free + (8 - s.latchCount) else s.free }

/-- One of the first seven reads of a LATCH (R44, R150). -/
def State.readDescByte (s : State) : State :=
  { s with
    undef := addUndef s.latchLost .u9 s.undef
    latching := some { s.latchRead with bytes := s.latchRead.bytes ++ [s.latchByte s.latchCount] }
    free := if s.latchLost then s.free + 1 else s.free }

/-- The next read of a LATCH; the eighth loads the working registers (R44, R150). -/
def State.latchStep (s : State) : State := if s.latchCount < 7 then s.readDescByte else s.latch

/-- RX_HANDLER, the contract of the receive interrupt's handler: it reads `UDBUF` and clears `RX_IF`; it writes nothing
else (R166, R206, R207). -/
def State.handle (s : State) : State := { s with rxIf := false }

end Sys2Proof.Machine
end

