-- ==== Sys2Proof/Machine/Channel.lean ====
section
/-! DEFINITION. The transmitter's FRAME_END and the DMA channel's answer to the transmit-complete event `TXC`, one atomic
step (R151 to R158). -/

namespace Sys2Proof.Machine

/-- What the channel does with a trigger (R151, R154). -/
inductive TriggerResponse where
  /-- `ARM = 0`: ignored (R154 (a)). -/
  | ignore
  /-- TRANSFER (R152). -/
  | transfer
  /-- `ARM = 1`, `LOAD_PENDING = true`: U8 (R154 (b)). -/
  | beforeLatch
  /-- `ARM = 1`, `LOAD_PENDING = false`, `W_CNT = 0`: U10 (R154 (c)). -/
  | nothingToMove
deriving DecidableEq, Repr

/-- Trigger dispatch (R151); the latched `TRIG` is not compared (log 26). -/
def State.triggerResponse (s : State) : TriggerResponse :=
  if !s.arm then .ignore
  else if s.loadPending then .beforeLatch
  else if s.wCnt = 0 then .nothingToMove
  else .transfer

/-- TRANSFER: one byte from the buffer to the data register through the DMA port (R152); the count that reaches 0 clears
`ARM` in the same step, DISARM (R153). -/
def State.transfer (s : State) : State :=
  { s.frameStart (Memory.read s.mem s.wSrc) with
    wSrc := s.wSrc + 1
    wCnt := s.wCnt - 1
    arm := if s.wCnt - 1 = 0 then false else s.arm }

/-- No TRANSFER answered the event: `Transmitting -> Idle` (R156, R158). -/
def State.retire (s : State) : State :=
  { s with txState := if s.txState = .transmitting then .idle else s.txState }

/-- A trigger with nothing to move: whether a byte is written, which one, and what the channel then holds are all open
(R154 (c); log 13). -/
def State.openTrigger (s : State) : State :=
  let s1 := { s with
    wSrc := Config.freeAddr (s.free + 2)
    wCnt := Config.freeCount (s.free + 3)
    arm := Config.freeBit (s.free + 4)
    free := s.free + 5 }
  if Config.freeBit s.free then s1.frameStart (Config.freeByte (s.free + 1)) else s1.retire

/-- The channel's answer to `TXC` (R151, R154, R156). Before the latch the stale working registers are used (U8). -/
def State.answerTrigger (s : State) : State :=
  match s.triggerResponse with
  | .ignore => s.retire
  | .transfer => s.transfer
  | .beforeLatch =>
    if s.wCnt = 0 then (s.recordIf true .u8).openTrigger else (s.recordIf true .u8).transfer
  | .nothingToMove => (s.recordIf true .u10).openTrigger

/-- The frame has finished: it joins `WIRE` and the transmitter is free (first half of R156). -/
def State.completeFrame (s : State) : State :=
  { s with wire := s.wire ++ [(s.txShift, frame s.txFmt s.txShift)], txBusy := false }

/-- FRAME_END with the channel's answer to `TXC`, one atomic step (R156). -/
def State.frameEnd (s : State) : State := s.completeFrame.answerTrigger

end Sys2Proof.Machine
end

