-- ==== Sys2Proof/Machine/Uops.lean ====
section
/-! DEFINITION. The uops of the sequencer, one definition each (R101 to R118, R131 to R135, R180), and `issue`, which
names them all. -/

namespace Sys2Proof.Machine

/-! ### INIT step 1: pins and mode -/

/-- PM_LOC: `PM_LOC[i] <- b` for the selected UART only (R101). -/
def uopPmLoc (s : State) : State :=
  { s with
    pmLoc := putBit s.pmLoc (selInst s.par).val (selLoc s.par)
    effects := s.effects ++ [.pmLoc (selInst s.par) (selLoc s.par)] }

/-- PM_FUNC: `PM_FUNC[p] <- 1` (R102). -/
def uopPmFunc (p : Fin 8) (s : State) : State :=
  { s with pmFunc := putBit s.pmFunc p.val true, effects := s.effects ++ [.pmFunc p true] }

/-- PM_DIR: the transmit pin is an output (R103). -/
def uopPmDir (s : State) : State :=
  { s with
    pmDir := putBit s.pmDir (txPin s.par).val true
    effects := s.effects ++ [.pmDir (txPin s.par) true] }

/-- MODE_EN: `UFMT.MODE_EN <- 1` (R104). -/
def uopModeEn (s : State) : State :=
  { s with ufmt := maskedWrite s.ufmt 0x80 0x80, effects := s.effects ++ [.reg .ufmt 0x80 0x80] }

/-! ### INIT step 2: baud rate -/

/-- BAUD_M: `UBAUD <- BAUD_M` (R105). -/
def uopBaudM (s : State) : State :=
  { s with ubaud := s.par.baudM, effects := s.effects ++ [.reg .ubaud 0xFF s.par.baudM] }

/-- BAUD_E: `UGCR.BAUD_E <- BAUD_E` (R106). -/
def uopBaudE (s : State) : State :=
  { s with
    ugcr := maskedWrite s.ugcr 0x1F (s.par.baudE.zeroExtend 8)
    effects := s.effects ++ [.reg .ugcr 0x1F (s.par.baudE.zeroExtend 8)] }

/-! ### The mode-application routine: SET_MODE, and INIT step 3 -/

/-- UFMT_WR: `UFMT[6:0] <- cfg[6:0]`, `MODE_EN` kept (R116). -/
def uopUfmtWr (cfg : Byte) (s : State) : State :=
  { s with
    ufmt := maskedWrite s.ufmt 0x7F cfg
    effects := s.effects ++ [.reg .ufmt 0x7F (cfg &&& 0x7F)] }

/-- `cfg[7] << 5`, the value of the ORDER_WR write (R117). -/
def orderValue (cfg : Byte) : Byte := if order cfg then 0x20 else 0x00

/-- ORDER_WR: `UGCR.ORDER <- cfg[7]`, in both directions (R117). -/
def uopOrderWr (cfg : Byte) (s : State) : State :=
  { s with
    ugcr := maskedWrite s.ugcr 0x20 (orderValue cfg)
    effects := s.effects ++ [.reg .ugcr 0x20 (orderValue cfg)] }

/-- PRIO_WR: `PRIO <- UART_IRQ_PRIO` (R118). -/
def uopPrioWr (s : State) : State :=
  { s with prio := s.par.uartIrqPrio, effects := s.effects ++ [.irq .prio s.par.uartIrqPrio] }

/-! ### INIT steps 4 and 5: descriptor, slot, arm, settle -/

/-- The eight bytes DESC_INIT writes: source and length zero, the rest as R74 (R107). -/
def descInitBytes (p : Params) : List Byte :=
  [0, 0, hiByte (udbufAddr p), loByte (udbufAddr p), descByte4 (blockCtl p).vlen 0, descByte5 0, descByte6 (blockCtl p),
    descByte7 (blockCtl p)]

/-- DESC_INIT: the eight descriptor bytes in ascending order (R107; at `UDBUF_ADDR` log 31). -/
def uopDescInit (s : State) : State := s.storeBytes s.par.descAddr (descInitBytes s.par)

/-- SLOT: `DMA_SLOT <- DESC_ADDR`, high byte first, unless a `store` move has written it already (R108; log 19). -/
def uopSlot (s : State) : State :=
  { s with
    dmaSlot := joinBytes (if s.stored = 0 then hiByte s.par.descAddr else hiByte s.dmaSlot) (loByte s.par.descAddr)
    stored := 0
    effects := s.effects ++ [.slot s.par.descAddr] }

/-- SETTLE as it completes: the event only (R110). When it may complete is `uopEnabled`. -/
def uopSettle (s : State) : State := s.emit [.settle s.par.settleCycles]

/-! ### INIT step 6: the receive path -/

/-- RX_IF_CLR: `RX_IF <- 0` (R111). -/
def uopRxIfClr (s : State) : State := { s with rxIf := false, effects := s.effects ++ [.irq .rxIf 0] }

/-- RE_SET: `UCSR.RE <- 1` (R112). -/
def uopReSet (s : State) : State :=
  { s with ucsr := maskedWrite s.ucsr 0x40 0x40, effects := s.effects ++ [.reg .ucsr 0x40 0x40] }

/-- RX_IE_SET: `RX_IE <- 1` (R113). -/
def uopRxIeSet (s : State) : State := { s with rxIe := true, effects := s.effects ++ [.irq .rxIe 1] }

/-- GIE_SET: `GIE <- 1` (R114). -/
def uopGieSet (s : State) : State := { s with gie := true, effects := s.effects ++ [.irq .gie 1] }

/-! ### START_TX -/

/-- U1 at a START_TX uop that touches the descriptor or the channel while a transfer is in flight (R131, R133; log 11). -/
def State.recordInFlight (s : State) : State := s.recordIf (decide (s.txState ≠ .idle)) .u1

/-- The two bytes DESC_SRC writes (R131). -/
def descSrcBytes (s : State) : List Byte := [hiByte (txSource s.opBuf), loByte (txSource s.opBuf)]

/-- DESC_SRC, t1: the source address, high byte first (R131; at `UDBUF_ADDR` log 31). -/
def uopDescSrc (s : State) : State := s.recordInFlight.storeBytes s.par.descAddr (descSrcBytes s)

/-- The two bytes DESC_LEN writes (R132). -/
def descLenBytes (s : State) : List Byte := [descByte4 0 s.opLen, descByte5 s.opLen]

/-- DESC_LEN, t2: the length, high byte first, with `VLEN = 000` (R132; at `UDBUF_ADDR` log 31). -/
def uopDescLen (s : State) : State := s.storeBytes (s.par.descAddr + 4) (descLenBytes s)

/-- t3: the ARM uop, then `TXSTATE <- Armed` (R133). -/
def uopArmTx (s : State) : State := { s.recordInFlight.armChannel with txState := .armed }

/-- TXD, t5: the first byte through the host port, and `TXSTATE <- Transmitting` (R135). A read at `UDBUF_ADDR`, which is U3,
reads `MEM` (log 31). -/
def uopTxd (s : State) : State :=
  { (s.emit [.txd (Memory.read s.mem s.opBuf)]).frameStart (Memory.read s.mem s.opBuf) with txState := .transmitting }

/-! ### RD_REG -/

/-- r1: `RDATA <- regval(OP_REG)` (R180); a refused index never gets here (`uopRefused`). -/
def uopReadReg (s : State) : State := { s with rdata := (s.regval s.opReg).getD s.rdata }

/-! ### Byte by byte (R44; log 19) -/

/-- Where a uop stores consecutive bytes of `MEM`, and which; none for a uop that stores none there. -/
def memStores (u : Uop) (s : State) : Option (Addr × List Byte) :=
  match u with
  | .descInit => some (s.par.descAddr, descInitBytes s.par)
  | .descSrc => some (s.par.descAddr, descSrcBytes s)
  | .descLen => some (s.par.descAddr + 4, descLenBytes s)
  | .pmLoc | .pmFuncTx | .pmFuncRx | .pmDir | .modeEn | .baudM | .baudE | .ufmtWr _ | .orderWr _ | .prioWr | .slot | .arm
  | .settle | .rxIfClr | .reSet | .rxIeSet | .gieSet | .armTx | .txd | .readReg => none

/-- How many byte stores a uop makes one after the other (R43, R107, R108, R131, R132); 1 for every uop that is one access. -/
def storeCount (u : Uop) : Nat :=
  match u with
  | .descInit => 8
  | .slot => 2
  | .descSrc => 2
  | .descLen => 2
  | .pmLoc | .pmFuncTx | .pmFuncRx | .pmDir | .modeEn | .baudM | .baudE | .ufmtWr _ | .orderWr _ | .prioWr | .arm | .settle
  | .rxIfClr | .reSet | .rxIeSet | .gieSet | .armTx | .txd | .readReg => 1

/-- The next byte store, not the last, of a uop that makes several: the byte is in `MEM` (or in `DMA_SLOT`) at once; the
events come with the last (R44, R131). DESC_SRC records U1 with its first (log 11). -/
def storeNext (u : Uop) (s : State) : State :=
  match memStores u s with
  | some (a, bs) =>
    { s with
      mem := Memory.writeList s.mem (a + BitVec.ofNat 16 s.stored) ((bs.drop s.stored).take 1)
      undef := addUndef (decide (u = .descSrc) && decide (s.txState ≠ .idle)) .u1 s.undef
      stored := s.stored + 1 }
  | none => { s with dmaSlot := joinBytes (hiByte s.par.descAddr) (loByte s.dmaSlot), stored := s.stored + 1 }

/-- The effect of one uop, or of what is left of it. -/
def issue (u : Uop) (s : State) : State :=
  match u with
  | .pmLoc => uopPmLoc s
  | .pmFuncTx => uopPmFunc (txPin s.par) s
  | .pmFuncRx => uopPmFunc (rxPin s.par) s
  | .pmDir => uopPmDir s
  | .modeEn => uopModeEn s
  | .baudM => uopBaudM s
  | .baudE => uopBaudE s
  | .ufmtWr cfg => uopUfmtWr cfg s
  | .orderWr cfg => uopOrderWr cfg s
  | .prioWr => uopPrioWr s
  | .descInit => uopDescInit s
  | .slot => uopSlot s
  | .arm => s.armChannel
  | .settle => uopSettle s
  | .rxIfClr => uopRxIfClr s
  | .reSet => uopReSet s
  | .rxIeSet => uopRxIeSet s
  | .gieSet => uopGieSet s
  | .descSrc => uopDescSrc s
  | .descLen => uopDescLen s
  | .armTx => uopArmTx s
  | .txd => uopTxd s
  | .readReg => uopReadReg s

end Sys2Proof.Machine
end

