-- ==== Sys2Proof/Machine/Sequencer.lean ====
section
/-! DEFINITION. The sequencer (R12): the uop list of each command, one uop as one step, and a whole command run without
interruption. -/

namespace Sys2Proof.Machine

/-- The uops of SET_MODE, and of INIT step 3 (R115, R119): the shared mode-application routine. -/
def modeUops (cfg : Byte) : List Uop := [.ufmtWr cfg, .orderWr cfg, .prioWr]

/-- INIT step 1: pins and mode; u3 only with `P_TELEMETRY_RX` (R100). -/
def initPinUops (p : Params) : List Uop :=
  if p.pTelemetryRx then [.pmLoc, .pmFuncTx, .pmFuncRx, .pmDir, .modeEn] else [.pmLoc, .pmFuncTx, .pmDir, .modeEn]

/-- INIT step 2: the baud-rate pair (R100). -/
def initBaudUops : List Uop := [.baudM, .baudE]

/-- INIT steps 4 and 5: the descriptor, its slot, arm, settle (R100). -/
def initDmaUops : List Uop := [.descInit, .slot, .arm, .settle]

/-- INIT step 6, only with `P_TELEMETRY_RX`: flag first, then the enables (R100, R240). -/
def initRxUops (p : Params) : List Uop := if p.pTelemetryRx then [.rxIfClr, .reSet, .rxIeSet, .gieSet] else []

/-- The uops of INIT in order (R100): 13, or 18 with `P_TELEMETRY_RX`. -/
def initUops (p : Params) : List Uop :=
  initPinUops p ++ initBaudUops ++ modeUops (preset p) ++ initDmaUops ++ initRxUops p

/-- The uops of START_TX in order (R130). -/
def startTxUops : List Uop := [.descSrc, .descLen, .armTx, .settle, .txd]

/-- The uop list of a command, its operands in the latches (R12). -/
def uopsOf (s : State) : Cmd → List Uop
  | .init => initUops s.par
  | .setMode => modeUops s.opCfg
  | .startTx => startTxUops
  | .rdReg => [.readReg]

/-- The uop that is next to issue, none when `SEQ` is Idle or out of the command's list (R12). -/
def State.nextUop (s : State) : Option Uop :=
  match s.seq with
  | .idle => none
  | .run _ 0 => none
  | .run c (k + 1) => (uopsOf s c)[k]?

/-- SETTLE completes only when `LOAD_PENDING = false`; every other uop may issue at once (R110). -/
def State.uopEnabled (s : State) (u : Uop) : Bool := !(decide (u = .settle) && s.loadPending)

/-- RD_REG's uop with a refused index in `OP_REG` (R182); the decoder never leaves one there. -/
def State.uopRefused (s : State) (u : Uop) : Bool := decide (u = .readReg) && (s.regval s.opReg).isNone

/-- Has uop `u` of INIT taken effect: INIT is done, or in progress past `u` (R12, R26)? -/
def State.initPast (s : State) (u : Uop) : Bool :=
  s.initDone ||
    match s.seq with
    | .run .init k => decide (u ∈ (initUops s.par).take (k - 1))
    | _ => false

/-- The end of a command: `SEQ <- Idle`, and `INIT_DONE <- true` after INIT (R100, R12). -/
def State.finish (c : Cmd) (s : State) : State :=
  { s with seq := .idle, initDone := s.initDone || decide (c = .init) }

/-- `SEQ` after uop `k + 1` of `c`: the next one, or the end of the command (R12). -/
def State.advance (c : Cmd) (k : Nat) (s : State) : State :=
  if k + 1 = (uopsOf s c).length then s.finish c else { s with seq := .run c (k + 2) }

/-- The sequencer issues its next uop (R12, R48). -/
def State.uopStep (s : State) : Host.Outcome State Fault Refusal :=
  match s.seq with
  | .idle => .fault .stepNotEnabled
  | .run _ 0 => .fault .stepNotEnabled
  | .run c (k + 1) =>
    match (uopsOf s c)[k]? with
    | none => .fault .stepNotEnabled
    | some u =>
      if s.uopRefused u then .refused .reservedReadIndex
      else if s.uopEnabled u then .next ((issue u s).advance c k)
      else .fault .stepNotEnabled

/-- The sequencer makes one byte store, not the last, of its next uop (R44; log 19). -/
def State.storeStep (s : State) : Host.Outcome State Fault Refusal :=
  match s.nextUop with
  | none => .fault .stepNotEnabled
  | some u => if s.stored + 1 < storeCount u then .next (storeNext u s) else .fault .stepNotEnabled

/-- One uop of an uninterrupted run: SETTLE waits for a pending LATCH, which comes first (R110, R150). -/
def State.issueSettled (s : State) (u : Uop) : State :=
  issue u (if s.uopEnabled u then s else s.latch)

/-- A list of uops without interruption. -/
def State.runUops (s : State) (us : List Uop) : State := us.foldl State.issueSettled s

/-- A command whose operands are loaded, run whole (log 7). -/
def State.perform (c : Cmd) (s : State) : State := (s.runUops (uopsOf s c)).finish c

/-- `SEQ <- Run(c, 1)`, nothing of uop 1 done, and U11 unless the peripheral is powered (R65, R215). -/
def State.accept (c : Cmd) (s : State) : State :=
  { s.recordIf (!s.powered) .u11 with seq := .run c 1, stored := 0 }

end Sys2Proof.Machine
end

