-- ==== Sys2Proof/Machine/Configurator.lean ====
section
/-! DEFINITION. The Peripheral Configurator's commands, INIT and SET_MODE (40_configurator.md). -/

namespace Sys2Proof.Machine

/-- Acceptance of INIT: nothing to load (R65); a second INIT is U5, no descriptor table is U9 (R100). -/
def State.acceptInit (s : State) : State :=
  ((s.recordIf s.initDone .u5).recordIf (!s.dmaTableValid) .u9).accept .init

/-- INIT (R100), run whole. Not accepted unless `SEQ = Idle` (R12; log 18). -/
def execInit (s : State) : Host.Outcome State Fault Refusal :=
  if s.seq = .idle then .next (s.acceptInit.perform .init) else .next s

/-- Acceptance of SET_MODE: `OP_CFG <- cfg` (R65). -/
def State.acceptSetMode (cfg : Byte) (s : State) : State := { s with opCfg := cfg }.accept .setMode

/-- SET_MODE (R115), run whole. Not accepted unless `SEQ = Idle` (R12; log 18). -/
def execSetMode (cfg : Byte) (s : State) : Host.Outcome State Fault Refusal :=
  if s.seq = .idle then .next ((s.acceptSetMode cfg).perform .setMode) else .next s

end Sys2Proof.Machine
end

