-- ==== Sys2Proof/Machine/Readback.lean ====
section
/-! DEFINITION. The register read-back, RD_REG (43_readback.md). -/

namespace Sys2Proof.Machine

/-- Acceptance of RD_REG with an index that is not refused: `OP_REG <- reg` (R65). -/
def State.acceptRdReg (reg : BitVec 4) (s : State) : State := { s with opReg := reg }.accept .rdReg

/-- RD_REG (R180), run whole; a refused index is U19 (R182; log 23). Not accepted unless `SEQ = Idle` (R12; log 18). -/
def execRdReg (reg : BitVec 4) (s : State) : Host.Outcome State Fault Refusal :=
  if s.seq = .idle then
    if (s.regval reg).isNone then .refused .reservedReadIndex else .next ((s.acceptRdReg reg).perform .rdReg)
  else .next s

end Sys2Proof.Machine
end

