-- ==== Sys2Proof/Machine/Transmission.lean ====
section
/-! DEFINITION. The Transmission Engine's command, START_TX (41_transmission.md). -/

namespace Sys2Proof.Machine

/-- Acceptance of START_TX: `OP_BUF <- buf`, `OP_LEN <- len` (R65), and what breaking a precondition of R137 is: (b) U4,
(c) U1, (d) U2, (f) and (g) U3. The command goes on whatever they are (R130). -/
def State.acceptStartTx (buf : Addr) (len : Count) (s : State) : State :=
  let s1 : State := { s with opBuf := buf, opLen := len }
  ((((s1.recordIf (!s.initDone) .u4).recordIf (decide (s.txState ≠ .idle)) .u1).recordIf (decide (len = 0)) .u2).recordIf
    (!bufferValid s.par s.storage buf len) .u3).accept .startTx

/-- START_TX (R130), run whole. Not accepted unless `SEQ = Idle` (R12; log 18). -/
def execStartTx (buf : Addr) (len : Count) (s : State) : Host.Outcome State Fault Refusal :=
  if s.seq = .idle then .next ((s.acceptStartTx buf len).perform .startTx) else .next s

end Sys2Proof.Machine
end

