-- ==== Sys2Proof/Machine/Dispatch.lean ====
section
/-! DEFINITION. The meaning of each command: one arm per constructor of Instr. -/

namespace Sys2Proof.Machine

def exec (i : Instr) (s : State) : Host.Outcome State Fault Refusal :=
  match i with
  | .init => Sys2Proof.Machine.execInit s
  | .setMode cfg => Sys2Proof.Machine.execSetMode cfg s
  | .startTx buf len => Sys2Proof.Machine.execStartTx buf len s
  | .rdReg reg => Sys2Proof.Machine.execRdReg reg s

end Sys2Proof.Machine
end

