-- ==== Sys2Proof/Machine/Agents.lean ====
section
/-! DEFINITION. The steps of the receiver and the environment (42_agents.md sections 4 and 5), acceptance of a command
without running it, the reset input, and what happens when the script asks for nothing (R169). -/

namespace Sys2Proof.Machine

/-- A step that its rule may not enable: the next state, or the fault of log 9. -/
def whenEnabled (enabled : Bool) (s : State) : Host.Outcome State Fault Refusal :=
  if enabled then .next s else .fault .stepNotEnabled

/-- Acceptance of a command: the latches are loaded, `SEQ <- Run(c, 1)`, no uop has issued (R65). -/
def acceptCommand (i : Instr) (s : State) : Host.Outcome State Fault Refusal :=
  match i with
  | .init => .next s.acceptInit
  | .setMode cfg => .next (s.acceptSetMode cfg)
  | .startTx buf len => .next (s.acceptStartTx buf len)
  | .rdReg reg => if (s.regval reg).isNone then .refused .reservedReadIndex else .next (s.acceptRdReg reg)

/-- RX_BYTE: `RXDATA <- r`, `RX_IF <- 1` (R165). -/
def State.rxByte (r : Byte) (s : State) : State := { s with rxdata := r, rxIf := true }

/-- RX_HANDLER is enabled when the interrupt is taken, between two uops and never inside one (R166, R203, R205). -/
def State.rxHandlerEnabled (s : State) : Bool := s.interruptTaken && decide (s.stored = 0)

/-- RX_BYTE is enabled when `UCSR.RE = 1` and `UFMT.MODE_EN = 1` (R165). -/
def State.rxByteEnabled (s : State) : Bool := s.re && s.modeEn

/-- TABLE_INSTALL (R167). -/
def State.tableInstall (s : State) : State := { s with dmaTableValid := true }

/-- The buffer the caller must keep, its first address and how many bytes. From acceptance of START_TX to its end the
operands name the bytes `buf .. buf+len` (R53); after that, while `TXSTATE != Idle`, the descriptor in `MEM` does:
`buf+1 .. buf+len` (R237, R11; log 15). -/
def State.flight (s : State) : Option (Addr × Nat) :=
  match s.seq with
  | .run .startTx _ => some (s.opBuf, s.opLen.toNat + 1)
  | _ =>
    if s.txState = .idle then none
    else some (joinBytes (s.mem.read s.par.descAddr) (s.mem.read (s.par.descAddr + 1)),
      (lenOfBytes (s.mem.read (s.par.descAddr + 4)) (s.mem.read (s.par.descAddr + 5))).toNat)

/-- Is `a` a byte of that buffer? -/
def State.bufferInFlight (s : State) (a : Addr) : Bool := s.flight.any fun r => inRange a r.1 r.2

/-- The caller's storage changes: a buffer in flight that is not wholly in the new storage is no longer kept valid, U7 (R53,
R237; log 17). -/
def State.setStorage (rs : List Region) (s : State) : State :=
  { s.recordIf (s.flight.any fun r => !inStorage rs r.1 r.2) .u7 with storage := rs }

/-- CALLER_WRITE (R168): on a descriptor byte U12, on a byte of the buffer in flight U7, and the byte is stored; at the
data register's address it is a foreign write of `UDBUF`, U12 (R46, R34; log 16, 31). -/
def State.callerWrite (a : Addr) (b : Byte) (s : State) : State :=
  if a = udbufAddr s.par then (s.recordIf true .u12).frameStart b
  else
    { (s.recordIf (isDescByte s.par a) .u12).recordIf (s.bufferInFlight a) .u7 with mem := s.mem.write a b }

/-- The elements that others may write "at any time the sequencer is idle" (R17): a write while a command runs is a breach
of that convention, U12 and no fault (R210; log 20). -/
def SharedWrite.onlyIdle : SharedWrite → Bool
  | .rxIe _ | .gie _ | .prio _ => true
  | .re _ | .pmLoc _ _ | .pmFunc _ _ | .pmDir _ _ => false

/-- A write of a shared element by its external owner (R17, R34, R210; log 20). -/
def State.sharedWrite (w : SharedWrite) (s : State) : State :=
  let s1 := s.recordIf (w.onlyIdle && decide (s.seq ≠ .idle)) .u12
  match w with
  | .rxIe b => { s1 with rxIe := b }
  | .gie b => { s1 with gie := b }
  | .prio v => { s1 with prio := v }
  | .re b => { s1 with ucsr := maskedWrite s.ucsr 0x40 (if b then 0x40 else 0x00) }
  | .pmLoc i b => { s1 with pmLoc := putBit s.pmLoc i.val b }
  | .pmFunc p b => { s1 with pmFunc := putBit s.pmFunc p.val b }
  | .pmDir p b => { s1 with pmDir := putBit s.pmDir p.val b }

/-- A write by a non-owner of a register that is not shared: U12, and the foreign value is used (R34, R210, R243; log 16). A
write of 0 to `ARM` leaves it (R21) and is U12 all the same (log 33). -/
def State.foreignWrite (w : ForeignWrite) (s : State) : State :=
  let s1 := s.recordIf true .u12
  match w with
  | .dmaSlot a => { s1 with dmaSlot := a }
  | .arm b => if b then s1.scheduleLatch else s1
  | .ufmt v => { s1 with ufmt := v }
  | .ugcr v => { s1 with ugcr := v.zeroExtend 8 }
  | .ubaud v => { s1 with ubaud := v }
  | .udbuf b => s1.frameStart b
  | .rxIf b => { s1 with rxIf := b }

/-- The peripheral is powered and clocked (R232 step 1). -/
def State.powerOn (s : State) : State := { s with powered := true }

/-- The reset input: the command, the transfer and the frame in progress are abandoned, the control state takes the values
of R33 and every unspecified element the launch's (R230, R231; log 21). -/
def State.resetInput (l : Launch) (s : State) : State :=
  State.ofLaunch s.par { l with mem := Memory.ofCells l.mem } s.free s.script

/-- The sequencer goes on with the command in progress: its next uop, or the LATCH that SETTLE waits for (R110, R169). -/
def State.sequencerStep (s : State) : Host.Outcome State Fault Refusal :=
  match s.nextUop with
  | none => .fault .stepNotEnabled
  | some u => if s.uopEnabled u then s.uopStep else .next s.latch

/-- The script asks for nothing: the sequencer first, then a pending LATCH, then the end of the frame on the wire, else
nothing happens. One order of the many R169 allows (log 8); fairness over all of them is `Progress` in Safety.lean. -/
def State.progress (s : State) : Host.Outcome State Fault Refusal :=
  match s.seq with
  | .run _ _ => s.sequencerStep
  | .idle => .next (if s.loadPending then s.latch else if s.txBusy then s.frameEnd else s)

/-- One move of an agent other than the host's commands, with what enables it. -/
def State.agentMove (m : Move) (s : State) : Host.Outcome State Fault Refusal :=
  match m with
  | .command _ => .fault .stepNotEnabled
  | .present _ => .fault .stepNotEnabled
  | .uop => s.uopStep
  | .store => s.storeStep
  | .latch => whenEnabled s.loadPending s.latch
  | .latchByte => whenEnabled s.loadPending s.latchStep
  | .frameEnd => whenEnabled s.txBusy s.frameEnd
  | .rxByte r => whenEnabled s.rxByteEnabled (s.rxByte r)
  | .rxHandler => whenEnabled s.rxHandlerEnabled s.handle
  | .tableInstall => .next s.tableInstall
  | .callerWrite a b => .next (s.callerWrite a b)
  | .shared w => .next (s.sharedWrite w)
  | .foreign w => .next (s.foreignWrite w)
  | .powerOn => .next s.powerOn
  | .storage rs => .next (s.setStorage rs)
  | .reset l => .next (s.resetInput l)

end Sys2Proof.Machine
end

