-- ==== Sys2Proof/Machine/Step.lean ====
section
/-! DEFINITION. One step of the machine: the first move of the script (R169; log 6). -/

namespace Sys2Proof.Machine

/-- A command word on the command port is decoded (R65) and handed on; a reserved word is refused (R76, U14). -/
def onCommand (run : Instr → State → Host.Outcome State Fault Refusal) (w : CmdWord) (s : State) :
    Host.Outcome State Fault Refusal :=
  match decode w with
  | .ok i => run i s
  | .error _ => .refused .reservedCommandWord

/-- One step. A command word waits at the head of the script until `SEQ = Idle` (R12): meanwhile the sequencer goes on
(log 18). -/
def step (s : State) : Host.Outcome State Fault Refusal :=
  match s.script with
  | [] => s.progress
  | .command w :: ms => if s.seq = .idle then onCommand exec w { s with script := ms } else s.progress
  | .present w :: ms => if s.seq = .idle then onCommand acceptCommand w { s with script := ms } else s.progress
  | m :: ms => State.agentMove m { s with script := ms }

/-- The state in which the next step runs the command whose word is `w` in the table's numbering: the word at the head of
the script, the command port free (log 6, 28). -/
def State.withFetchWord (s : State) (nbits w : Nat) : State :=
  { s with seq := .idle, script := .command (tableWord nbits w) :: s.script }

end Sys2Proof.Machine
end

