-- ==== Sys2Proof/Machine/Line.lean ====
section
/-! DEFINITION. The level of the transmit pin (R162), a function of the state. A level is a Bool, true for high. -/

namespace Sys2Proof.Machine

/-- Has INIT selected the pin: is it done, or in progress past its last pin uop (R100, R103, R162; log 22)? -/
def State.pinSelected (s : State) : Bool := s.initPast .pmDir

/-- `LINE` (R162): while `TX_BUSY` the level of bit time `k` of the frame (none past its end); between frames the current
`STOP_POL`; with `MODE_EN = 0` or before INIT has selected the pin unspecified (V4): a free level. `look` is the observer's
number of this look at the line, so that the levels of two looks or two bit times need not agree (log 22). -/
def State.lineLevel (s : State) (look k : Nat) : Option Bool :=
  if !s.modeEn || !s.pinSelected then some (Config.freeLevel look k)
  else if s.txBusy then (frame s.txFmt s.txShift)[k]?
  else some (stopPol s.ufmt)

end Sys2Proof.Machine
end

