-- ==== Sys2Proof/Safety.lean ====
section
/-! DEFINITION. What counts as a safe run (no undefined behaviour met, R30), the form every state keeps, the handshake that
the arbiter's protocol keeps while no undefined behaviour has been met (R159), and the progress assumptions as weak fairness
(R169). -/

namespace Sys2Proof.Machine

/-- No undefined behaviour has been met (R30): the premise of every claim about a run (R200). -/
def State.clean (s : State) : Prop := s.undef = []

/-! ### The form of a state -/

/-- `UNDEF` lists its members in the order of their numbers, each once. -/
def undefSorted : List Undef → Bool
  | [] => true
  | [_] => true
  | u :: v :: us => decide (u.number < v.number) && undefSorted (v :: us)

/-- `SEQ` is Idle or names a uop of its command's list (R12). -/
def State.seqLegal (s : State) : Bool :=
  match s.seq with
  | .idle => true
  | .run c k => decide (1 ≤ k) && decide (k ≤ (uopsOf s c).length)

/-- Byte stores are made only of a uop that makes several, and not all of them (R44; log 19). -/
def State.storedLegal (s : State) : Bool :=
  decide (s.stored = 0) || s.nextUop.any fun u => decide (s.stored < storeCount u)

/-- A LATCH in progress is pending and short of its eighth read (R150; log 32). -/
def State.latchingLegal (s : State) : Bool :=
  s.latching.all fun r => s.loadPending && decide (r.bytes.length < 8)

/-- The form of a state: parameters in range (R7), memory canonical (R31), reserved register bits zero (R14, R16, R76),
`SEQ` legal (R12) with what is done of its uop, the LATCH in progress legal (R150), `UNDEF` a set (R30). -/
def State.inv (s : State) : Bool :=
  s.par.wf && Memory.wf s.mem && decide (s.ugcr &&& 0xC0 = 0) && decide (s.ucsr &&& 0xBF = 0) && s.seqLegal
    && s.storedLegal && s.latchingLegal && undefSorted s.undef

/-! ### The handshake -/

/-- The descriptor's fixed fields are as INIT writes them: destination and control (R74). -/
def State.descFixed (s : State) : Prop :=
  joinBytes (Memory.read s.mem (s.par.descAddr + 2)) (Memory.read s.mem (s.par.descAddr + 3)) = udbufAddr s.par
    ∧ ctlOfBytes (Memory.read s.mem (s.par.descAddr + 4)) (Memory.read s.mem (s.par.descAddr + 6))
        (Memory.read s.mem (s.par.descAddr + 7)) = blockCtl s.par

/-- The length field of the descriptor in memory (R72). -/
def State.descLen (s : State) : Count :=
  lenOfBytes (Memory.read s.mem (s.par.descAddr + 4)) (Memory.read s.mem (s.par.descAddr + 5))

/-- What holds between the sequencer, the channel and the transmitter while no undefined behaviour has been met: whose turn
it is to write `UDBUF` (R159), when a latch can be pending (R48, R110), what INIT has put in place (R74). -/
structure State.Handshake (s : State) : Prop where
  /-- INIT runs once (R239) and only with the descriptor table installed (U9). -/
  initOnce : ∀ k, s.seq = .run .init k → s.initDone = false
  table : (s.initDone = true ∨ ∃ k, s.seq = .run .init k) → s.dmaTableValid = true
  modeEn : s.initPast .modeEn = true → s.modeEn = true
  desc : s.initPast .descInit = true → s.descFixed
  slot : s.initPast .slot = true → s.dmaSlot = s.par.descAddr
  /-- What is done of a uop that stores several bytes is in its place (R44). -/
  partway : s.storedLegal = true
  memStored : ∀ u a bs, s.nextUop = some u → memStores u s = some (a, bs) →
    ∀ j < s.stored, bs[j]? = some (Memory.read s.mem (a + BitVec.ofNat 16 j))
  slotStored : s.nextUop = some .slot → s.stored ≠ 0 → hiByte s.dmaSlot = hiByte s.par.descAddr
  /-- No transmission before INIT is done (U4). -/
  noTxBeforeInit : s.initDone = false → s.txState = .idle ∧ ∀ k, s.seq ≠ .run .startTx k
  /-- A latch is pending only where SETTLE waits for it (R110). -/
  pending : s.loadPending = true → s.nextUop = some .settle
  /-- A LATCH in progress has read the descriptor's bytes as they still are (R44, R150). -/
  reading : ∀ r, s.latching = some r → s.loadPending = true ∧ r.place = some s.dmaSlot ∧ r.bytes.length < 8
    ∧ ∀ j < r.bytes.length, r.bytes[j]? = some (Memory.read s.mem (s.dmaSlot + BitVec.ofNat 16 j))
  /-- `Idle`: nothing is on the wire. -/
  idle : s.txState = .idle → s.txBusy = false
  /-- `Armed`: nothing is on the wire and START_TX stands at t4 or t5 (R138). -/
  armed : s.txState = .armed → s.txBusy = false ∧ (s.seq = .run .startTx 4 ∨ s.seq = .run .startTx 5)
  /-- `Transmitting`: a frame is on the wire and the channel is armed exactly while it has bytes left (R153, R158). -/
  transmitting : s.txState = .transmitting → s.txBusy = true ∧ s.loadPending = false ∧ (s.arm = true ↔ s.wCnt ≠ 0)
  /-- START_TX up to t3 stands in `Idle`, from t4 on in `Armed` (R133). -/
  txPosition : ∀ k, s.seq = .run .startTx k → s.txState = if k ≤ 3 then .idle else .armed
  txLen : ∀ k, s.seq = .run .startTx k → s.opLen ≠ 0 ∧ (3 ≤ k → s.descLen = s.opLen)
  /-- From t4 on the channel is armed, and once the latch is taken it holds the length (R134). -/
  txLatched : ∀ k, s.seq = .run .startTx k → 4 ≤ k → s.arm = true ∧ (s.loadPending = true ∨ s.wCnt = s.opLen)

/-- The handshake holds unless undefined behaviour has been met. -/
def State.Protected (s : State) : Prop := s.clean → s.Handshake

/-! ### Progress as weak fairness (R169) -/

/-- A run of the machine without end: `σ n` is the state after `n` steps and `m n` the move taken in it, any enabled move of
any agent (R169, V3). The host presents a word only while the port is free (R12). -/
structure IsRun (σ : Nat → State) (m : Nat → Move) : Prop where
  follows : ∀ n, step { σ n with script := [m n] } = .next (σ (n + 1))
  port : ∀ n w, m n = .command w ∨ m n = .present w → (σ n).seq = .idle

/-- Weak fairness: what stays enabled from some moment on is taken at some later moment. -/
def WeaklyFair (σ : Nat → State) (enabled : State → Prop) (taken : Nat → Prop) : Prop :=
  ∀ n, (∀ k, n ≤ k → enabled (σ k)) → ∃ k, n ≤ k ∧ taken k

/-- The three progress assumptions of R169. -/
structure Progress (σ : Nat → State) (m : Nat → Move) : Prop where
  /-- (1) A pending LATCH is eventually taken, to its last read. -/
  latch : WeaklyFair σ (fun s => s.loadPending = true) fun k => (σ (k + 1)).loadPending = false
  /-- (2) A frame in progress eventually ends. -/
  frameEnd : WeaklyFair σ (fun s => s.txBusy = true) fun k => m k = .frameEnd
  /-- (3) The sequencer eventually issues its next uop. -/
  uop : WeaklyFair σ (fun s => s.nextUop.any s.uopEnabled = true) fun k => m k = .uop

end Sys2Proof.Machine
end

