-- ==== Sys2Proof/Certificates/Slice0/Obligations.lean ====
section
/-! DEFINITION. The statements for the provers. Each docstring says which rules of spec/ it formalises. -/

open Sys2Proof Sys2Proof.Machine

/-! ### Encoding -/

/-- R61 to R65, R80: no bit of an operand is dropped, at any value the encoding admits. -/
def Obligations.DecodeOfEncode : Prop := ∀ i : Instr, decode (encode i) = .ok i

/-- R61 to R65: every word that decodes is the encoding of what it decodes to, so each command has one word. -/
def Obligations.EncodeOfDecode : Prop := ∀ (w : CmdWord) (i : Instr), decode w = .ok i → encode i = w

/-- R76 (first sentence), U14: exactly which words are reserved, and that a step refuses them, run whole or accepted only. -/
def Obligations.ReservedWordsAreRefused : Prop :=
  ∀ w : CmdWord,
    ((∃ r, decode w = .error r) ↔
      (w.extractLsb' 29 3 = 0 ∨ w.extractLsb' 29 3 = 5 ∨ w.extractLsb' 29 3 = 6 ∨ w.extractLsb' 29 3 = 7
        ∨ (w.extractLsb' 29 3 = 1 ∧ w.extractLsb' 0 29 ≠ 0)
        ∨ (w.extractLsb' 29 3 = 2 ∧ w.extractLsb' 8 21 ≠ 0)
        ∨ (w.extractLsb' 29 3 = 4 ∧ w.extractLsb' 4 25 ≠ 0)))
    ∧ ∀ (s : State) (ms : List Move), s.seq = .idle → (∃ r, decode w = .error r) →
        (s.script = .command w :: ms → step s = .refused .reservedCommandWord)
        ∧ (s.script = .present w :: ms → step s = .refused .reservedCommandWord)

/-- 95_test_vectors.md 2.1: a few words, written out, and what they decode to. -/
def Obligations.SampleWordsDecode : Prop :=
  decode 0b00100000000000000000000000000000 = .ok .init
    ∧ decode 0b01000000000000000000000000011110 = .ok (.setMode 0x1E)
    ∧ decode 0b01100000000000110001000000000000 = .ok (.startTx 0x1000 3)
    ∧ decode 0b01111111111111110010000000000000 = .ok (.startTx 0x2000 8191)
    ∧ decode 0b10000000000000000000000000001011 = .ok (.rdReg 11)

/-- R72, R73: the control and length fields of a descriptor survive being stored in bytes 4 to 7 and read back, and bytes
4 to 7 are determined by the fields read from them. -/
def Obligations.DescriptorFieldsRoundTrip : Prop :=
  (∀ (c : DescCtl) (n : Count),
    ctlOfBytes (descByte4 c.vlen n) (descByte6 c) (descByte7 c) = c
      ∧ lenOfBytes (descByte4 c.vlen n) (descByte5 n) = n)
  ∧ ∀ d4 d5 d6 d7 : Byte,
    descByte4 (ctlOfBytes d4 d6 d7).vlen (lenOfBytes d4 d5) = d4 ∧ descByte5 (lenOfBytes d4 d5) = d5
      ∧ descByte6 (ctlOfBytes d4 d6 d7) = d6 ∧ descByte7 (ctlOfBytes d4 d6 d7) = d7

/-! ### The step -/

/-- R65: with the port free, the step whose script begins with a command word is that command's meaning (log 6, 7 for the
script, which is the model's own). -/
def Obligations.StepRunsDecodedCommand : Prop :=
  ∀ (s : State) (w : CmdWord) (ms : List Move) (i : Instr), s.seq = .idle → s.script = .command w :: ms →
    decode w = .ok i → step s = exec i { s with script := ms }

/-- R12, R65, R182: the same word only accepted (log 7): the latches of the decoded command, and no other, are loaded, `SEQ`
is at its uop 1 with nothing done, no uop has issued; an index that R182 refuses is refused here already (log 23). Which
reasons join `UNDEF` is BrokenPreconditionsAreRecorded's. -/
def Obligations.StepAcceptsPresentedCommand : Prop :=
  ∀ (s : State) (w : CmdWord) (ms : List Move), s.seq = .idle → s.script = .present w :: ms →
    (decode w = .ok .init →
      ∃ us, step s = .next { s with seq := .run .init 1, stored := 0, undef := us, script := ms } ∧ s.undef ⊆ us)
    ∧ (∀ cfg, decode w = .ok (.setMode cfg) → ∃ us, step s
        = .next { s with opCfg := cfg, seq := .run .setMode 1, stored := 0, undef := us, script := ms } ∧ s.undef ⊆ us)
    ∧ (∀ buf len, decode w = .ok (.startTx buf len) → ∃ us, step s = .next { s with
        opBuf := buf, opLen := len, seq := .run .startTx 1, stored := 0, undef := us, script := ms } ∧ s.undef ⊆ us)
    ∧ ∀ reg, decode w = .ok (.rdReg reg) →
        if reg = 4 ∨ 12 ≤ reg.toNat then step s = .refused .reservedReadIndex
        else ∃ us, step s
          = .next { s with opReg := reg, seq := .run .rdReg 1, stored := 0, undef := us, script := ms } ∧ s.undef ⊆ us

/-- R12, R48 (1): in a command in progress a `uop` move issues exactly uop `k` of its list, or what its `store` moves have
left of it, and moves `SEQ` by one, to Idle after the last; SETTLE is not issued while `LOAD_PENDING` (R110): that the move
then ends in a fault is log 9. -/
def Obligations.UopMoveIssuesOneUop : Prop :=
  ∀ (s : State) (ms : List Move) (c : Cmd) (k : Nat) (u : Uop), s.script = .uop :: ms → s.seq = .run c (k + 1) →
    (uopsOf s c)[k]? = some u → (u = .readReg → ∃ v, s.regval s.opReg = some v) →
    if u = .settle ∧ s.loadPending = true then step s = .fault .stepNotEnabled
    else ∃ t, step s = .next t
      ∧ t = { issue u { s with script := ms } with
          seq := if k + 1 = (uopsOf s c).length then .idle else .run c (k + 2)
          initDone := s.initDone || (decide (c = .init) && decide (k + 1 = (uopsOf s c).length)) }

/-- R44, R107, R108, R131, R132 (log 19): a `store` move makes exactly one byte store of the uop at `SEQ`, the next in
ascending order, and is not enabled for the last (log 9); DESC_SRC while a transfer is in flight is U1 (log 11); nothing
else changes, the events among it. A uop whose stores are made one move each, nothing between, ends as the uop made at once. -/
def Obligations.StoreMoveStoresOneByte : Prop :=
  (∀ (s : State) (ms : List Move) (u : Uop), s.script = .store :: ms → s.nextUop = some u →
    (storeCount u ≤ s.stored + 1 → step s = .fault .stepNotEnabled)
    ∧ (s.stored + 1 < storeCount u →
      (∀ a bs, memStores u s = some (a, bs) → ∃ b us, bs[s.stored]? = some b
        ∧ step s = .next { s with
            mem := s.mem.write (a + BitVec.ofNat 16 s.stored) b
            undef := us
            stored := s.stored + 1
            script := ms }
        ∧ s.undef ⊆ us ∧ ((u ≠ .descSrc ∨ s.txState = .idle) → us = s.undef)
        ∧ (u = .descSrc → s.txState ≠ .idle → .u1 ∈ us))
      ∧ (memStores u s = none → u = .slot ∧ step s = .next { s with
          dmaSlot := (s.par.descAddr.extractLsb' 8 8 ++ s.dmaSlot.extractLsb' 0 8 : BitVec 16)
          stored := s.stored + 1
          script := ms })))
  ∧ ∀ (s : State) (ms : List Move) (c : Cmd) (k : Nat) (u : Uop), s.seq = .run c (k + 1) → (uopsOf s c)[k]? = some u →
    s.stored = 0 → s.script = List.replicate (storeCount u - 1) .store ++ .uop :: ms →
    core.run (storeCount u) s = step { s with script := .uop :: ms }

/-- R12: a command is accepted only when `SEQ = Idle`: until then the word waits on the port while the sequencer goes on,
and exec itself does nothing (log 18). -/
def Obligations.CommandWaitsForIdle : Prop :=
  (∀ (s : State) (i : Instr), s.seq ≠ .idle → exec i s = .next s)
  ∧ ∀ (s s' : State) (w : CmdWord) (ms : List Move), s.seq ≠ .idle →
    (s.script = .command w :: ms ∨ s.script = .present w :: ms) → step s = .next s' →
    s'.script = s.script ∧ s'.opCfg = s.opCfg ∧ s'.opBuf = s.opBuf ∧ s'.opLen = s.opLen ∧ s'.opReg = s.opReg

/-- R12, R48, R110: a command run whole (log 7) is its uops taken one at a time, each as a step of its own, with the LATCH
that SETTLE waits for: `core.run` over the accepted state, whose empty script leaves the order of steps to log 8, reaches
what exec gives. -/
def Obligations.CommandIsItsUops : Prop :=
  ∀ (s a : State) (i : Instr), s.seq = .idle → s.script = [] → acceptCommand i s = .next a →
    ∃ c, a.seq = .run c 1
      ∧ core.run ((uopsOf a c).length + (if c = .init ∨ c = .startTx then 1 else 0)) a = exec i s

/-! ### SET_MODE -/

/-- R116, R117, R118: the three uops of the mode-application routine, bit by bit, with their events and nothing else. -/
def Obligations.ModeUopsWriteNamedBits : Prop :=
  ∀ (s : State) (cfg : Byte),
    issue (.ufmtWr cfg) s = { s with
      ufmt := (s.ufmt.extractLsb' 7 1 ++ cfg.extractLsb' 0 7 : BitVec 8)
      effects := s.effects ++ [.reg .ufmt 0x7F (cfg &&& 0x7F)] }
    ∧ issue (.orderWr cfg) s = { s with
      ugcr := (s.ugcr.extractLsb' 6 2 ++ cfg.extractLsb' 7 1 ++ s.ugcr.extractLsb' 0 5 : BitVec 8)
      effects := s.effects ++ [.reg .ugcr 0x20 ((cfg >>> 7) <<< 5)] }
    ∧ issue .prioWr s = { s with
      prio := s.par.uartIrqPrio
      effects := s.effects ++ [.irq .prio s.par.uartIrqPrio] }

/-- R115 with R65 and U11: SET_MODE completes in every state with `SEQ = Idle`, before or after INIT and whatever
`TXSTATE` is, with exactly this next state; everything not named, all of memory among it, is unchanged. -/
def Obligations.SetModeCompletes : Prop :=
  ∀ (s : State) (cfg : Byte), s.seq = .idle →
    exec (.setMode cfg) s = .next { s with
      opCfg := cfg
      stored := 0
      ufmt := (s.ufmt.extractLsb' 7 1 ++ cfg.extractLsb' 0 7 : BitVec 8)
      ugcr := (s.ugcr.extractLsb' 6 2 ++ cfg.extractLsb' 7 1 ++ s.ugcr.extractLsb' 0 5 : BitVec 8)
      prio := s.par.uartIrqPrio
      effects := s.effects ++ [.reg .ufmt 0x7F (cfg &&& 0x7F), .reg .ugcr 0x20 ((cfg >>> 7) <<< 5),
        .irq .prio s.par.uartIrqPrio]
      undef := if s.powered then s.undef else insertUndef .u11 s.undef }

/-- R120: (a) a second SET_MODE of the same byte changes nothing but the trace; (b) afterwards `{UGCR.ORDER, UFMT[6:0]}`
is the byte; (c) after INIT read-back of `UFMT` and `UGCR` gives the preset's fields and `BAUD_E`. -/
def Obligations.SetModeIsIdempotent : Prop :=
  (∀ (s : State) (cfg : Byte), s.seq = .idle →
    ∃ t, exec (.setMode cfg) s = .next t ∧ t.format = cfg
      ∧ exec (.setMode cfg) t = .next { t with
          effects := t.effects ++ [.reg .ufmt 0x7F (cfg &&& 0x7F), .reg .ugcr 0x20 ((cfg >>> 7) <<< 5),
            .irq .prio s.par.uartIrqPrio] })
  ∧ ∀ s : State, s.seq = .idle →
    ∃ t a b, exec .init s = .next t ∧ exec (.rdReg 0) t = .next a ∧ exec (.rdReg 1) t = .next b
      ∧ a.rdata = 0x80 ||| ((if s.par.pInverted then 0x3D else 0x1E) &&& 0x7F)
      ∧ b.rdata = (((if s.par.pInverted then 0x3D else 0x1E) >>> 7) <<< 5) ||| s.par.baudE.zeroExtend 8

/-- R69: the formats the two presets leave are complements on start polarity, stop polarity and parity sense and equal on
every other field, whatever the state was. -/
def Obligations.PresetsDifferInThreeFields : Prop :=
  ∀ s : State, s.seq = .idle →
    ∃ a b, exec (.setMode presetStandard) s = .next a ∧ exec (.setMode presetInverted) s = .next b
      ∧ startPol b.format = !startPol a.format ∧ stopPol b.format = !stopPol a.format
      ∧ parOdd b.format = !parOdd a.format
      ∧ stop2 b.format = stop2 a.format ∧ parEn b.format = parEn a.format ∧ nine b.format = nine a.format
      ∧ flowEn b.format = flowEn a.format ∧ order b.format = order a.format
      ∧ a.format ^^^ b.format = 0x23

/-! ### INIT -/

/-- R100 (steps 1 to 5, the end): INIT completes in every state with `SEQ = Idle`, and what it leaves in the registers. -/
def Obligations.InitCompletes : Prop :=
  ∀ s : State, s.seq = .idle →
    ∃ t, exec .init s = .next t ∧ t.seq = .idle ∧ t.initDone = true
      ∧ t.ufmt = 0x80 ||| (if s.par.pInverted then 0x3D else 0x1E)
      ∧ t.ugcr = (s.ugcr.extractLsb' 6 2 ++ 0#1 ++ s.par.baudE : BitVec 8)
      ∧ t.ubaud = s.par.baudM ∧ t.prio = s.par.uartIrqPrio
      ∧ (∀ i : Fin 2, t.pmLoc.getLsbD i = if i = selInst s.par then selLoc s.par else s.pmLoc.getLsbD i)
      ∧ (∀ p : Fin 8, t.pmFunc.getLsbD p
          = (decide (p = txPin s.par) || (decide (p = rxPin s.par) && s.par.pTelemetryRx) || s.pmFunc.getLsbD p))
      ∧ (∀ p : Fin 8, t.pmDir.getLsbD p = (decide (p = txPin s.par) || s.pmDir.getLsbD p))
      ∧ t.dmaSlot = s.par.descAddr ∧ t.arm = true ∧ t.loadPending = false

/-- R100, R150: with the table installed the channel has latched the descriptor INIT wrote, and nothing but the record of
a second INIT (U5) or of no power (U11) has joined `UNDEF`. -/
def Obligations.InitLatchesItsDescriptor : Prop :=
  ∀ s : State, s.seq = .idle → s.dmaTableValid = true →
    ∃ t, exec .init s = .next t ∧ t.wSrc = 0 ∧ t.wCnt = 0 ∧ t.wDst = udbufAddr s.par ∧ t.wCtl = blockCtl s.par
      ∧ t.latching = none ∧ t.free = s.free
      ∧ (s.initDone = false → s.powered = true → t.undef = s.undef)

/-- R107, R74: the eight descriptor bytes INIT stores, and every other byte of memory unchanged. That they are plain bytes of
memory also where the data register's address is one of theirs is the model's choice (log 31). -/
def Obligations.InitWritesDescriptorOnly : Prop :=
  ∀ s : State, s.seq = .idle →
    ∃ t, exec .init s = .next t
      ∧ t.mem.read s.par.descAddr = 0 ∧ t.mem.read (s.par.descAddr + 1) = 0
      ∧ t.mem.read (s.par.descAddr + 2) = (udbufAddr s.par).extractLsb' 8 8
      ∧ t.mem.read (s.par.descAddr + 3) = (udbufAddr s.par).extractLsb' 0 8
      ∧ t.mem.read (s.par.descAddr + 4) = 0 ∧ t.mem.read (s.par.descAddr + 5) = 0
      ∧ t.mem.read (s.par.descAddr + 6) = (trigUtx s.par).zeroExtend 8
      ∧ t.mem.read (s.par.descAddr + 7) = 0x40
      ∧ ∀ a : Addr, (∀ k : Fin 8, a ≠ s.par.descAddr + BitVec.ofNat 16 k) → t.mem.read a = s.mem.read a

/-- R111 to R114, R240: with telemetry off INIT leaves `UCSR`, `RX_IF`, `RX_IE` and `GIE` as they were; with telemetry on
the receiver, its interrupt and the global enable are set and the flag is clear, in the order flag, receiver, enables. -/
def Obligations.InitTelemetry : Prop :=
  ∀ s : State, s.seq = .idle →
    ∃ t, exec .init s = .next t
      ∧ (s.par.pTelemetryRx = false → t.ucsr = s.ucsr ∧ t.rxIf = s.rxIf ∧ t.rxIe = s.rxIe ∧ t.gie = s.gie)
      ∧ (s.par.pTelemetryRx = true → t.ucsr = s.ucsr ||| 0x40 ∧ t.rxIf = false ∧ t.rxIe = true ∧ t.gie = true
        ∧ ∃ es : List Effect,
          t.effects = es ++ [.irq .rxIf 0, .reg .ucsr 0x40 0x40, .irq .rxIe 1, .irq .gie 1])

/-- R100, R101 to R110, 95_test_vectors.md 2.4: the events of INIT, in order. -/
def Obligations.InitEffects : Prop :=
  ∀ s : State, s.seq = .idle →
    ∃ t, exec .init s = .next t
      ∧ t.effects = s.effects
        ++ ([.pmLoc (selInst s.par) (selLoc s.par), .pmFunc (txPin s.par) true] : List Effect)
        ++ (if s.par.pTelemetryRx then ([.pmFunc (rxPin s.par) true] : List Effect) else [])
        ++ ([.pmDir (txPin s.par) true, .reg .ufmt 0x80 0x80, .reg .ubaud 0xFF s.par.baudM,
          .reg .ugcr 0x1F (s.par.baudE.zeroExtend 8), .reg .ufmt 0x7F (if s.par.pInverted then 0x3D else 0x1E),
          .reg .ugcr 0x20 0x00, .irq .prio s.par.uartIrqPrio,
          .mem s.par.descAddr 0, .mem (s.par.descAddr + 1) 0,
          .mem (s.par.descAddr + 2) ((udbufAddr s.par).extractLsb' 8 8),
          .mem (s.par.descAddr + 3) ((udbufAddr s.par).extractLsb' 0 8),
          .mem (s.par.descAddr + 4) 0, .mem (s.par.descAddr + 5) 0,
          .mem (s.par.descAddr + 6) ((trigUtx s.par).zeroExtend 8), .mem (s.par.descAddr + 7) 0x40,
          .slot s.par.descAddr, .arm, .settle s.par.settleCycles] : List Effect)
        ++ (if s.par.pTelemetryRx then
          ([.irq .rxIf 0, .reg .ucsr 0x40 0x40, .irq .rxIe 1, .irq .gie 1] : List Effect) else [])

/-- R100, R138: what INIT leaves unchanged: the latches, the received byte, the transmitter, `TXSTATE`, the wire, the
table's ghost, power, the parameters and what is still to come. -/
def Obligations.InitFrame : Prop :=
  ∀ s : State, s.seq = .idle →
    ∃ t, exec .init s = .next t
      ∧ t.opCfg = s.opCfg ∧ t.opBuf = s.opBuf ∧ t.opLen = s.opLen ∧ t.opReg = s.opReg ∧ t.rdata = s.rdata
      ∧ t.rxdata = s.rxdata ∧ t.txBusy = s.txBusy ∧ t.txShift = s.txShift ∧ t.txFmt = s.txFmt
      ∧ t.txState = s.txState ∧ t.wire = s.wire ∧ t.dmaTableValid = s.dmaTableValid ∧ t.powered = s.powered
      ∧ t.storage = s.storage ∧ t.stored = 0 ∧ t.par = s.par ∧ t.script = s.script
      ∧ t.ucsr &&& 0xBF = s.ucsr &&& 0xBF ∧ s.undef ⊆ t.undef

/-! ### START_TX -/

namespace Sys2Proof.Machine

/-- The memory after START_TX's stores t1 and t2: source and length of the descriptor (R131, R132). -/
def startTxMem (s : State) (buf : Addr) (len : Count) : Memory :=
  Memory.writeList (Memory.writeList s.mem s.par.descAddr [(buf + 1).extractLsb' 8 8, (buf + 1).extractLsb' 0 8])
    (s.par.descAddr + 4) [(0#3 ++ len.extractLsb' 8 5 : BitVec 8), len.extractLsb' 0 8]

end Sys2Proof.Machine

/-- R130 to R135 under the preconditions of R137: with INIT's work in place (table, slot, the descriptor's fixed fields,
`MODE_EN`), the line free and flow control off, START_TX completes with exactly this next state. The premises leave open a
data register's address among the descriptor's: what the stores do there is the model's choice (log 31). -/
def Obligations.StartTxCompletes : Prop :=
  ∀ (s : State) (buf : Addr) (len : Count),
    s.par.wf = true → s.seq = .idle → s.initDone = true → s.powered = true → s.txState = .idle → s.txBusy = false → len ≠ 0 →
    bufferValid s.par s.storage buf len = true → s.dmaTableValid = true → s.dmaSlot = s.par.descAddr → s.descFixed →
    s.modeEn = true → flowEn s.format = false →
    exec (.startTx buf len) s = .next { s with
      opBuf := buf
      opLen := len
      stored := 0
      mem := startTxMem s buf len
      effects := s.effects ++ [.mem s.par.descAddr ((buf + 1).extractLsb' 8 8),
        .mem (s.par.descAddr + 1) ((buf + 1).extractLsb' 0 8),
        .mem (s.par.descAddr + 4) (0#3 ++ len.extractLsb' 8 5 : BitVec 8),
        .mem (s.par.descAddr + 5) (len.extractLsb' 0 8), .arm, .settle s.par.settleCycles, .txd (s.mem.read buf)]
      arm := true
      loadPending := false
      latching := none
      wSrc := buf + 1
      wDst := udbufAddr s.par
      wCnt := len
      wCtl := blockCtl s.par
      txBusy := true
      txShift := s.mem.read buf
      txFmt := s.format
      txState := .transmitting }

/-- R130, R137: there is no busy check and no guard: in every state with `SEQ = Idle` and for all operands START_TX issues
its uops and leaves the channel armed and latched, a byte in the transmitter, `TXSTATE = Transmitting`. -/
def Obligations.StartTxAlwaysIssues : Prop :=
  ∀ (s : State) (buf : Addr) (len : Count), s.seq = .idle →
    ∃ t b, exec (.startTx buf len) s = .next t ∧ t.seq = .idle ∧ t.opBuf = buf ∧ t.opLen = len
      ∧ t.arm = true ∧ t.loadPending = false ∧ t.txBusy = true ∧ t.txState = .transmitting
      ∧ b = t.mem.read buf
      ∧ t.effects = s.effects ++ [.mem s.par.descAddr ((buf + 1).extractLsb' 8 8),
        .mem (s.par.descAddr + 1) ((buf + 1).extractLsb' 0 8),
        .mem (s.par.descAddr + 4) (0#3 ++ len.extractLsb' 8 5 : BitVec 8),
        .mem (s.par.descAddr + 5) (len.extractLsb' 0 8), .arm, .settle s.par.settleCycles, .txd b]
      ∧ (s.dmaTableValid = true → s.dmaSlot = s.par.descAddr → t.wSrc = buf + 1 ∧ t.wCnt = len)
      ∧ (s.txBusy = false → t.txShift = b ∧ t.txFmt = s.format)

/-- R131, R132, R136: START_TX stores the four bytes of source and length, big-endian, and every other byte of memory is
unchanged, the descriptor's bytes 2, 3, 6 and 7 among them. At the data register's address this is log 31. -/
def Obligations.StartTxStores : Prop :=
  ∀ (s : State) (buf : Addr) (len : Count), s.seq = .idle →
    ∃ t, exec (.startTx buf len) s = .next t
      ∧ t.mem.read s.par.descAddr = (buf + 1).extractLsb' 8 8
      ∧ t.mem.read (s.par.descAddr + 1) = (buf + 1).extractLsb' 0 8
      ∧ t.mem.read (s.par.descAddr + 4) = (0#3 ++ len.extractLsb' 8 5 : BitVec 8)
      ∧ t.mem.read (s.par.descAddr + 5) = len.extractLsb' 0 8
      ∧ ∀ a : Addr, a ≠ s.par.descAddr → a ≠ s.par.descAddr + 1 → a ≠ s.par.descAddr + 4 → a ≠ s.par.descAddr + 5 →
          t.mem.read a = s.mem.read a

/-- R130, R213: what START_TX leaves unchanged, in every state and for all operands. -/
def Obligations.StartTxFrame : Prop :=
  ∀ (s : State) (buf : Addr) (len : Count), s.seq = .idle →
    ∃ t, exec (.startTx buf len) s = .next t
      ∧ t.opCfg = s.opCfg ∧ t.opReg = s.opReg ∧ t.rdata = s.rdata ∧ t.ufmt = s.ufmt ∧ t.ugcr = s.ugcr
      ∧ t.ubaud = s.ubaud ∧ t.ucsr = s.ucsr ∧ t.rxdata = s.rxdata ∧ t.rxIf = s.rxIf ∧ t.rxIe = s.rxIe
      ∧ t.gie = s.gie ∧ t.prio = s.prio ∧ t.pmLoc = s.pmLoc ∧ t.pmFunc = s.pmFunc ∧ t.pmDir = s.pmDir
      ∧ t.dmaTableValid = s.dmaTableValid ∧ t.dmaSlot = s.dmaSlot ∧ t.initDone = s.initDone
      ∧ t.powered = s.powered ∧ t.storage = s.storage ∧ t.stored = 0 ∧ t.latching = none ∧ t.wire = s.wire
      ∧ t.par = s.par ∧ t.script = s.script ∧ s.undef ⊆ t.undef

/-- R100, R137, R215: each broken precondition that the state shows adds its reason to `UNDEF`, and the command goes on.
U3 is stated over the buffer's addresses as natural numbers: past 2^16, over the descriptor, over the data register (R46), or
in no one piece of the caller's storage (R137 (f), R238; log 17 for how the state shows the storage). -/
def Obligations.BrokenPreconditionsAreRecorded : Prop :=
  (∀ (s : State) (buf : Addr) (len : Count), s.seq = .idle →
    ∃ t, exec (.startTx buf len) s = .next t
      ∧ (s.initDone = false → .u4 ∈ t.undef) ∧ (s.txState ≠ .idle → .u1 ∈ t.undef) ∧ (len = 0 → .u2 ∈ t.undef)
      ∧ ((0xFFFF < buf.toNat + len.toNat
          ∨ (∃ k ≤ len.toNat, ∃ j < 8, buf.toNat + k = s.par.descAddr.toNat + j)
          ∨ (∃ k ≤ len.toNat, buf.toNat + k = (udbufAddr s.par).toNat)
          ∨ ∀ r ∈ s.storage, ¬(r.base.toNat ≤ buf.toNat ∧ buf.toNat + len.toNat < r.base.toNat + r.size))
          → .u3 ∈ t.undef)
      ∧ (s.powered = false → .u11 ∈ t.undef) ∧ (s.txBusy = true → .u13 ∈ t.undef)
      ∧ (s.modeEn = false → .u23 ∈ t.undef) ∧ (flowEn s.format = true → .u15 ∈ t.undef)
      ∧ (s.dmaTableValid = false → .u9 ∈ t.undef))
  ∧ (∀ s : State, s.seq = .idle →
    ∃ t, exec .init s = .next t
      ∧ (s.initDone = true → .u5 ∈ t.undef) ∧ (s.dmaTableValid = false → .u9 ∈ t.undef)
      ∧ (s.powered = false → .u11 ∈ t.undef))
  ∧ ∀ (s : State) (r : BitVec 4) (v : Byte), s.seq = .idle → s.powered = false → s.regval r = some v →
    ∃ t, exec (.rdReg r) s = .next t ∧ .u11 ∈ t.undef

/-- R136, R152 to R158, R169: from a START_TX whose preconditions hold, the `len + 1` frame ends that follow put exactly
the bytes `buf .. buf+len` on the wire in that order, each framed with the format in force, and leave the channel disarmed,
the count 0, the source after the buffer, the transmitter free and `TXSTATE = Idle`. The script is empty, so the steps come
in the order of log 8; FairRunsDeliverTheBuffer is over every order. -/
def Obligations.TransferDeliversTheBuffer : Prop :=
  ∀ (s : State) (buf : Addr) (len : Count),
    s.par.wf = true → s.seq = .idle → s.script = [] → s.initDone = true → s.powered = true → s.txState = .idle →
    s.txBusy = false → len ≠ 0 → bufferValid s.par s.storage buf len = true → s.dmaTableValid = true →
    s.dmaSlot = s.par.descAddr → s.descFixed → s.modeEn = true → flowEn s.format = false →
    ∃ t u, exec (.startTx buf len) s = .next t ∧ core.run (len.toNat + 1) t = .next u
      ∧ u.wire = s.wire ++ (List.range (len.toNat + 1)).map (fun k =>
          (s.mem.read (buf + BitVec.ofNat 16 k), frame s.format (s.mem.read (buf + BitVec.ofNat 16 k))))
      ∧ u.arm = false ∧ u.wCnt = 0 ∧ u.wSrc = buf + BitVec.ofNat 16 (len.toNat + 1) ∧ u.txBusy = false
      ∧ u.txState = .idle ∧ u.seq = .idle ∧ u.undef = s.undef ∧ u.effects = t.effects ∧ u.mem = t.mem

/-! ### RD_REG -/

/-- R180, R181: RD_REG of each readable index completes in every state with `SEQ = Idle`; `RDATA` is the register, its
fields where the map puts them and zeros between, and nothing else changes but the operand latch (and U11). -/
def Obligations.RdRegCompletes : Prop :=
  ∀ (s : State) (r : BitVec 4) (v : Byte), s.seq = .idle →
    (r, v) ∈ ([(0, s.ufmt), (1, (0#2 ++ s.ugcr.extractLsb' 0 6 : BitVec 8)), (2, s.ubaud),
      (3, (0#1 ++ s.ucsr.extractLsb' 6 1 ++ 0#6 : BitVec 8)),
      (5, (BitVec.ofBool s.gie ++ BitVec.ofBool s.rxIe ++ BitVec.ofBool s.rxIf ++ 0#3 ++ s.prio : BitVec 8)),
      (6, if s.arm then 1 else 0), (7, s.dmaSlot.extractLsb' 8 8), (8, s.dmaSlot.extractLsb' 0 8),
      (9, s.pmLoc.zeroExtend 8), (10, s.pmFunc), (11, s.pmDir)] : List (BitVec 4 × Byte)) →
    exec (.rdReg r) s = .next { s with
      opReg := r
      stored := 0
      rdata := v
      undef := if s.powered then s.undef else insertUndef .u11 s.undef }

/-- R182: index 4 and indices 12 to 15 are refused when run whole; no value is returned. That they are refused at acceptance
already is the model's choice (log 23). -/
def Obligations.RefusedIndices : Prop :=
  ∀ (s : State) (r : BitVec 4), s.seq = .idle → r = 4 ∨ 12 ≤ r.toNat →
    exec (.rdReg r) s = .refused .reservedReadIndex ∧ acceptCommand (.rdReg r) s = .refused .reservedReadIndex

/-! ### The channel, the transmitter and the wire format -/

/-- R150: a pending LATCH reads the eight descriptor bytes at `DMA_SLOT`, ascending, into the working registers; U22 joins
`UNDEF` exactly when control fields or destination are not the block's; nothing else changes. Without `LOAD_PENDING` it is
not enabled, which the model shows as a fault (log 9). That addresses past `0xFFFF` wrap is log 34. A LATCH that has begun is
LatchReadsByteByByte's. -/
def Obligations.LatchReadsDescriptor : Prop :=
  ∀ (s : State) (ms : List Move), s.script = .latch :: ms → s.latching = none →
    (s.loadPending = false → step s = .fault .stepNotEnabled)
    ∧ (s.loadPending = true → s.dmaTableValid = true →
      ∃ t, step s = .next t
        ∧ t.wSrc = (s.mem.read s.dmaSlot ++ s.mem.read (s.dmaSlot + 1) : BitVec 16)
        ∧ t.wDst = (s.mem.read (s.dmaSlot + 2) ++ s.mem.read (s.dmaSlot + 3) : BitVec 16)
        ∧ t.wCnt = ((s.mem.read (s.dmaSlot + 4)).extractLsb' 0 5 ++ s.mem.read (s.dmaSlot + 5) : BitVec 13)
        ∧ t.wCtl.vlen = (s.mem.read (s.dmaSlot + 4)).extractLsb' 5 3
        ∧ descByte6 t.wCtl = s.mem.read (s.dmaSlot + 6) ∧ descByte7 t.wCtl = s.mem.read (s.dmaSlot + 7)
        ∧ t = { s with
            wSrc := t.wSrc
            wDst := t.wDst
            wCnt := t.wCnt
            wCtl := t.wCtl
            loadPending := false
            script := ms
            undef := if t.wCtl = blockCtl s.par ∧ t.wDst = udbufAddr s.par then s.undef
              else insertUndef .u22 s.undef })
    ∧ (s.loadPending = true → s.dmaTableValid = false → ∃ t, step s = .next t ∧ .u9 ∈ t.undef)

/-- R44, R150: the eight reads of a LATCH one at a time, so that another agent's store can come between them: each of the
first seven takes the byte `MEM` then holds at the place fixed with the first, and changes nothing else; the eighth loads the
working registers with the eight bytes taken, and U22 joins `UNDEF` exactly when the control fields or the destination among
those bytes are not the block's, as after a foreign store between two reads. Not enabled without `LOAD_PENDING` (log 9); how the reads stand in the state
is log 32, that addresses past `0xFFFF` wrap log 34. A LATCH whose reads are made one move each, nothing between, ends as the LATCH made at once, also one that has
begun and also with no table installed (log 12). -/
def Obligations.LatchReadsByteByByte : Prop :=
  (∀ (s : State) (ms : List Move), s.script = .latchByte :: ms →
    (s.loadPending = false → step s = .fault .stepNotEnabled)
    ∧ (s.loadPending = true → s.latching = none → s.dmaTableValid = true →
      step s = .next { s with latching := some ⟨some s.dmaSlot, [s.mem.read s.dmaSlot]⟩, script := ms })
    ∧ (∀ a bs, s.loadPending = true → s.latching = some ⟨some a, bs⟩ → bs.length < 7 →
      step s = .next { s with
        latching := some ⟨some a, bs ++ [s.mem.read (a + BitVec.ofNat 16 bs.length)]⟩
        script := ms })
    ∧ ∀ a d0 d1 d2 d3 d4 d5 d6, s.loadPending = true → s.latching = some ⟨some a, [d0, d1, d2, d3, d4, d5, d6]⟩ →
      step s = .next { s with
          wSrc := (d0 ++ d1 : BitVec 16)
          wDst := (d2 ++ d3 : BitVec 16)
          wCnt := (d4.extractLsb' 0 5 ++ d5 : BitVec 13)
          wCtl := ctlOfBytes d4 d6 (s.mem.read (a + 7))
          loadPending := false
          latching := none
          undef := if ctlOfBytes d4 d6 (s.mem.read (a + 7)) = blockCtl s.par ∧ (d2 ++ d3 : BitVec 16) = udbufAddr s.par
            then s.undef else insertUndef .u22 s.undef
          script := ms })
  ∧ ∀ (s : State) (ms : List Move), s.loadPending = true → s.latchCount < 8 →
    s.script = List.replicate (8 - s.latchCount) .latchByte ++ ms →
    core.run (8 - s.latchCount) s = step { s with script := .latch :: ms }

/-- R109, R133: ARM schedules a fresh latch whatever `ARM` was, also over one that is pending (that its reads start again is
log 32); START_TX's also moves `TXSTATE`. -/
def Obligations.ArmSchedulesLatch : Prop :=
  ∀ s : State,
    issue .arm s = { s with arm := true, loadPending := true, latching := none, effects := s.effects ++ [.arm] }
    ∧ ∃ us, issue .armTx s
        = { s with
            arm := true, loadPending := true, latching := none, effects := s.effects ++ [.arm], txState := .armed, undef := us }
      ∧ (s.txState = .idle → us = s.undef) ∧ (s.txState ≠ .idle → .u1 ∈ us ∧ s.undef ⊆ us)

/-- R110, R48 (3): where SETTLE is next and the latch is pending, SETTLE is not enabled (a `uop` move then ends in a fault,
log 9) and the step that comes of itself is the LATCH (log 8); once it is not pending SETTLE completes: its event joins
`EFFECTS`, `SEQ` moves on, and it touches nothing else. -/
def Obligations.SettleWaitsForLatch : Prop :=
  ∀ (s : State) (ms : List Move) (c : Cmd) (k : Nat), s.seq = .run c (k + 1) → (uopsOf s c)[k]? = some .settle →
    (s.loadPending = true → s.script = .uop :: ms → step s = .fault .stepNotEnabled)
    ∧ (s.loadPending = true → s.script = [] → step s = .next s.latch)
    ∧ (s.loadPending = false → (s.script = [] ∧ ms = [] ∨ s.script = .uop :: ms) →
      step s = .next { s with
        effects := s.effects ++ [.settle s.par.settleCycles]
        seq := if k + 1 = (uopsOf s c).length then .idle else .run c (k + 2)
        initDone := s.initDone || (decide (c = .init) && decide (k + 1 = (uopsOf s c).length))
        script := ms })

/-- R151 to R153, R156: the end of a frame on an armed, latched channel with bytes left is one atomic step: the frame
joins `WIRE`, the next byte is read now and its frame starts with the format now in force, source and count move by one,
`ARM` falls with the last byte. R155, R164: the write of `UDBUF` through the DMA port records U23 exactly with `MODE_EN = 0`
and U15 exactly with flow control, as the host port's does, and the frame is sent all the same (log 10). -/
def Obligations.FrameEndTransfersOneByte : Prop :=
  ∀ (s : State) (ms : List Move), s.script = .frameEnd :: ms → s.txBusy = true → s.arm = true → s.loadPending = false →
    s.wCnt ≠ 0 →
    ∃ us, step s = .next { s with
      wire := s.wire ++ [(s.txShift, frame s.txFmt s.txShift)]
      txShift := s.mem.read s.wSrc
      txFmt := (s.ugcr.extractLsb' 5 1 ++ s.ufmt.extractLsb' 0 7 : BitVec 8)
      wSrc := s.wSrc + 1
      wCnt := s.wCnt - 1
      arm := decide (s.wCnt ≠ 1)
      undef := us
      script := ms }
    ∧ (s.modeEn = true → s.ufmt.getLsbD 6 = false → us = s.undef)
    ∧ (∀ u, u ∈ us ↔ u ∈ s.undef ∨ (u = .u23 ∧ s.modeEn = false) ∨ (u = .u15 ∧ s.ufmt.getLsbD 6 = true))

/-- R154 (a), R156, R158: the end of a frame with `ARM = 0` moves no byte and ends the transmission; with no frame on the
wire FRAME_END is not enabled, which the model shows as a fault (log 9). -/
def Obligations.FrameEndEndsTransmission : Prop :=
  ∀ (s : State) (ms : List Move), s.script = .frameEnd :: ms →
    (s.txBusy = true → s.arm = false →
      step s = .next { s with
        wire := s.wire ++ [(s.txShift, frame s.txFmt s.txShift)]
        txBusy := false
        txState := if s.txState = .transmitting then .idle else s.txState
        script := ms })
    ∧ (s.txBusy = false → step s = .fault .stepNotEnabled)

/-- R154 (b), (c): a trigger before the latch is U8, a trigger on a channel armed with a count of 0 is U10; the frame that
ended has joined `WIRE` all the same and the machine goes on. -/
def Obligations.UntimelyTriggersAreRecorded : Prop :=
  ∀ (s : State) (ms : List Move), s.script = .frameEnd :: ms → s.txBusy = true → s.arm = true →
    ∃ t, step s = .next t ∧ t.wire = s.wire ++ [(s.txShift, frame s.txFmt s.txShift)] ∧ t.mem = s.mem
      ∧ t.effects = s.effects
      ∧ (s.loadPending = true → .u8 ∈ t.undef) ∧ (s.loadPending = false → s.wCnt = 0 → .u10 ∈ t.undef)

/-- R135, R155, R164: the host-port write of `UDBUF`: what it records, and on a free transmitter the byte and the format
sampled now. -/
def Obligations.FirstByteStartsTheFrame : Prop :=
  ∀ s : State,
    (issue .txd s).txBusy = true ∧ (issue .txd s).txState = .transmitting
    ∧ (issue .txd s).effects = s.effects ++ [.txd (s.mem.read s.opBuf)]
    ∧ (.u13 ∈ (issue .txd s).undef ↔ s.txBusy = true ∨ .u13 ∈ s.undef)
    ∧ (.u23 ∈ (issue .txd s).undef ↔ s.modeEn = false ∨ .u23 ∈ s.undef)
    ∧ (.u15 ∈ (issue .txd s).undef ↔ s.ufmt.getLsbD 6 = true ∨ .u15 ∈ s.undef)
    ∧ (s.txBusy = false → (issue .txd s).txShift = s.mem.read s.opBuf
      ∧ (issue .txd s).txFmt = (s.ugcr.extractLsb' 5 1 ++ s.ufmt.extractLsb' 0 7 : BitVec 8)
      ∧ (issue .txd s).free = s.free)
    ∧ (issue .txd s).mem = s.mem ∧ (issue .txd s).arm = s.arm ∧ (issue .txd s).wCnt = s.wCnt
    ∧ (issue .txd s).wSrc = s.wSrc ∧ (issue .txd s).wire = s.wire

/-- R160: the frame bit time by bit time: its length, start bit, data bits in the order `ORDER` says, ninth bit, stop bits. -/
def Obligations.FrameShape : Prop :=
  ∀ f b : Byte,
    (frame f b).length = 10 + (if f.getLsbD 4 then 1 else 0) + (if f.getLsbD 2 then 1 else 0)
    ∧ (frame f b)[0]? = some (f.getLsbD 0)
    ∧ (∀ k : Fin 8, (frame f b)[1 + k.val]? = some (b.getLsbD (if f.getLsbD 7 then 7 - k.val else k.val)))
    ∧ (f.getLsbD 4 = true → (frame f b)[9]? = some (if f.getLsbD 3 then parity f b else f.getLsbD 5))
    ∧ (∀ k, (9 + (if f.getLsbD 4 then 1 else 0)) ≤ k → k < (frame f b).length → (frame f b)[k]? = some (f.getLsbD 1))

/-- R161: the parity bit is the exclusive-or of the eight data bits and `PAR_ODD`; so data and parity together hold an even
number of ones for even parity and an odd number for odd parity; bit order does not change it. -/
def Obligations.ParityCountsOnes : Prop :=
  ∀ f b : Byte,
    parity f b = (b.getLsbD 0 ^^ b.getLsbD 1 ^^ b.getLsbD 2 ^^ b.getLsbD 3 ^^ b.getLsbD 4 ^^ b.getLsbD 5 ^^ b.getLsbD 6
      ^^ b.getLsbD 7 ^^ f.getLsbD 5)
    ∧ (dataBits f b ++ [parity f b]).count true % 2 = (if f.getLsbD 5 then 1 else 0)
    ∧ parity (f ^^^ 0x80) b = parity f b

/-- R163: under the inverted preset the complemented byte gives the complement of every level of the standard frame. -/
def Obligations.InvertedFrameIsComplement : Prop :=
  ∀ b : Byte, frame presetInverted (~~~b) = (frame presetStandard b).map (fun l => !l)

/-- R162: once the mode is enabled and INIT has selected the pin, the line between frames is at the current stop level and
during a frame at the level of its bit time, whatever the pin-mux elements hold and at every look (log 22). INIT has selected
the pin once it is done, and not before its first uop. -/
def Obligations.LineFollowsFrameOrStopLevel : Prop :=
  (∀ (s : State) (look : Nat), s.modeEn = true → s.pinSelected = true →
    (s.txBusy = false → ∀ k, s.lineLevel look k = some (s.ufmt.getLsbD 1))
    ∧ (s.txBusy = true → ∀ k < (frame s.txFmt s.txShift).length,
      s.lineLevel look k = (frame s.txFmt s.txShift)[k]?))
  ∧ ∀ s : State, (s.initDone = true → s.pinSelected = true)
    ∧ (s.initDone = false → (s.seq = .idle ∨ s.seq = .run .init 1 ∨ ∃ c k, c ≠ .init ∧ s.seq = .run c k) →
      s.pinSelected = false)

/-! ### The receiver and the environment -/

/-- R165: RX_BYTE is enabled exactly when `RE` and `MODE_EN` are 1 and then sets `RXDATA` and `RX_IF` only. That a move which
is not enabled ends in a fault is the model's choice (log 9). -/
def Obligations.ReceiverDeliversByte : Prop :=
  ∀ (s : State) (r : Byte) (ms : List Move), s.script = .rxByte r :: ms →
    step s = if s.ucsr.getLsbD 6 ∧ s.ufmt.getLsbD 7 then .next { s with rxdata := r, rxIf := true, script := ms }
      else .fault .stepNotEnabled

/-- R166, R203, R205, R206: the handler runs exactly when `RX_IF`, `RX_IE` and `GIE` are 1, between two uops and not inside
one (log 19); it reads `RXDATA` and clears `RX_IF` only, so the interrupt is no longer taken (R207). Not enabled, the move
ends in a fault (log 9). -/
def Obligations.HandlerClearsTheFlag : Prop :=
  ∀ (s : State) (ms : List Move), s.script = .rxHandler :: ms →
    (s.rxIf = true ∧ s.rxIe = true ∧ s.gie = true ∧ s.stored = 0 →
      ∃ t, step s = .next t ∧ t = { s with rxIf := false, script := ms } ∧ s.udbufRead = s.rxdata
        ∧ t.interruptTaken = false)
    ∧ (¬(s.rxIf = true ∧ s.rxIe = true ∧ s.gie = true ∧ s.stored = 0) → step s = .fault .stepNotEnabled)

/-- R167: TABLE_INSTALL makes the table valid and changes nothing else, and no step but a reset undoes it. -/
def Obligations.TableStaysInstalled : Prop :=
  (∀ (s : State) (ms : List Move), s.script = .tableInstall :: ms →
    step s = .next { s with dmaTableValid := true, script := ms })
  ∧ ∀ s s' : State, step s = .next s' → (∀ l ms, s.script ≠ .reset l :: ms) → s.dmaTableValid = true →
    s'.dmaTableValid = true

/-- R168, R53, U7, U12: the caller's store: the byte reads back, every other byte is unchanged, and the reasons recorded are
U12 on a descriptor byte and U7 on a byte of a buffer in flight (log 15). At the data register's address it is a foreign write
of `UDBUF` (log 16, 31): memory stays, U12 is recorded, and a free transmitter takes the byte and the format in force. -/
def Obligations.CallerWriteStoresOneByte : Prop :=
  ∀ (s : State) (a : Addr) (b : Byte) (ms : List Move), s.script = .callerWrite a b :: ms →
    (a ≠ udbufAddr s.par →
      ∃ t, step s = .next t ∧ t.mem.read a = b ∧ (∀ x, x ≠ a → t.mem.read x = s.mem.read x)
        ∧ t = { s with mem := t.mem, undef := t.undef, script := ms }
        ∧ (.u12 ∈ t.undef ↔ isDescByte s.par a = true ∨ .u12 ∈ s.undef)
        ∧ (.u7 ∈ t.undef ↔ s.bufferInFlight a = true ∨ .u7 ∈ s.undef)
        ∧ (isDescByte s.par a = false → s.bufferInFlight a = false → t.undef = s.undef))
    ∧ (a = udbufAddr s.par →
      ∃ t, step s = .next t ∧ .u12 ∈ t.undef ∧ s.undef ⊆ t.undef ∧ t.txBusy = true
        ∧ (s.txBusy = false → t.txShift = b ∧ t.txFmt = s.format ∧ t.free = s.free)
        ∧ (s.txBusy = true → .u13 ∈ t.undef)
        ∧ t = { s with
            txShift := t.txShift
            txFmt := t.txFmt
            txBusy := t.txBusy
            free := t.free
            undef := t.undef
            script := ms })

/-- What the environment writes, and nothing else. R17, R18, R34, R210: an external owner's write changes that element only,
also while a command runs: a write of `RX_IE`, `GIE` or `PRIO` is then U12 (log 20), and no other records anything. R232 step
1, R27: powering the peripheral changes `POWERED` only; a command is then no U11, as SET_MODE shows. R53, R137 (f), R237
(log 17): the caller's storage is the environment's to change, and U7 joins `UNDEF` exactly when a buffer in flight is not in
one piece of the new storage: the operands' `buf .. buf+len` while START_TX runs, after that and until `TXSTATE` is Idle the
descriptor's `buf+1 .. buf+len` (log 15). -/
def Obligations.EnvironmentWritesChangeOneElement : Prop :=
  (∀ (s : State) (ms : List Move) (us : List Undef),
    us = (if s.seq = .idle then s.undef else insertUndef .u12 s.undef) →
    (∀ b, s.script = .shared (.rxIe b) :: ms → step s = .next { s with rxIe := b, undef := us, script := ms })
    ∧ (∀ b, s.script = .shared (.gie b) :: ms → step s = .next { s with gie := b, undef := us, script := ms })
    ∧ (∀ v, s.script = .shared (.prio v) :: ms → step s = .next { s with prio := v, undef := us, script := ms })
    ∧ (∀ b, s.script = .shared (.re b) :: ms → step s = .next { s with
        ucsr := (s.ucsr.extractLsb' 7 1 ++ BitVec.ofBool b ++ s.ucsr.extractLsb' 0 6 : BitVec 8), script := ms })
    ∧ (∀ (i : Fin 2) b, s.script = .shared (.pmLoc i b) :: ms → ∃ v, step s = .next { s with pmLoc := v, script := ms }
        ∧ ∀ j : Fin 2, v.getLsbD j = if j = i then b else s.pmLoc.getLsbD j)
    ∧ (∀ (p : Fin 8) b, s.script = .shared (.pmFunc p b) :: ms →
        ∃ v, step s = .next { s with pmFunc := v, script := ms }
          ∧ ∀ q : Fin 8, v.getLsbD q = if q = p then b else s.pmFunc.getLsbD q)
    ∧ (∀ (p : Fin 8) b, s.script = .shared (.pmDir p b) :: ms → ∃ v, step s = .next { s with pmDir := v, script := ms }
        ∧ ∀ q : Fin 8, v.getLsbD q = if q = p then b else s.pmDir.getLsbD q))
  ∧ (∀ (s : State) (ms : List Move), s.script = .powerOn :: ms →
    ∃ t, step s = .next t ∧ t = { s with powered := true, script := ms }
      ∧ (s.seq = .idle → ∀ cfg, ∃ r, exec (.setMode cfg) t = .next r ∧ r.undef = s.undef))
  ∧ ∀ (s : State) (rs : List Region) (ms : List Move), s.script = .storage rs :: ms →
    ∃ us, step s = .next { s with storage := rs, undef := us, script := ms }
      ∧ (∀ u, u ∈ us ↔ u ∈ s.undef ∨ (u = .u7 ∧ ∃ r, s.flight = some r ∧ inStorage rs r.1 r.2 = false))
      ∧ ((∀ r, s.flight = some r → inStorage rs r.1 r.2 = true) → us = s.undef)
      ∧ (∀ k, s.seq = .run .startTx k → s.flight = some (s.opBuf, s.opLen.toNat + 1))
      ∧ ((∀ k, s.seq ≠ .run .startTx k) → s.txState = .idle → s.flight = none)
      ∧ ((∀ k, s.seq ≠ .run .startTx k) → s.txState ≠ .idle →
          s.flight = some ((s.mem.read s.par.descAddr ++ s.mem.read (s.par.descAddr + 1) : BitVec 16),
            ((s.mem.read (s.par.descAddr + 4)).extractLsb' 0 5 ++ s.mem.read (s.par.descAddr + 5) : BitVec 13).toNat))
      ∧ ∀ (lo : Addr) (n : Nat), inStorage rs lo n = true ↔
          ∃ g ∈ rs, g.base.toNat ≤ lo.toNat ∧ lo.toNat + n ≤ g.base.toNat + g.size

/-- R34, R210, R243: a non-owner's write of a register that is not shared is U12 and no fault, and changes that register and
`UNDEF` only; what it writes is used (log 16). A write of 1 to `ARM` schedules a latch (R21), a write of 0 has no effect on it
and is recorded all the same (log 33). Reserved bits of `UGCR` are written 0 (log 27). A write of `UDBUF` starts a frame on a
free transmitter; on a busy one it is U13 too, and the new byte with the format in force replaces the old or is lost (log
14). -/
def Obligations.ForeignWritesAreRecorded : Prop :=
  ∀ (s : State) (ms : List Move) (us : List Undef), us = insertUndef .u12 s.undef →
    (∀ a, s.script = .foreign (.dmaSlot a) :: ms → step s = .next { s with dmaSlot := a, undef := us, script := ms })
    ∧ (s.script = .foreign (.arm true) :: ms → step s = .next { s with
        arm := true, loadPending := true, latching := none, undef := us, script := ms })
    ∧ (s.script = .foreign (.arm false) :: ms → step s = .next { s with undef := us, script := ms })
    ∧ (∀ v, s.script = .foreign (.ufmt v) :: ms → step s = .next { s with ufmt := v, undef := us, script := ms })
    ∧ (∀ v, s.script = .foreign (.ugcr v) :: ms → step s = .next { s with
        ugcr := (0#2 ++ v : BitVec 8), undef := us, script := ms })
    ∧ (∀ v, s.script = .foreign (.ubaud v) :: ms → step s = .next { s with ubaud := v, undef := us, script := ms })
    ∧ (∀ b, s.script = .foreign (.rxIf b) :: ms → step s = .next { s with rxIf := b, undef := us, script := ms })
    ∧ (∀ b, s.script = .foreign (.udbuf b) :: ms → s.txBusy = false → ∃ vs, step s = .next { s with
        txShift := b, txFmt := s.format, txBusy := true, undef := vs, script := ms }
      ∧ ∀ u, u ∈ vs ↔ u ∈ us ∨ (u = .u23 ∧ s.modeEn = false) ∨ (u = .u15 ∧ s.ufmt.getLsbD 6 = true))
    ∧ ∀ b, s.script = .foreign (.udbuf b) :: ms → s.txBusy = true → ∃ sh fm fr vs, step s = .next { s with
        txShift := sh, txFmt := fm, free := fr, undef := vs, script := ms }
      ∧ (sh = b ∧ fm = s.format ∨ sh = s.txShift ∧ fm = s.txFmt)
      ∧ ∀ u, u ∈ vs ↔ u ∈ us ∨ u = .u13 ∨ (u = .u23 ∧ s.modeEn = false) ∨ (u = .u15 ∧ s.ufmt.getLsbD 6 = true)

/-- R230, R231, R33: the reset input abandons the command, the transfer and the frame: control state as the table says,
every element left unspecified at the launch's value (log 21), memory the launch's cells in canonical form (log 5). -/
def Obligations.ResetAbandonsEverything : Prop :=
  ∀ (s : State) (l : Launch) (ms : List Move), s.script = .reset l :: ms →
    ∃ t, step s = .next t
      ∧ (t.seq = .idle ∧ t.stored = 0 ∧ t.arm = false ∧ t.loadPending = false ∧ t.latching = none ∧ t.txBusy = false
        ∧ t.txState = .idle ∧ t.initDone = false ∧ t.dmaTableValid = false ∧ t.effects = [] ∧ t.wire = []
        ∧ t.undef = [] ∧ t.ugcr &&& 0xC0 = 0 ∧ t.ucsr &&& 0xBF = 0)
      ∧ (t.opCfg = l.opCfg ∧ t.opBuf = l.opBuf ∧ t.opLen = l.opLen ∧ t.opReg = l.opReg ∧ t.rdata = l.rdata
        ∧ t.ufmt = l.ufmt ∧ t.ugcr.extractLsb' 0 6 = l.ugcr ∧ t.ubaud = l.ubaud ∧ t.re = l.re ∧ t.rxdata = l.rxdata
        ∧ t.rxIf = l.rxIf ∧ t.rxIe = l.rxIe ∧ t.gie = l.gie ∧ t.prio = l.prio ∧ t.pmLoc = l.pmLoc
        ∧ t.pmFunc = l.pmFunc ∧ t.pmDir = l.pmDir ∧ t.dmaSlot = l.dmaSlot ∧ t.wSrc = l.wSrc ∧ t.wDst = l.wDst
        ∧ t.wCnt = l.wCnt ∧ t.wCtl = l.wCtl ∧ t.txShift = l.txShift ∧ t.txFmt = l.txFmt ∧ t.powered = l.powered
        ∧ t.storage = l.storage ∧ t.mem = Memory.ofCells l.mem ∧ (l.mem.wf = true → ∀ a, t.mem.read a = l.mem.read a))
      ∧ t.par = s.par ∧ t.free = s.free ∧ t.script = ms

/-! ### Memory -/

/-- Log 5, the model's canonical form: memories in it that read alike at every address are equal data. -/
def Obligations.CanonicalMemoryIsExtensional : Prop :=
  ∀ m n : Memory, m.wf = true → n.wf = true → (∀ a : Addr, m.read a = n.read a) → m = n

/-! ### Invariants and rules of the whole machine -/

/-- The form of a state (canonical memory, reserved bits zero as R14, R16 and R76 say, `SEQ` legal as R12 says, what is done of
a uop or of a LATCH short of its end, parameters in range, `UNDEF` a set) is kept by every step. -/
def Obligations.StepKeepsForm : Prop := ∀ s s' : State, s.inv = true → step s = .next s' → s'.inv = true

/-- R33: the control state at reset; and every launch has the form and the handshake, the reset state among them. The
parameters and the values of the unspecified elements are the model's (log 2 to 5) and nothing here says what they are. -/
def Obligations.ResetLeavesTheControlState : Prop :=
  (∀ (p : Params) (l : Launch) (n : Nat) (ms : List Move),
    let s := State.ofLaunch p l n ms
    s.seq = .idle ∧ s.stored = 0 ∧ s.arm = false ∧ s.loadPending = false ∧ s.latching = none ∧ s.txBusy = false
      ∧ s.txState = .idle ∧ s.initDone = false ∧ s.dmaTableValid = false ∧ s.effects = [] ∧ s.wire = [] ∧ s.undef = []
      ∧ s.ugcr.extractLsb' 6 2 = 0 ∧ s.ucsr &&& 0xBF = 0
      ∧ State.reset = State.ofLaunch Params.sample Launch.zero 0 [])
  ∧ (∀ (p : Params) (l : Launch) (n : Nat) (ms : List Move), p.wf = true → Memory.wf l.mem = true →
    (State.ofLaunch p l n ms).inv = true)
  ∧ State.reset.inv = true
  ∧ ∀ (p : Params) (l : Launch) (n : Nat) (ms : List Move), (State.ofLaunch p l n ms).Handshake

/-- R159, R138, R110, R74, R153: while no undefined behaviour has been met, every step keeps the handshake between
sequencer, channel and transmitter. -/
def Obligations.StepKeepsHandshake : Prop :=
  ∀ s s' : State, s.par.wf = true → s.Protected → step s = .next s' → s'.Protected

/-- R154, R159, R171 and the table of 93_implementation_defined.md ("reachable only through"): from a state in which no
undefined behaviour has been met, the first step that meets some never meets an untimely trigger (U8, U10); a collision
(U13) only with U1 or U12, foreign descriptor fields (U22) only with U4, U9 or U12, a disabled transmitter (U23) only with
U4 or U12. -/
def Obligations.HandshakePreventsCollisions : Prop :=
  ∀ s s' : State, s.par.wf = true → s.clean → s.Handshake → step s = .next s' →
    .u8 ∉ s'.undef ∧ .u10 ∉ s'.undef
    ∧ (.u13 ∈ s'.undef → .u1 ∈ s'.undef ∨ .u12 ∈ s'.undef)
    ∧ (.u22 ∈ s'.undef → .u4 ∈ s'.undef ∨ .u9 ∈ s'.undef ∨ .u12 ∈ s'.undef)
    ∧ (.u23 ∈ s'.undef → .u4 ∈ s'.undef ∨ .u12 ∈ s'.undef)

/-- R138, R25: while no undefined behaviour is met, a step of one agent moves `TXSTATE` only Idle to Armed, Armed to
Transmitting, Transmitting to Idle; a command run whole takes the first two at once. -/
def Obligations.TxStateTransitions : Prop :=
  ∀ s s' : State, s.par.wf = true → s.Protected → s'.clean → step s = .next s' → (∀ l ms, s.script ≠ .reset l :: ms) →
    s'.txState = s.txState
    ∨ (s.txState = .idle ∧ s'.txState = .armed) ∨ (s.txState = .armed ∧ s'.txState = .transmitting)
    ∨ (s.txState = .transmitting ∧ s'.txState = .idle)
    ∨ (s.txState = .idle ∧ s'.txState = .transmitting ∧ ∃ w ms buf len, s.script = .command w :: ms
        ∧ decode w = .ok (.startTx buf len))

/-- R30: nothing leaves `UNDEF` but by a reset. -/
def Obligations.UndefIsSticky : Prop :=
  ∀ s s' : State, step s = .next s' → (∀ l ms, s.script ≠ .reset l :: ms) → s.undef ⊆ s'.undef

/-- R6, R10: the build-time parameters are constant over a run. -/
def Obligations.ParametersAreConstant : Prop := ∀ s s' : State, step s = .next s' → s'.par = s.par

/-- R17, R203, R16, R13: the block never clears `GIE`, `RX_IE`, `UCSR.RE` or `UFMT.MODE_EN`: only a reset, an external owner
or a foreign write does. -/
def Obligations.BlockNeverDisables : Prop :=
  ∀ s s' : State, step s = .next s' → (∀ l ms, s.script ≠ .reset l :: ms) → (∀ w ms, s.script ≠ .shared w :: ms) →
    (∀ w ms, s.script ≠ .foreign w :: ms) →
    (s.gie = true → s'.gie = true) ∧ (s.rxIe = true → s'.rxIe = true) ∧ (s.re = true → s'.re = true)
      ∧ (s.modeEn = true → s'.modeEn = true)

/-- R28, R29: both traces only grow, but by a reset; only the sequencer appends to `EFFECTS`, in a step that runs a command or
issues a uop of the one in progress, and only FRAME_END to `WIRE`, one frame at a time. -/
def Obligations.TracesOnlyGrow : Prop :=
  ∀ s s' : State, step s = .next s' → (∀ l ms, s.script ≠ .reset l :: ms) →
    s.effects <+: s'.effects
    ∧ (s'.wire = s.wire ∨ (s.txBusy = true ∧ s'.effects = s.effects
        ∧ s'.wire = s.wire ++ [(s.txShift, frame s.txFmt s.txShift)]))
    ∧ (s'.effects = s.effects ∨ (s.seq = .idle ∧ ∃ w ms, s.script = .command w :: ms)
        ∨ (s.seq ≠ .idle ∧ (s.script = [] ∨ (∃ ms, s.script = .uop :: ms)
          ∨ ∃ w ms, s.script = .command w :: ms ∨ s.script = .present w :: ms)))

/-- R208, R165, R166: what the receiver and its handler change (`RXDATA`, `RX_IF`) does not reach the transmission: a latch, a
frame end and each uop of START_TX, whole or byte by byte, do the same whatever those two hold. -/
def Obligations.ReceptionDoesNotReachTransmission : Prop :=
  ∀ (s s' : State) (r : Byte) (f : Bool) (m : Move) (ms : List Move), s.script = m :: ms →
    (m = .latch ∨ m = .latchByte ∨ m = .frameEnd ∨ ((m = .uop ∨ m = .store) ∧ ∃ k, s.seq = .run .startTx k)) →
    step s = .next s' →
    step { s with rxdata := r, rxIf := f } = .next { s' with rxdata := r, rxIf := f }

/-! ### Eventually: every order of steps, under the progress assumptions of R169 -/

/-- R136, R169, R202: in every run without reset in which no undefined behaviour is met and every agent makes progress, a
START_TX, accepted alone or run whole, is followed by a state in which `WIRE` has gained exactly `len + 1` frames whose bytes are
those that memory held at `buf .. buf+len` when it was accepted, in that order, the channel is disarmed with its count at 0 and
its source after the buffer, the transmitter is free and `TXSTATE = Idle`. And a transfer that has begun completes: from `Armed`
or `Transmitting` the channel comes back to `Idle`, whatever else happens between. That the run meets no undefined behaviour
takes in every precondition of R137, since breaking one is recorded (BrokenPreconditionsAreRecorded). -/
def Obligations.FairRunsDeliverTheBuffer : Prop :=
  ∀ (σ : Nat → State) (m : Nat → Move), IsRun σ m → Progress σ m → (∀ n l, m n ≠ .reset l) → (∀ n, (σ n).clean) →
    (σ 0).par.wf = true → (σ 0).Handshake →
    (∀ (n : Nat) (w : CmdWord) (buf : Addr) (len : Count), (m n = .present w ∨ m n = .command w) →
      decode w = .ok (.startTx buf len) →
      ∃ k, n < k
        ∧ (σ k).wire.map Prod.fst = (σ n).wire.map Prod.fst
          ++ (List.range (len.toNat + 1)).map (fun j => (σ n).mem.read (buf + BitVec.ofNat 16 j))
        ∧ (σ k).arm = false ∧ (σ k).wCnt = 0 ∧ (σ k).wSrc = buf + BitVec.ofNat 16 (len.toNat + 1)
        ∧ (σ k).txBusy = false ∧ (σ k).txState = .idle)
    ∧ ∀ n, (σ n).txState ≠ .idle → ∃ k, n ≤ k ∧ (σ k).txState = .idle
end

