-- ==== Sys2Proof/Laws/State.lean ====
section
/-! SUPPORT. What each shared update leaves alone and what it sets: one lemma per field per update, so that no later proof
unfolds a record update. -/

namespace Sys2Proof.Machine

/-! ### `undefined(U<n>)` -/

@[simp] theorem State.recordIf_seq (c : Bool) (u : Undef) (s : State) : (s.recordIf c u).seq = s.seq := rfl
@[simp] theorem State.recordIf_stored (c : Bool) (u : Undef) (s : State) : (s.recordIf c u).stored = s.stored := rfl
@[simp] theorem State.recordIf_opCfg (c : Bool) (u : Undef) (s : State) : (s.recordIf c u).opCfg = s.opCfg := rfl
@[simp] theorem State.recordIf_opBuf (c : Bool) (u : Undef) (s : State) : (s.recordIf c u).opBuf = s.opBuf := rfl
@[simp] theorem State.recordIf_opLen (c : Bool) (u : Undef) (s : State) : (s.recordIf c u).opLen = s.opLen := rfl
@[simp] theorem State.recordIf_opReg (c : Bool) (u : Undef) (s : State) : (s.recordIf c u).opReg = s.opReg := rfl
@[simp] theorem State.recordIf_rdata (c : Bool) (u : Undef) (s : State) : (s.recordIf c u).rdata = s.rdata := rfl
@[simp] theorem State.recordIf_ufmt (c : Bool) (u : Undef) (s : State) : (s.recordIf c u).ufmt = s.ufmt := rfl
@[simp] theorem State.recordIf_ugcr (c : Bool) (u : Undef) (s : State) : (s.recordIf c u).ugcr = s.ugcr := rfl
@[simp] theorem State.recordIf_ubaud (c : Bool) (u : Undef) (s : State) : (s.recordIf c u).ubaud = s.ubaud := rfl
@[simp] theorem State.recordIf_ucsr (c : Bool) (u : Undef) (s : State) : (s.recordIf c u).ucsr = s.ucsr := rfl
@[simp] theorem State.recordIf_rxdata (c : Bool) (u : Undef) (s : State) : (s.recordIf c u).rxdata = s.rxdata := rfl
@[simp] theorem State.recordIf_rxIf (c : Bool) (u : Undef) (s : State) : (s.recordIf c u).rxIf = s.rxIf := rfl
@[simp] theorem State.recordIf_rxIe (c : Bool) (u : Undef) (s : State) : (s.recordIf c u).rxIe = s.rxIe := rfl
@[simp] theorem State.recordIf_gie (c : Bool) (u : Undef) (s : State) : (s.recordIf c u).gie = s.gie := rfl
@[simp] theorem State.recordIf_prio (c : Bool) (u : Undef) (s : State) : (s.recordIf c u).prio = s.prio := rfl
@[simp] theorem State.recordIf_pmLoc (c : Bool) (u : Undef) (s : State) : (s.recordIf c u).pmLoc = s.pmLoc := rfl
@[simp] theorem State.recordIf_pmFunc (c : Bool) (u : Undef) (s : State) : (s.recordIf c u).pmFunc = s.pmFunc := rfl
@[simp] theorem State.recordIf_pmDir (c : Bool) (u : Undef) (s : State) : (s.recordIf c u).pmDir = s.pmDir := rfl
@[simp] theorem State.recordIf_dmaTableValid (c : Bool) (u : Undef) (s : State) : (s.recordIf c u).dmaTableValid = s.dmaTableValid := rfl
@[simp] theorem State.recordIf_dmaSlot (c : Bool) (u : Undef) (s : State) : (s.recordIf c u).dmaSlot = s.dmaSlot := rfl
@[simp] theorem State.recordIf_arm (c : Bool) (u : Undef) (s : State) : (s.recordIf c u).arm = s.arm := rfl
@[simp] theorem State.recordIf_loadPending (c : Bool) (u : Undef) (s : State) : (s.recordIf c u).loadPending = s.loadPending := rfl
@[simp] theorem State.recordIf_latching (c : Bool) (u : Undef) (s : State) : (s.recordIf c u).latching = s.latching := rfl
@[simp] theorem State.recordIf_wSrc (c : Bool) (u : Undef) (s : State) : (s.recordIf c u).wSrc = s.wSrc := rfl
@[simp] theorem State.recordIf_wDst (c : Bool) (u : Undef) (s : State) : (s.recordIf c u).wDst = s.wDst := rfl
@[simp] theorem State.recordIf_wCnt (c : Bool) (u : Undef) (s : State) : (s.recordIf c u).wCnt = s.wCnt := rfl
@[simp] theorem State.recordIf_wCtl (c : Bool) (u : Undef) (s : State) : (s.recordIf c u).wCtl = s.wCtl := rfl
@[simp] theorem State.recordIf_txBusy (c : Bool) (u : Undef) (s : State) : (s.recordIf c u).txBusy = s.txBusy := rfl
@[simp] theorem State.recordIf_txShift (c : Bool) (u : Undef) (s : State) : (s.recordIf c u).txShift = s.txShift := rfl
@[simp] theorem State.recordIf_txFmt (c : Bool) (u : Undef) (s : State) : (s.recordIf c u).txFmt = s.txFmt := rfl
@[simp] theorem State.recordIf_txState (c : Bool) (u : Undef) (s : State) : (s.recordIf c u).txState = s.txState := rfl
@[simp] theorem State.recordIf_mem (c : Bool) (u : Undef) (s : State) : (s.recordIf c u).mem = s.mem := rfl
@[simp] theorem State.recordIf_initDone (c : Bool) (u : Undef) (s : State) : (s.recordIf c u).initDone = s.initDone := rfl
@[simp] theorem State.recordIf_powered (c : Bool) (u : Undef) (s : State) : (s.recordIf c u).powered = s.powered := rfl
@[simp] theorem State.recordIf_storage (c : Bool) (u : Undef) (s : State) : (s.recordIf c u).storage = s.storage := rfl
@[simp] theorem State.recordIf_effects (c : Bool) (u : Undef) (s : State) : (s.recordIf c u).effects = s.effects := rfl
@[simp] theorem State.recordIf_wire (c : Bool) (u : Undef) (s : State) : (s.recordIf c u).wire = s.wire := rfl
@[simp] theorem State.recordIf_par (c : Bool) (u : Undef) (s : State) : (s.recordIf c u).par = s.par := rfl
@[simp] theorem State.recordIf_free (c : Bool) (u : Undef) (s : State) : (s.recordIf c u).free = s.free := rfl
@[simp] theorem State.recordIf_script (c : Bool) (u : Undef) (s : State) : (s.recordIf c u).script = s.script := rfl
@[simp] theorem State.recordIf_undef (c : Bool) (u : Undef) (s : State) : (s.recordIf c u).undef = addUndef c u s.undef := rfl

/-! ### `emit` -/

@[simp] theorem State.emit_seq (es : List Effect) (s : State) : (s.emit es).seq = s.seq := rfl
@[simp] theorem State.emit_stored (es : List Effect) (s : State) : (s.emit es).stored = s.stored := rfl
@[simp] theorem State.emit_opCfg (es : List Effect) (s : State) : (s.emit es).opCfg = s.opCfg := rfl
@[simp] theorem State.emit_opBuf (es : List Effect) (s : State) : (s.emit es).opBuf = s.opBuf := rfl
@[simp] theorem State.emit_opLen (es : List Effect) (s : State) : (s.emit es).opLen = s.opLen := rfl
@[simp] theorem State.emit_opReg (es : List Effect) (s : State) : (s.emit es).opReg = s.opReg := rfl
@[simp] theorem State.emit_rdata (es : List Effect) (s : State) : (s.emit es).rdata = s.rdata := rfl
@[simp] theorem State.emit_ufmt (es : List Effect) (s : State) : (s.emit es).ufmt = s.ufmt := rfl
@[simp] theorem State.emit_ugcr (es : List Effect) (s : State) : (s.emit es).ugcr = s.ugcr := rfl
@[simp] theorem State.emit_ubaud (es : List Effect) (s : State) : (s.emit es).ubaud = s.ubaud := rfl
@[simp] theorem State.emit_ucsr (es : List Effect) (s : State) : (s.emit es).ucsr = s.ucsr := rfl
@[simp] theorem State.emit_rxdata (es : List Effect) (s : State) : (s.emit es).rxdata = s.rxdata := rfl
@[simp] theorem State.emit_rxIf (es : List Effect) (s : State) : (s.emit es).rxIf = s.rxIf := rfl
@[simp] theorem State.emit_rxIe (es : List Effect) (s : State) : (s.emit es).rxIe = s.rxIe := rfl
@[simp] theorem State.emit_gie (es : List Effect) (s : State) : (s.emit es).gie = s.gie := rfl
@[simp] theorem State.emit_prio (es : List Effect) (s : State) : (s.emit es).prio = s.prio := rfl
@[simp] theorem State.emit_pmLoc (es : List Effect) (s : State) : (s.emit es).pmLoc = s.pmLoc := rfl
@[simp] theorem State.emit_pmFunc (es : List Effect) (s : State) : (s.emit es).pmFunc = s.pmFunc := rfl
@[simp] theorem State.emit_pmDir (es : List Effect) (s : State) : (s.emit es).pmDir = s.pmDir := rfl
@[simp] theorem State.emit_dmaTableValid (es : List Effect) (s : State) : (s.emit es).dmaTableValid = s.dmaTableValid := rfl
@[simp] theorem State.emit_dmaSlot (es : List Effect) (s : State) : (s.emit es).dmaSlot = s.dmaSlot := rfl
@[simp] theorem State.emit_arm (es : List Effect) (s : State) : (s.emit es).arm = s.arm := rfl
@[simp] theorem State.emit_loadPending (es : List Effect) (s : State) : (s.emit es).loadPending = s.loadPending := rfl
@[simp] theorem State.emit_latching (es : List Effect) (s : State) : (s.emit es).latching = s.latching := rfl
@[simp] theorem State.emit_wSrc (es : List Effect) (s : State) : (s.emit es).wSrc = s.wSrc := rfl
@[simp] theorem State.emit_wDst (es : List Effect) (s : State) : (s.emit es).wDst = s.wDst := rfl
@[simp] theorem State.emit_wCnt (es : List Effect) (s : State) : (s.emit es).wCnt = s.wCnt := rfl
@[simp] theorem State.emit_wCtl (es : List Effect) (s : State) : (s.emit es).wCtl = s.wCtl := rfl
@[simp] theorem State.emit_txBusy (es : List Effect) (s : State) : (s.emit es).txBusy = s.txBusy := rfl
@[simp] theorem State.emit_txShift (es : List Effect) (s : State) : (s.emit es).txShift = s.txShift := rfl
@[simp] theorem State.emit_txFmt (es : List Effect) (s : State) : (s.emit es).txFmt = s.txFmt := rfl
@[simp] theorem State.emit_txState (es : List Effect) (s : State) : (s.emit es).txState = s.txState := rfl
@[simp] theorem State.emit_mem (es : List Effect) (s : State) : (s.emit es).mem = s.mem := rfl
@[simp] theorem State.emit_initDone (es : List Effect) (s : State) : (s.emit es).initDone = s.initDone := rfl
@[simp] theorem State.emit_powered (es : List Effect) (s : State) : (s.emit es).powered = s.powered := rfl
@[simp] theorem State.emit_storage (es : List Effect) (s : State) : (s.emit es).storage = s.storage := rfl
@[simp] theorem State.emit_wire (es : List Effect) (s : State) : (s.emit es).wire = s.wire := rfl
@[simp] theorem State.emit_undef (es : List Effect) (s : State) : (s.emit es).undef = s.undef := rfl
@[simp] theorem State.emit_par (es : List Effect) (s : State) : (s.emit es).par = s.par := rfl
@[simp] theorem State.emit_free (es : List Effect) (s : State) : (s.emit es).free = s.free := rfl
@[simp] theorem State.emit_script (es : List Effect) (s : State) : (s.emit es).script = s.script := rfl
@[simp] theorem State.emit_effects (es : List Effect) (s : State) : (s.emit es).effects = s.effects ++ es := rfl

/-! ### Descriptor stores -/

@[simp] theorem State.storeBytes_seq (a : Addr) (bs : List Byte) (s : State) : (s.storeBytes a bs).seq = s.seq := rfl
@[simp] theorem State.storeBytes_opCfg (a : Addr) (bs : List Byte) (s : State) : (s.storeBytes a bs).opCfg = s.opCfg := rfl
@[simp] theorem State.storeBytes_opBuf (a : Addr) (bs : List Byte) (s : State) : (s.storeBytes a bs).opBuf = s.opBuf := rfl
@[simp] theorem State.storeBytes_opLen (a : Addr) (bs : List Byte) (s : State) : (s.storeBytes a bs).opLen = s.opLen := rfl
@[simp] theorem State.storeBytes_opReg (a : Addr) (bs : List Byte) (s : State) : (s.storeBytes a bs).opReg = s.opReg := rfl
@[simp] theorem State.storeBytes_rdata (a : Addr) (bs : List Byte) (s : State) : (s.storeBytes a bs).rdata = s.rdata := rfl
@[simp] theorem State.storeBytes_ufmt (a : Addr) (bs : List Byte) (s : State) : (s.storeBytes a bs).ufmt = s.ufmt := rfl
@[simp] theorem State.storeBytes_ugcr (a : Addr) (bs : List Byte) (s : State) : (s.storeBytes a bs).ugcr = s.ugcr := rfl
@[simp] theorem State.storeBytes_ubaud (a : Addr) (bs : List Byte) (s : State) : (s.storeBytes a bs).ubaud = s.ubaud := rfl
@[simp] theorem State.storeBytes_ucsr (a : Addr) (bs : List Byte) (s : State) : (s.storeBytes a bs).ucsr = s.ucsr := rfl
@[simp] theorem State.storeBytes_rxdata (a : Addr) (bs : List Byte) (s : State) : (s.storeBytes a bs).rxdata = s.rxdata := rfl
@[simp] theorem State.storeBytes_rxIf (a : Addr) (bs : List Byte) (s : State) : (s.storeBytes a bs).rxIf = s.rxIf := rfl
@[simp] theorem State.storeBytes_rxIe (a : Addr) (bs : List Byte) (s : State) : (s.storeBytes a bs).rxIe = s.rxIe := rfl
@[simp] theorem State.storeBytes_gie (a : Addr) (bs : List Byte) (s : State) : (s.storeBytes a bs).gie = s.gie := rfl
@[simp] theorem State.storeBytes_prio (a : Addr) (bs : List Byte) (s : State) : (s.storeBytes a bs).prio = s.prio := rfl
@[simp] theorem State.storeBytes_pmLoc (a : Addr) (bs : List Byte) (s : State) : (s.storeBytes a bs).pmLoc = s.pmLoc := rfl
@[simp] theorem State.storeBytes_pmFunc (a : Addr) (bs : List Byte) (s : State) : (s.storeBytes a bs).pmFunc = s.pmFunc := rfl
@[simp] theorem State.storeBytes_pmDir (a : Addr) (bs : List Byte) (s : State) : (s.storeBytes a bs).pmDir = s.pmDir := rfl
@[simp] theorem State.storeBytes_dmaTableValid (a : Addr) (bs : List Byte) (s : State) : (s.storeBytes a bs).dmaTableValid = s.dmaTableValid := rfl
@[simp] theorem State.storeBytes_dmaSlot (a : Addr) (bs : List Byte) (s : State) : (s.storeBytes a bs).dmaSlot = s.dmaSlot := rfl
@[simp] theorem State.storeBytes_arm (a : Addr) (bs : List Byte) (s : State) : (s.storeBytes a bs).arm = s.arm := rfl
@[simp] theorem State.storeBytes_loadPending (a : Addr) (bs : List Byte) (s : State) : (s.storeBytes a bs).loadPending = s.loadPending := rfl
@[simp] theorem State.storeBytes_latching (a : Addr) (bs : List Byte) (s : State) : (s.storeBytes a bs).latching = s.latching := rfl
@[simp] theorem State.storeBytes_wSrc (a : Addr) (bs : List Byte) (s : State) : (s.storeBytes a bs).wSrc = s.wSrc := rfl
@[simp] theorem State.storeBytes_wDst (a : Addr) (bs : List Byte) (s : State) : (s.storeBytes a bs).wDst = s.wDst := rfl
@[simp] theorem State.storeBytes_wCnt (a : Addr) (bs : List Byte) (s : State) : (s.storeBytes a bs).wCnt = s.wCnt := rfl
@[simp] theorem State.storeBytes_wCtl (a : Addr) (bs : List Byte) (s : State) : (s.storeBytes a bs).wCtl = s.wCtl := rfl
@[simp] theorem State.storeBytes_txBusy (a : Addr) (bs : List Byte) (s : State) : (s.storeBytes a bs).txBusy = s.txBusy := rfl
@[simp] theorem State.storeBytes_txShift (a : Addr) (bs : List Byte) (s : State) : (s.storeBytes a bs).txShift = s.txShift := rfl
@[simp] theorem State.storeBytes_txFmt (a : Addr) (bs : List Byte) (s : State) : (s.storeBytes a bs).txFmt = s.txFmt := rfl
@[simp] theorem State.storeBytes_txState (a : Addr) (bs : List Byte) (s : State) : (s.storeBytes a bs).txState = s.txState := rfl
@[simp] theorem State.storeBytes_initDone (a : Addr) (bs : List Byte) (s : State) : (s.storeBytes a bs).initDone = s.initDone := rfl
@[simp] theorem State.storeBytes_powered (a : Addr) (bs : List Byte) (s : State) : (s.storeBytes a bs).powered = s.powered := rfl
@[simp] theorem State.storeBytes_storage (a : Addr) (bs : List Byte) (s : State) : (s.storeBytes a bs).storage = s.storage := rfl
@[simp] theorem State.storeBytes_wire (a : Addr) (bs : List Byte) (s : State) : (s.storeBytes a bs).wire = s.wire := rfl
@[simp] theorem State.storeBytes_undef (a : Addr) (bs : List Byte) (s : State) : (s.storeBytes a bs).undef = s.undef := rfl
@[simp] theorem State.storeBytes_par (a : Addr) (bs : List Byte) (s : State) : (s.storeBytes a bs).par = s.par := rfl
@[simp] theorem State.storeBytes_free (a : Addr) (bs : List Byte) (s : State) : (s.storeBytes a bs).free = s.free := rfl
@[simp] theorem State.storeBytes_script (a : Addr) (bs : List Byte) (s : State) : (s.storeBytes a bs).script = s.script := rfl
@[simp] theorem State.storeBytes_stored (a : Addr) (bs : List Byte) (s : State) : (s.storeBytes a bs).stored = 0 := rfl
@[simp] theorem State.storeBytes_mem (a : Addr) (bs : List Byte) (s : State) : (s.storeBytes a bs).mem = Memory.writeList s.mem (a + BitVec.ofNat 16 s.stored) (bs.drop s.stored) := rfl

/-! ### A write of 1 to `ARM` -/

@[simp] theorem State.scheduleLatch_seq (s : State) : (s.scheduleLatch).seq = s.seq := rfl
@[simp] theorem State.scheduleLatch_stored (s : State) : (s.scheduleLatch).stored = s.stored := rfl
@[simp] theorem State.scheduleLatch_opCfg (s : State) : (s.scheduleLatch).opCfg = s.opCfg := rfl
@[simp] theorem State.scheduleLatch_opBuf (s : State) : (s.scheduleLatch).opBuf = s.opBuf := rfl
@[simp] theorem State.scheduleLatch_opLen (s : State) : (s.scheduleLatch).opLen = s.opLen := rfl
@[simp] theorem State.scheduleLatch_opReg (s : State) : (s.scheduleLatch).opReg = s.opReg := rfl
@[simp] theorem State.scheduleLatch_rdata (s : State) : (s.scheduleLatch).rdata = s.rdata := rfl
@[simp] theorem State.scheduleLatch_ufmt (s : State) : (s.scheduleLatch).ufmt = s.ufmt := rfl
@[simp] theorem State.scheduleLatch_ugcr (s : State) : (s.scheduleLatch).ugcr = s.ugcr := rfl
@[simp] theorem State.scheduleLatch_ubaud (s : State) : (s.scheduleLatch).ubaud = s.ubaud := rfl
@[simp] theorem State.scheduleLatch_ucsr (s : State) : (s.scheduleLatch).ucsr = s.ucsr := rfl
@[simp] theorem State.scheduleLatch_rxdata (s : State) : (s.scheduleLatch).rxdata = s.rxdata := rfl
@[simp] theorem State.scheduleLatch_rxIf (s : State) : (s.scheduleLatch).rxIf = s.rxIf := rfl
@[simp] theorem State.scheduleLatch_rxIe (s : State) : (s.scheduleLatch).rxIe = s.rxIe := rfl
@[simp] theorem State.scheduleLatch_gie (s : State) : (s.scheduleLatch).gie = s.gie := rfl
@[simp] theorem State.scheduleLatch_prio (s : State) : (s.scheduleLatch).prio = s.prio := rfl
@[simp] theorem State.scheduleLatch_pmLoc (s : State) : (s.scheduleLatch).pmLoc = s.pmLoc := rfl
@[simp] theorem State.scheduleLatch_pmFunc (s : State) : (s.scheduleLatch).pmFunc = s.pmFunc := rfl
@[simp] theorem State.scheduleLatch_pmDir (s : State) : (s.scheduleLatch).pmDir = s.pmDir := rfl
@[simp] theorem State.scheduleLatch_dmaTableValid (s : State) : (s.scheduleLatch).dmaTableValid = s.dmaTableValid := rfl
@[simp] theorem State.scheduleLatch_dmaSlot (s : State) : (s.scheduleLatch).dmaSlot = s.dmaSlot := rfl
@[simp] theorem State.scheduleLatch_wSrc (s : State) : (s.scheduleLatch).wSrc = s.wSrc := rfl
@[simp] theorem State.scheduleLatch_wDst (s : State) : (s.scheduleLatch).wDst = s.wDst := rfl
@[simp] theorem State.scheduleLatch_wCnt (s : State) : (s.scheduleLatch).wCnt = s.wCnt := rfl
@[simp] theorem State.scheduleLatch_wCtl (s : State) : (s.scheduleLatch).wCtl = s.wCtl := rfl
@[simp] theorem State.scheduleLatch_txBusy (s : State) : (s.scheduleLatch).txBusy = s.txBusy := rfl
@[simp] theorem State.scheduleLatch_txShift (s : State) : (s.scheduleLatch).txShift = s.txShift := rfl
@[simp] theorem State.scheduleLatch_txFmt (s : State) : (s.scheduleLatch).txFmt = s.txFmt := rfl
@[simp] theorem State.scheduleLatch_txState (s : State) : (s.scheduleLatch).txState = s.txState := rfl
@[simp] theorem State.scheduleLatch_mem (s : State) : (s.scheduleLatch).mem = s.mem := rfl
@[simp] theorem State.scheduleLatch_initDone (s : State) : (s.scheduleLatch).initDone = s.initDone := rfl
@[simp] theorem State.scheduleLatch_powered (s : State) : (s.scheduleLatch).powered = s.powered := rfl
@[simp] theorem State.scheduleLatch_storage (s : State) : (s.scheduleLatch).storage = s.storage := rfl
@[simp] theorem State.scheduleLatch_effects (s : State) : (s.scheduleLatch).effects = s.effects := rfl
@[simp] theorem State.scheduleLatch_wire (s : State) : (s.scheduleLatch).wire = s.wire := rfl
@[simp] theorem State.scheduleLatch_undef (s : State) : (s.scheduleLatch).undef = s.undef := rfl
@[simp] theorem State.scheduleLatch_par (s : State) : (s.scheduleLatch).par = s.par := rfl
@[simp] theorem State.scheduleLatch_free (s : State) : (s.scheduleLatch).free = s.free := rfl
@[simp] theorem State.scheduleLatch_script (s : State) : (s.scheduleLatch).script = s.script := rfl
@[simp] theorem State.scheduleLatch_arm (s : State) : (s.scheduleLatch).arm = true := rfl
@[simp] theorem State.scheduleLatch_loadPending (s : State) : (s.scheduleLatch).loadPending = true := rfl
@[simp] theorem State.scheduleLatch_latching (s : State) : (s.scheduleLatch).latching = none := rfl

/-! ### ARM -/

@[simp] theorem State.armChannel_seq (s : State) : (s.armChannel).seq = s.seq := rfl
@[simp] theorem State.armChannel_stored (s : State) : (s.armChannel).stored = s.stored := rfl
@[simp] theorem State.armChannel_opCfg (s : State) : (s.armChannel).opCfg = s.opCfg := rfl
@[simp] theorem State.armChannel_opBuf (s : State) : (s.armChannel).opBuf = s.opBuf := rfl
@[simp] theorem State.armChannel_opLen (s : State) : (s.armChannel).opLen = s.opLen := rfl
@[simp] theorem State.armChannel_opReg (s : State) : (s.armChannel).opReg = s.opReg := rfl
@[simp] theorem State.armChannel_rdata (s : State) : (s.armChannel).rdata = s.rdata := rfl
@[simp] theorem State.armChannel_ufmt (s : State) : (s.armChannel).ufmt = s.ufmt := rfl
@[simp] theorem State.armChannel_ugcr (s : State) : (s.armChannel).ugcr = s.ugcr := rfl
@[simp] theorem State.armChannel_ubaud (s : State) : (s.armChannel).ubaud = s.ubaud := rfl
@[simp] theorem State.armChannel_ucsr (s : State) : (s.armChannel).ucsr = s.ucsr := rfl
@[simp] theorem State.armChannel_rxdata (s : State) : (s.armChannel).rxdata = s.rxdata := rfl
@[simp] theorem State.armChannel_rxIf (s : State) : (s.armChannel).rxIf = s.rxIf := rfl
@[simp] theorem State.armChannel_rxIe (s : State) : (s.armChannel).rxIe = s.rxIe := rfl
@[simp] theorem State.armChannel_gie (s : State) : (s.armChannel).gie = s.gie := rfl
@[simp] theorem State.armChannel_prio (s : State) : (s.armChannel).prio = s.prio := rfl
@[simp] theorem State.armChannel_pmLoc (s : State) : (s.armChannel).pmLoc = s.pmLoc := rfl
@[simp] theorem State.armChannel_pmFunc (s : State) : (s.armChannel).pmFunc = s.pmFunc := rfl
@[simp] theorem State.armChannel_pmDir (s : State) : (s.armChannel).pmDir = s.pmDir := rfl
@[simp] theorem State.armChannel_dmaTableValid (s : State) : (s.armChannel).dmaTableValid = s.dmaTableValid := rfl
@[simp] theorem State.armChannel_dmaSlot (s : State) : (s.armChannel).dmaSlot = s.dmaSlot := rfl
@[simp] theorem State.armChannel_wSrc (s : State) : (s.armChannel).wSrc = s.wSrc := rfl
@[simp] theorem State.armChannel_wDst (s : State) : (s.armChannel).wDst = s.wDst := rfl
@[simp] theorem State.armChannel_wCnt (s : State) : (s.armChannel).wCnt = s.wCnt := rfl
@[simp] theorem State.armChannel_wCtl (s : State) : (s.armChannel).wCtl = s.wCtl := rfl
@[simp] theorem State.armChannel_txBusy (s : State) : (s.armChannel).txBusy = s.txBusy := rfl
@[simp] theorem State.armChannel_txShift (s : State) : (s.armChannel).txShift = s.txShift := rfl
@[simp] theorem State.armChannel_txFmt (s : State) : (s.armChannel).txFmt = s.txFmt := rfl
@[simp] theorem State.armChannel_txState (s : State) : (s.armChannel).txState = s.txState := rfl
@[simp] theorem State.armChannel_mem (s : State) : (s.armChannel).mem = s.mem := rfl
@[simp] theorem State.armChannel_initDone (s : State) : (s.armChannel).initDone = s.initDone := rfl
@[simp] theorem State.armChannel_powered (s : State) : (s.armChannel).powered = s.powered := rfl
@[simp] theorem State.armChannel_storage (s : State) : (s.armChannel).storage = s.storage := rfl
@[simp] theorem State.armChannel_wire (s : State) : (s.armChannel).wire = s.wire := rfl
@[simp] theorem State.armChannel_undef (s : State) : (s.armChannel).undef = s.undef := rfl
@[simp] theorem State.armChannel_par (s : State) : (s.armChannel).par = s.par := rfl
@[simp] theorem State.armChannel_free (s : State) : (s.armChannel).free = s.free := rfl
@[simp] theorem State.armChannel_script (s : State) : (s.armChannel).script = s.script := rfl
@[simp] theorem State.armChannel_arm (s : State) : (s.armChannel).arm = true := rfl
@[simp] theorem State.armChannel_loadPending (s : State) : (s.armChannel).loadPending = true := rfl
@[simp] theorem State.armChannel_latching (s : State) : (s.armChannel).latching = none := rfl
@[simp] theorem State.armChannel_effects (s : State) : (s.armChannel).effects = s.effects ++ [.arm] := rfl

/-! ### FRAME_START -/

@[simp] theorem State.frameStart_seq (b : Byte) (s : State) : (s.frameStart b).seq = s.seq := rfl
@[simp] theorem State.frameStart_stored (b : Byte) (s : State) : (s.frameStart b).stored = s.stored := rfl
@[simp] theorem State.frameStart_opCfg (b : Byte) (s : State) : (s.frameStart b).opCfg = s.opCfg := rfl
@[simp] theorem State.frameStart_opBuf (b : Byte) (s : State) : (s.frameStart b).opBuf = s.opBuf := rfl
@[simp] theorem State.frameStart_opLen (b : Byte) (s : State) : (s.frameStart b).opLen = s.opLen := rfl
@[simp] theorem State.frameStart_opReg (b : Byte) (s : State) : (s.frameStart b).opReg = s.opReg := rfl
@[simp] theorem State.frameStart_rdata (b : Byte) (s : State) : (s.frameStart b).rdata = s.rdata := rfl
@[simp] theorem State.frameStart_ufmt (b : Byte) (s : State) : (s.frameStart b).ufmt = s.ufmt := rfl
@[simp] theorem State.frameStart_ugcr (b : Byte) (s : State) : (s.frameStart b).ugcr = s.ugcr := rfl
@[simp] theorem State.frameStart_ubaud (b : Byte) (s : State) : (s.frameStart b).ubaud = s.ubaud := rfl
@[simp] theorem State.frameStart_ucsr (b : Byte) (s : State) : (s.frameStart b).ucsr = s.ucsr := rfl
@[simp] theorem State.frameStart_rxdata (b : Byte) (s : State) : (s.frameStart b).rxdata = s.rxdata := rfl
@[simp] theorem State.frameStart_rxIf (b : Byte) (s : State) : (s.frameStart b).rxIf = s.rxIf := rfl
@[simp] theorem State.frameStart_rxIe (b : Byte) (s : State) : (s.frameStart b).rxIe = s.rxIe := rfl
@[simp] theorem State.frameStart_gie (b : Byte) (s : State) : (s.frameStart b).gie = s.gie := rfl
@[simp] theorem State.frameStart_prio (b : Byte) (s : State) : (s.frameStart b).prio = s.prio := rfl
@[simp] theorem State.frameStart_pmLoc (b : Byte) (s : State) : (s.frameStart b).pmLoc = s.pmLoc := rfl
@[simp] theorem State.frameStart_pmFunc (b : Byte) (s : State) : (s.frameStart b).pmFunc = s.pmFunc := rfl
@[simp] theorem State.frameStart_pmDir (b : Byte) (s : State) : (s.frameStart b).pmDir = s.pmDir := rfl
@[simp] theorem State.frameStart_dmaTableValid (b : Byte) (s : State) : (s.frameStart b).dmaTableValid = s.dmaTableValid := rfl
@[simp] theorem State.frameStart_dmaSlot (b : Byte) (s : State) : (s.frameStart b).dmaSlot = s.dmaSlot := rfl
@[simp] theorem State.frameStart_arm (b : Byte) (s : State) : (s.frameStart b).arm = s.arm := rfl
@[simp] theorem State.frameStart_loadPending (b : Byte) (s : State) : (s.frameStart b).loadPending = s.loadPending := rfl
@[simp] theorem State.frameStart_latching (b : Byte) (s : State) : (s.frameStart b).latching = s.latching := rfl
@[simp] theorem State.frameStart_wSrc (b : Byte) (s : State) : (s.frameStart b).wSrc = s.wSrc := rfl
@[simp] theorem State.frameStart_wDst (b : Byte) (s : State) : (s.frameStart b).wDst = s.wDst := rfl
@[simp] theorem State.frameStart_wCnt (b : Byte) (s : State) : (s.frameStart b).wCnt = s.wCnt := rfl
@[simp] theorem State.frameStart_wCtl (b : Byte) (s : State) : (s.frameStart b).wCtl = s.wCtl := rfl
@[simp] theorem State.frameStart_txState (b : Byte) (s : State) : (s.frameStart b).txState = s.txState := rfl
@[simp] theorem State.frameStart_mem (b : Byte) (s : State) : (s.frameStart b).mem = s.mem := rfl
@[simp] theorem State.frameStart_initDone (b : Byte) (s : State) : (s.frameStart b).initDone = s.initDone := rfl
@[simp] theorem State.frameStart_powered (b : Byte) (s : State) : (s.frameStart b).powered = s.powered := rfl
@[simp] theorem State.frameStart_storage (b : Byte) (s : State) : (s.frameStart b).storage = s.storage := rfl
@[simp] theorem State.frameStart_effects (b : Byte) (s : State) : (s.frameStart b).effects = s.effects := rfl
@[simp] theorem State.frameStart_wire (b : Byte) (s : State) : (s.frameStart b).wire = s.wire := rfl
@[simp] theorem State.frameStart_par (b : Byte) (s : State) : (s.frameStart b).par = s.par := rfl
@[simp] theorem State.frameStart_script (b : Byte) (s : State) : (s.frameStart b).script = s.script := rfl
@[simp] theorem State.frameStart_txBusy (b : Byte) (s : State) : (s.frameStart b).txBusy = true := rfl
@[simp] theorem State.frameStart_txShift (b : Byte) (s : State) : (s.frameStart b).txShift = if s.writeLost then s.txShift else b := rfl
@[simp] theorem State.frameStart_txFmt (b : Byte) (s : State) : (s.frameStart b).txFmt = if s.writeLost then s.txFmt else s.format := rfl
@[simp] theorem State.frameStart_free (b : Byte) (s : State) : (s.frameStart b).free = if s.txBusy then s.free + 1 else s.free := rfl
@[simp] theorem State.frameStart_undef (b : Byte) (s : State) : (s.frameStart b).undef = addUndef (flowEn s.format) .u15 (addUndef s.txBusy .u13 (addUndef (!s.modeEn) .u23 s.undef)) := rfl

/-! ### LATCH -/

@[simp] theorem State.latch_seq (s : State) : (s.latch).seq = s.seq := rfl
@[simp] theorem State.latch_stored (s : State) : (s.latch).stored = s.stored := rfl
@[simp] theorem State.latch_opCfg (s : State) : (s.latch).opCfg = s.opCfg := rfl
@[simp] theorem State.latch_opBuf (s : State) : (s.latch).opBuf = s.opBuf := rfl
@[simp] theorem State.latch_opLen (s : State) : (s.latch).opLen = s.opLen := rfl
@[simp] theorem State.latch_opReg (s : State) : (s.latch).opReg = s.opReg := rfl
@[simp] theorem State.latch_rdata (s : State) : (s.latch).rdata = s.rdata := rfl
@[simp] theorem State.latch_ufmt (s : State) : (s.latch).ufmt = s.ufmt := rfl
@[simp] theorem State.latch_ugcr (s : State) : (s.latch).ugcr = s.ugcr := rfl
@[simp] theorem State.latch_ubaud (s : State) : (s.latch).ubaud = s.ubaud := rfl
@[simp] theorem State.latch_ucsr (s : State) : (s.latch).ucsr = s.ucsr := rfl
@[simp] theorem State.latch_rxdata (s : State) : (s.latch).rxdata = s.rxdata := rfl
@[simp] theorem State.latch_rxIf (s : State) : (s.latch).rxIf = s.rxIf := rfl
@[simp] theorem State.latch_rxIe (s : State) : (s.latch).rxIe = s.rxIe := rfl
@[simp] theorem State.latch_gie (s : State) : (s.latch).gie = s.gie := rfl
@[simp] theorem State.latch_prio (s : State) : (s.latch).prio = s.prio := rfl
@[simp] theorem State.latch_pmLoc (s : State) : (s.latch).pmLoc = s.pmLoc := rfl
@[simp] theorem State.latch_pmFunc (s : State) : (s.latch).pmFunc = s.pmFunc := rfl
@[simp] theorem State.latch_pmDir (s : State) : (s.latch).pmDir = s.pmDir := rfl
@[simp] theorem State.latch_dmaTableValid (s : State) : (s.latch).dmaTableValid = s.dmaTableValid := rfl
@[simp] theorem State.latch_dmaSlot (s : State) : (s.latch).dmaSlot = s.dmaSlot := rfl
@[simp] theorem State.latch_arm (s : State) : (s.latch).arm = s.arm := rfl
@[simp] theorem State.latch_txBusy (s : State) : (s.latch).txBusy = s.txBusy := rfl
@[simp] theorem State.latch_txShift (s : State) : (s.latch).txShift = s.txShift := rfl
@[simp] theorem State.latch_txFmt (s : State) : (s.latch).txFmt = s.txFmt := rfl
@[simp] theorem State.latch_txState (s : State) : (s.latch).txState = s.txState := rfl
@[simp] theorem State.latch_mem (s : State) : (s.latch).mem = s.mem := rfl
@[simp] theorem State.latch_initDone (s : State) : (s.latch).initDone = s.initDone := rfl
@[simp] theorem State.latch_powered (s : State) : (s.latch).powered = s.powered := rfl
@[simp] theorem State.latch_storage (s : State) : (s.latch).storage = s.storage := rfl
@[simp] theorem State.latch_effects (s : State) : (s.latch).effects = s.effects := rfl
@[simp] theorem State.latch_wire (s : State) : (s.latch).wire = s.wire := rfl
@[simp] theorem State.latch_par (s : State) : (s.latch).par = s.par := rfl
@[simp] theorem State.latch_script (s : State) : (s.latch).script = s.script := rfl
@[simp] theorem State.latch_loadPending (s : State) : (s.latch).loadPending = false := rfl
@[simp] theorem State.latch_latching (s : State) : (s.latch).latching = none := rfl
@[simp] theorem State.latch_wSrc (s : State) : (s.latch).wSrc = joinBytes (s.latchByte 0) (s.latchByte 1) := rfl
@[simp] theorem State.latch_wDst (s : State) : (s.latch).wDst = s.latchDst := rfl
@[simp] theorem State.latch_wCnt (s : State) : (s.latch).wCnt = lenOfBytes (s.latchByte 4) (s.latchByte 5) := rfl
@[simp] theorem State.latch_wCtl (s : State) : (s.latch).wCtl = s.latchCtl := rfl
@[simp] theorem State.latch_free (s : State) : (s.latch).free = if s.latchLost then s.free + (8 - s.latchCount) else s.free := rfl
@[simp] theorem State.latch_undef (s : State) : (s.latch).undef = addUndef s.latchForeign .u22 (addUndef s.latchLost .u9 s.undef) := rfl

/-! ### One read of a LATCH -/

@[simp] theorem State.readDescByte_seq (s : State) : (s.readDescByte).seq = s.seq := rfl
@[simp] theorem State.readDescByte_stored (s : State) : (s.readDescByte).stored = s.stored := rfl
@[simp] theorem State.readDescByte_opCfg (s : State) : (s.readDescByte).opCfg = s.opCfg := rfl
@[simp] theorem State.readDescByte_opBuf (s : State) : (s.readDescByte).opBuf = s.opBuf := rfl
@[simp] theorem State.readDescByte_opLen (s : State) : (s.readDescByte).opLen = s.opLen := rfl
@[simp] theorem State.readDescByte_opReg (s : State) : (s.readDescByte).opReg = s.opReg := rfl
@[simp] theorem State.readDescByte_rdata (s : State) : (s.readDescByte).rdata = s.rdata := rfl
@[simp] theorem State.readDescByte_ufmt (s : State) : (s.readDescByte).ufmt = s.ufmt := rfl
@[simp] theorem State.readDescByte_ugcr (s : State) : (s.readDescByte).ugcr = s.ugcr := rfl
@[simp] theorem State.readDescByte_ubaud (s : State) : (s.readDescByte).ubaud = s.ubaud := rfl
@[simp] theorem State.readDescByte_ucsr (s : State) : (s.readDescByte).ucsr = s.ucsr := rfl
@[simp] theorem State.readDescByte_rxdata (s : State) : (s.readDescByte).rxdata = s.rxdata := rfl
@[simp] theorem State.readDescByte_rxIf (s : State) : (s.readDescByte).rxIf = s.rxIf := rfl
@[simp] theorem State.readDescByte_rxIe (s : State) : (s.readDescByte).rxIe = s.rxIe := rfl
@[simp] theorem State.readDescByte_gie (s : State) : (s.readDescByte).gie = s.gie := rfl
@[simp] theorem State.readDescByte_prio (s : State) : (s.readDescByte).prio = s.prio := rfl
@[simp] theorem State.readDescByte_pmLoc (s : State) : (s.readDescByte).pmLoc = s.pmLoc := rfl
@[simp] theorem State.readDescByte_pmFunc (s : State) : (s.readDescByte).pmFunc = s.pmFunc := rfl
@[simp] theorem State.readDescByte_pmDir (s : State) : (s.readDescByte).pmDir = s.pmDir := rfl
@[simp] theorem State.readDescByte_dmaTableValid (s : State) : (s.readDescByte).dmaTableValid = s.dmaTableValid := rfl
@[simp] theorem State.readDescByte_dmaSlot (s : State) : (s.readDescByte).dmaSlot = s.dmaSlot := rfl
@[simp] theorem State.readDescByte_arm (s : State) : (s.readDescByte).arm = s.arm := rfl
@[simp] theorem State.readDescByte_loadPending (s : State) : (s.readDescByte).loadPending = s.loadPending := rfl
@[simp] theorem State.readDescByte_wSrc (s : State) : (s.readDescByte).wSrc = s.wSrc := rfl
@[simp] theorem State.readDescByte_wDst (s : State) : (s.readDescByte).wDst = s.wDst := rfl
@[simp] theorem State.readDescByte_wCnt (s : State) : (s.readDescByte).wCnt = s.wCnt := rfl
@[simp] theorem State.readDescByte_wCtl (s : State) : (s.readDescByte).wCtl = s.wCtl := rfl
@[simp] theorem State.readDescByte_txBusy (s : State) : (s.readDescByte).txBusy = s.txBusy := rfl
@[simp] theorem State.readDescByte_txShift (s : State) : (s.readDescByte).txShift = s.txShift := rfl
@[simp] theorem State.readDescByte_txFmt (s : State) : (s.readDescByte).txFmt = s.txFmt := rfl
@[simp] theorem State.readDescByte_txState (s : State) : (s.readDescByte).txState = s.txState := rfl
@[simp] theorem State.readDescByte_mem (s : State) : (s.readDescByte).mem = s.mem := rfl
@[simp] theorem State.readDescByte_initDone (s : State) : (s.readDescByte).initDone = s.initDone := rfl
@[simp] theorem State.readDescByte_powered (s : State) : (s.readDescByte).powered = s.powered := rfl
@[simp] theorem State.readDescByte_storage (s : State) : (s.readDescByte).storage = s.storage := rfl
@[simp] theorem State.readDescByte_effects (s : State) : (s.readDescByte).effects = s.effects := rfl
@[simp] theorem State.readDescByte_wire (s : State) : (s.readDescByte).wire = s.wire := rfl
@[simp] theorem State.readDescByte_par (s : State) : (s.readDescByte).par = s.par := rfl
@[simp] theorem State.readDescByte_script (s : State) : (s.readDescByte).script = s.script := rfl
@[simp] theorem State.readDescByte_latching (s : State) : (s.readDescByte).latching = some { s.latchRead with bytes := s.latchRead.bytes ++ [s.latchByte s.latchCount] } := rfl
@[simp] theorem State.readDescByte_free (s : State) : (s.readDescByte).free = if s.latchLost then s.free + 1 else s.free := rfl
@[simp] theorem State.readDescByte_undef (s : State) : (s.readDescByte).undef = addUndef s.latchLost .u9 s.undef := rfl

/-! ### The next read of a LATCH -/

@[simp] theorem State.latchStep_seq (s : State) : (s.latchStep).seq = s.seq := by
  unfold State.latchStep; split <;> simp
@[simp] theorem State.latchStep_stored (s : State) : (s.latchStep).stored = s.stored := by
  unfold State.latchStep; split <;> simp
@[simp] theorem State.latchStep_opCfg (s : State) : (s.latchStep).opCfg = s.opCfg := by
  unfold State.latchStep; split <;> simp
@[simp] theorem State.latchStep_opBuf (s : State) : (s.latchStep).opBuf = s.opBuf := by
  unfold State.latchStep; split <;> simp
@[simp] theorem State.latchStep_opLen (s : State) : (s.latchStep).opLen = s.opLen := by
  unfold State.latchStep; split <;> simp
@[simp] theorem State.latchStep_opReg (s : State) : (s.latchStep).opReg = s.opReg := by
  unfold State.latchStep; split <;> simp
@[simp] theorem State.latchStep_rdata (s : State) : (s.latchStep).rdata = s.rdata := by
  unfold State.latchStep; split <;> simp
@[simp] theorem State.latchStep_ufmt (s : State) : (s.latchStep).ufmt = s.ufmt := by
  unfold State.latchStep; split <;> simp
@[simp] theorem State.latchStep_ugcr (s : State) : (s.latchStep).ugcr = s.ugcr := by
  unfold State.latchStep; split <;> simp
@[simp] theorem State.latchStep_ubaud (s : State) : (s.latchStep).ubaud = s.ubaud := by
  unfold State.latchStep; split <;> simp
@[simp] theorem State.latchStep_ucsr (s : State) : (s.latchStep).ucsr = s.ucsr := by
  unfold State.latchStep; split <;> simp
@[simp] theorem State.latchStep_rxdata (s : State) : (s.latchStep).rxdata = s.rxdata := by
  unfold State.latchStep; split <;> simp
@[simp] theorem State.latchStep_rxIf (s : State) : (s.latchStep).rxIf = s.rxIf := by
  unfold State.latchStep; split <;> simp
@[simp] theorem State.latchStep_rxIe (s : State) : (s.latchStep).rxIe = s.rxIe := by
  unfold State.latchStep; split <;> simp
@[simp] theorem State.latchStep_gie (s : State) : (s.latchStep).gie = s.gie := by
  unfold State.latchStep; split <;> simp
@[simp] theorem State.latchStep_prio (s : State) : (s.latchStep).prio = s.prio := by
  unfold State.latchStep; split <;> simp
@[simp] theorem State.latchStep_pmLoc (s : State) : (s.latchStep).pmLoc = s.pmLoc := by
  unfold State.latchStep; split <;> simp
@[simp] theorem State.latchStep_pmFunc (s : State) : (s.latchStep).pmFunc = s.pmFunc := by
  unfold State.latchStep; split <;> simp
@[simp] theorem State.latchStep_pmDir (s : State) : (s.latchStep).pmDir = s.pmDir := by
  unfold State.latchStep; split <;> simp
@[simp] theorem State.latchStep_dmaTableValid (s : State) : (s.latchStep).dmaTableValid = s.dmaTableValid := by
  unfold State.latchStep; split <;> simp
@[simp] theorem State.latchStep_dmaSlot (s : State) : (s.latchStep).dmaSlot = s.dmaSlot := by
  unfold State.latchStep; split <;> simp
@[simp] theorem State.latchStep_arm (s : State) : (s.latchStep).arm = s.arm := by
  unfold State.latchStep; split <;> simp
@[simp] theorem State.latchStep_txBusy (s : State) : (s.latchStep).txBusy = s.txBusy := by
  unfold State.latchStep; split <;> simp
@[simp] theorem State.latchStep_txShift (s : State) : (s.latchStep).txShift = s.txShift := by
  unfold State.latchStep; split <;> simp
@[simp] theorem State.latchStep_txFmt (s : State) : (s.latchStep).txFmt = s.txFmt := by
  unfold State.latchStep; split <;> simp
@[simp] theorem State.latchStep_txState (s : State) : (s.latchStep).txState = s.txState := by
  unfold State.latchStep; split <;> simp
@[simp] theorem State.latchStep_mem (s : State) : (s.latchStep).mem = s.mem := by
  unfold State.latchStep; split <;> simp
@[simp] theorem State.latchStep_initDone (s : State) : (s.latchStep).initDone = s.initDone := by
  unfold State.latchStep; split <;> simp
@[simp] theorem State.latchStep_powered (s : State) : (s.latchStep).powered = s.powered := by
  unfold State.latchStep; split <;> simp
@[simp] theorem State.latchStep_storage (s : State) : (s.latchStep).storage = s.storage := by
  unfold State.latchStep; split <;> simp
@[simp] theorem State.latchStep_effects (s : State) : (s.latchStep).effects = s.effects := by
  unfold State.latchStep; split <;> simp
@[simp] theorem State.latchStep_wire (s : State) : (s.latchStep).wire = s.wire := by
  unfold State.latchStep; split <;> simp
@[simp] theorem State.latchStep_par (s : State) : (s.latchStep).par = s.par := by
  unfold State.latchStep; split <;> simp
@[simp] theorem State.latchStep_script (s : State) : (s.latchStep).script = s.script := by
  unfold State.latchStep; split <;> simp

/-! ### RX_HANDLER -/

@[simp] theorem State.handle_seq (s : State) : (s.handle).seq = s.seq := rfl
@[simp] theorem State.handle_stored (s : State) : (s.handle).stored = s.stored := rfl
@[simp] theorem State.handle_opCfg (s : State) : (s.handle).opCfg = s.opCfg := rfl
@[simp] theorem State.handle_opBuf (s : State) : (s.handle).opBuf = s.opBuf := rfl
@[simp] theorem State.handle_opLen (s : State) : (s.handle).opLen = s.opLen := rfl
@[simp] theorem State.handle_opReg (s : State) : (s.handle).opReg = s.opReg := rfl
@[simp] theorem State.handle_rdata (s : State) : (s.handle).rdata = s.rdata := rfl
@[simp] theorem State.handle_ufmt (s : State) : (s.handle).ufmt = s.ufmt := rfl
@[simp] theorem State.handle_ugcr (s : State) : (s.handle).ugcr = s.ugcr := rfl
@[simp] theorem State.handle_ubaud (s : State) : (s.handle).ubaud = s.ubaud := rfl
@[simp] theorem State.handle_ucsr (s : State) : (s.handle).ucsr = s.ucsr := rfl
@[simp] theorem State.handle_rxdata (s : State) : (s.handle).rxdata = s.rxdata := rfl
@[simp] theorem State.handle_rxIe (s : State) : (s.handle).rxIe = s.rxIe := rfl
@[simp] theorem State.handle_gie (s : State) : (s.handle).gie = s.gie := rfl
@[simp] theorem State.handle_prio (s : State) : (s.handle).prio = s.prio := rfl
@[simp] theorem State.handle_pmLoc (s : State) : (s.handle).pmLoc = s.pmLoc := rfl
@[simp] theorem State.handle_pmFunc (s : State) : (s.handle).pmFunc = s.pmFunc := rfl
@[simp] theorem State.handle_pmDir (s : State) : (s.handle).pmDir = s.pmDir := rfl
@[simp] theorem State.handle_dmaTableValid (s : State) : (s.handle).dmaTableValid = s.dmaTableValid := rfl
@[simp] theorem State.handle_dmaSlot (s : State) : (s.handle).dmaSlot = s.dmaSlot := rfl
@[simp] theorem State.handle_arm (s : State) : (s.handle).arm = s.arm := rfl
@[simp] theorem State.handle_loadPending (s : State) : (s.handle).loadPending = s.loadPending := rfl
@[simp] theorem State.handle_latching (s : State) : (s.handle).latching = s.latching := rfl
@[simp] theorem State.handle_wSrc (s : State) : (s.handle).wSrc = s.wSrc := rfl
@[simp] theorem State.handle_wDst (s : State) : (s.handle).wDst = s.wDst := rfl
@[simp] theorem State.handle_wCnt (s : State) : (s.handle).wCnt = s.wCnt := rfl
@[simp] theorem State.handle_wCtl (s : State) : (s.handle).wCtl = s.wCtl := rfl
@[simp] theorem State.handle_txBusy (s : State) : (s.handle).txBusy = s.txBusy := rfl
@[simp] theorem State.handle_txShift (s : State) : (s.handle).txShift = s.txShift := rfl
@[simp] theorem State.handle_txFmt (s : State) : (s.handle).txFmt = s.txFmt := rfl
@[simp] theorem State.handle_txState (s : State) : (s.handle).txState = s.txState := rfl
@[simp] theorem State.handle_mem (s : State) : (s.handle).mem = s.mem := rfl
@[simp] theorem State.handle_initDone (s : State) : (s.handle).initDone = s.initDone := rfl
@[simp] theorem State.handle_powered (s : State) : (s.handle).powered = s.powered := rfl
@[simp] theorem State.handle_storage (s : State) : (s.handle).storage = s.storage := rfl
@[simp] theorem State.handle_effects (s : State) : (s.handle).effects = s.effects := rfl
@[simp] theorem State.handle_wire (s : State) : (s.handle).wire = s.wire := rfl
@[simp] theorem State.handle_undef (s : State) : (s.handle).undef = s.undef := rfl
@[simp] theorem State.handle_par (s : State) : (s.handle).par = s.par := rfl
@[simp] theorem State.handle_free (s : State) : (s.handle).free = s.free := rfl
@[simp] theorem State.handle_script (s : State) : (s.handle).script = s.script := rfl
@[simp] theorem State.handle_rxIf (s : State) : (s.handle).rxIf = false := rfl

/-! ### TRANSFER -/

@[simp] theorem State.transfer_seq (s : State) : (s.transfer).seq = s.seq := by
  simp [State.transfer]
@[simp] theorem State.transfer_stored (s : State) : (s.transfer).stored = s.stored := by
  simp [State.transfer]
@[simp] theorem State.transfer_opCfg (s : State) : (s.transfer).opCfg = s.opCfg := by
  simp [State.transfer]
@[simp] theorem State.transfer_opBuf (s : State) : (s.transfer).opBuf = s.opBuf := by
  simp [State.transfer]
@[simp] theorem State.transfer_opLen (s : State) : (s.transfer).opLen = s.opLen := by
  simp [State.transfer]
@[simp] theorem State.transfer_opReg (s : State) : (s.transfer).opReg = s.opReg := by
  simp [State.transfer]
@[simp] theorem State.transfer_rdata (s : State) : (s.transfer).rdata = s.rdata := by
  simp [State.transfer]
@[simp] theorem State.transfer_ufmt (s : State) : (s.transfer).ufmt = s.ufmt := by
  simp [State.transfer]
@[simp] theorem State.transfer_ugcr (s : State) : (s.transfer).ugcr = s.ugcr := by
  simp [State.transfer]
@[simp] theorem State.transfer_ubaud (s : State) : (s.transfer).ubaud = s.ubaud := by
  simp [State.transfer]
@[simp] theorem State.transfer_ucsr (s : State) : (s.transfer).ucsr = s.ucsr := by
  simp [State.transfer]
@[simp] theorem State.transfer_rxdata (s : State) : (s.transfer).rxdata = s.rxdata := by
  simp [State.transfer]
@[simp] theorem State.transfer_rxIf (s : State) : (s.transfer).rxIf = s.rxIf := by
  simp [State.transfer]
@[simp] theorem State.transfer_rxIe (s : State) : (s.transfer).rxIe = s.rxIe := by
  simp [State.transfer]
@[simp] theorem State.transfer_gie (s : State) : (s.transfer).gie = s.gie := by
  simp [State.transfer]
@[simp] theorem State.transfer_prio (s : State) : (s.transfer).prio = s.prio := by
  simp [State.transfer]
@[simp] theorem State.transfer_pmLoc (s : State) : (s.transfer).pmLoc = s.pmLoc := by
  simp [State.transfer]
@[simp] theorem State.transfer_pmFunc (s : State) : (s.transfer).pmFunc = s.pmFunc := by
  simp [State.transfer]
@[simp] theorem State.transfer_pmDir (s : State) : (s.transfer).pmDir = s.pmDir := by
  simp [State.transfer]
@[simp] theorem State.transfer_dmaTableValid (s : State) : (s.transfer).dmaTableValid = s.dmaTableValid := by
  simp [State.transfer]
@[simp] theorem State.transfer_dmaSlot (s : State) : (s.transfer).dmaSlot = s.dmaSlot := by
  simp [State.transfer]
@[simp] theorem State.transfer_loadPending (s : State) : (s.transfer).loadPending = s.loadPending := by
  simp [State.transfer]
@[simp] theorem State.transfer_latching (s : State) : (s.transfer).latching = s.latching := by
  simp [State.transfer]
@[simp] theorem State.transfer_wDst (s : State) : (s.transfer).wDst = s.wDst := by
  simp [State.transfer]
@[simp] theorem State.transfer_wCtl (s : State) : (s.transfer).wCtl = s.wCtl := by
  simp [State.transfer]
@[simp] theorem State.transfer_txState (s : State) : (s.transfer).txState = s.txState := by
  simp [State.transfer]
@[simp] theorem State.transfer_mem (s : State) : (s.transfer).mem = s.mem := by
  simp [State.transfer]
@[simp] theorem State.transfer_initDone (s : State) : (s.transfer).initDone = s.initDone := by
  simp [State.transfer]
@[simp] theorem State.transfer_powered (s : State) : (s.transfer).powered = s.powered := by
  simp [State.transfer]
@[simp] theorem State.transfer_storage (s : State) : (s.transfer).storage = s.storage := by
  simp [State.transfer]
@[simp] theorem State.transfer_effects (s : State) : (s.transfer).effects = s.effects := by
  simp [State.transfer]
@[simp] theorem State.transfer_wire (s : State) : (s.transfer).wire = s.wire := by
  simp [State.transfer]
@[simp] theorem State.transfer_par (s : State) : (s.transfer).par = s.par := by
  simp [State.transfer]
@[simp] theorem State.transfer_script (s : State) : (s.transfer).script = s.script := by
  simp [State.transfer]
@[simp] theorem State.transfer_txBusy (s : State) : (s.transfer).txBusy = true := by
  simp [State.transfer]
@[simp] theorem State.transfer_wSrc (s : State) : (s.transfer).wSrc = s.wSrc + 1 := by
  simp [State.transfer]
@[simp] theorem State.transfer_wCnt (s : State) : (s.transfer).wCnt = s.wCnt - 1 := by
  simp [State.transfer]
@[simp] theorem State.transfer_arm (s : State) : (s.transfer).arm = if s.wCnt - 1 = 0 then false else s.arm := by
  simp [State.transfer]
@[simp] theorem State.transfer_txShift (s : State) : (s.transfer).txShift = if s.writeLost then s.txShift else Memory.read s.mem s.wSrc := by
  simp [State.transfer]
@[simp] theorem State.transfer_txFmt (s : State) : (s.transfer).txFmt = if s.writeLost then s.txFmt else s.format := by
  simp [State.transfer]

/-! ### The end of a transmission -/

@[simp] theorem State.retire_seq (s : State) : (s.retire).seq = s.seq := rfl
@[simp] theorem State.retire_stored (s : State) : (s.retire).stored = s.stored := rfl
@[simp] theorem State.retire_opCfg (s : State) : (s.retire).opCfg = s.opCfg := rfl
@[simp] theorem State.retire_opBuf (s : State) : (s.retire).opBuf = s.opBuf := rfl
@[simp] theorem State.retire_opLen (s : State) : (s.retire).opLen = s.opLen := rfl
@[simp] theorem State.retire_opReg (s : State) : (s.retire).opReg = s.opReg := rfl
@[simp] theorem State.retire_rdata (s : State) : (s.retire).rdata = s.rdata := rfl
@[simp] theorem State.retire_ufmt (s : State) : (s.retire).ufmt = s.ufmt := rfl
@[simp] theorem State.retire_ugcr (s : State) : (s.retire).ugcr = s.ugcr := rfl
@[simp] theorem State.retire_ubaud (s : State) : (s.retire).ubaud = s.ubaud := rfl
@[simp] theorem State.retire_ucsr (s : State) : (s.retire).ucsr = s.ucsr := rfl
@[simp] theorem State.retire_rxdata (s : State) : (s.retire).rxdata = s.rxdata := rfl
@[simp] theorem State.retire_rxIf (s : State) : (s.retire).rxIf = s.rxIf := rfl
@[simp] theorem State.retire_rxIe (s : State) : (s.retire).rxIe = s.rxIe := rfl
@[simp] theorem State.retire_gie (s : State) : (s.retire).gie = s.gie := rfl
@[simp] theorem State.retire_prio (s : State) : (s.retire).prio = s.prio := rfl
@[simp] theorem State.retire_pmLoc (s : State) : (s.retire).pmLoc = s.pmLoc := rfl
@[simp] theorem State.retire_pmFunc (s : State) : (s.retire).pmFunc = s.pmFunc := rfl
@[simp] theorem State.retire_pmDir (s : State) : (s.retire).pmDir = s.pmDir := rfl
@[simp] theorem State.retire_dmaTableValid (s : State) : (s.retire).dmaTableValid = s.dmaTableValid := rfl
@[simp] theorem State.retire_dmaSlot (s : State) : (s.retire).dmaSlot = s.dmaSlot := rfl
@[simp] theorem State.retire_arm (s : State) : (s.retire).arm = s.arm := rfl
@[simp] theorem State.retire_loadPending (s : State) : (s.retire).loadPending = s.loadPending := rfl
@[simp] theorem State.retire_latching (s : State) : (s.retire).latching = s.latching := rfl
@[simp] theorem State.retire_wSrc (s : State) : (s.retire).wSrc = s.wSrc := rfl
@[simp] theorem State.retire_wDst (s : State) : (s.retire).wDst = s.wDst := rfl
@[simp] theorem State.retire_wCnt (s : State) : (s.retire).wCnt = s.wCnt := rfl
@[simp] theorem State.retire_wCtl (s : State) : (s.retire).wCtl = s.wCtl := rfl
@[simp] theorem State.retire_txBusy (s : State) : (s.retire).txBusy = s.txBusy := rfl
@[simp] theorem State.retire_txShift (s : State) : (s.retire).txShift = s.txShift := rfl
@[simp] theorem State.retire_txFmt (s : State) : (s.retire).txFmt = s.txFmt := rfl
@[simp] theorem State.retire_mem (s : State) : (s.retire).mem = s.mem := rfl
@[simp] theorem State.retire_initDone (s : State) : (s.retire).initDone = s.initDone := rfl
@[simp] theorem State.retire_powered (s : State) : (s.retire).powered = s.powered := rfl
@[simp] theorem State.retire_storage (s : State) : (s.retire).storage = s.storage := rfl
@[simp] theorem State.retire_effects (s : State) : (s.retire).effects = s.effects := rfl
@[simp] theorem State.retire_wire (s : State) : (s.retire).wire = s.wire := rfl
@[simp] theorem State.retire_undef (s : State) : (s.retire).undef = s.undef := rfl
@[simp] theorem State.retire_par (s : State) : (s.retire).par = s.par := rfl
@[simp] theorem State.retire_free (s : State) : (s.retire).free = s.free := rfl
@[simp] theorem State.retire_script (s : State) : (s.retire).script = s.script := rfl
@[simp] theorem State.retire_txState (s : State) : (s.retire).txState = if s.txState = .transmitting then .idle else s.txState := rfl

/-! ### The end of a frame -/

@[simp] theorem State.completeFrame_seq (s : State) : (s.completeFrame).seq = s.seq := rfl
@[simp] theorem State.completeFrame_stored (s : State) : (s.completeFrame).stored = s.stored := rfl
@[simp] theorem State.completeFrame_opCfg (s : State) : (s.completeFrame).opCfg = s.opCfg := rfl
@[simp] theorem State.completeFrame_opBuf (s : State) : (s.completeFrame).opBuf = s.opBuf := rfl
@[simp] theorem State.completeFrame_opLen (s : State) : (s.completeFrame).opLen = s.opLen := rfl
@[simp] theorem State.completeFrame_opReg (s : State) : (s.completeFrame).opReg = s.opReg := rfl
@[simp] theorem State.completeFrame_rdata (s : State) : (s.completeFrame).rdata = s.rdata := rfl
@[simp] theorem State.completeFrame_ufmt (s : State) : (s.completeFrame).ufmt = s.ufmt := rfl
@[simp] theorem State.completeFrame_ugcr (s : State) : (s.completeFrame).ugcr = s.ugcr := rfl
@[simp] theorem State.completeFrame_ubaud (s : State) : (s.completeFrame).ubaud = s.ubaud := rfl
@[simp] theorem State.completeFrame_ucsr (s : State) : (s.completeFrame).ucsr = s.ucsr := rfl
@[simp] theorem State.completeFrame_rxdata (s : State) : (s.completeFrame).rxdata = s.rxdata := rfl
@[simp] theorem State.completeFrame_rxIf (s : State) : (s.completeFrame).rxIf = s.rxIf := rfl
@[simp] theorem State.completeFrame_rxIe (s : State) : (s.completeFrame).rxIe = s.rxIe := rfl
@[simp] theorem State.completeFrame_gie (s : State) : (s.completeFrame).gie = s.gie := rfl
@[simp] theorem State.completeFrame_prio (s : State) : (s.completeFrame).prio = s.prio := rfl
@[simp] theorem State.completeFrame_pmLoc (s : State) : (s.completeFrame).pmLoc = s.pmLoc := rfl
@[simp] theorem State.completeFrame_pmFunc (s : State) : (s.completeFrame).pmFunc = s.pmFunc := rfl
@[simp] theorem State.completeFrame_pmDir (s : State) : (s.completeFrame).pmDir = s.pmDir := rfl
@[simp] theorem State.completeFrame_dmaTableValid (s : State) : (s.completeFrame).dmaTableValid = s.dmaTableValid := rfl
@[simp] theorem State.completeFrame_dmaSlot (s : State) : (s.completeFrame).dmaSlot = s.dmaSlot := rfl
@[simp] theorem State.completeFrame_arm (s : State) : (s.completeFrame).arm = s.arm := rfl
@[simp] theorem State.completeFrame_loadPending (s : State) : (s.completeFrame).loadPending = s.loadPending := rfl
@[simp] theorem State.completeFrame_latching (s : State) : (s.completeFrame).latching = s.latching := rfl
@[simp] theorem State.completeFrame_wSrc (s : State) : (s.completeFrame).wSrc = s.wSrc := rfl
@[simp] theorem State.completeFrame_wDst (s : State) : (s.completeFrame).wDst = s.wDst := rfl
@[simp] theorem State.completeFrame_wCnt (s : State) : (s.completeFrame).wCnt = s.wCnt := rfl
@[simp] theorem State.completeFrame_wCtl (s : State) : (s.completeFrame).wCtl = s.wCtl := rfl
@[simp] theorem State.completeFrame_txShift (s : State) : (s.completeFrame).txShift = s.txShift := rfl
@[simp] theorem State.completeFrame_txFmt (s : State) : (s.completeFrame).txFmt = s.txFmt := rfl
@[simp] theorem State.completeFrame_txState (s : State) : (s.completeFrame).txState = s.txState := rfl
@[simp] theorem State.completeFrame_mem (s : State) : (s.completeFrame).mem = s.mem := rfl
@[simp] theorem State.completeFrame_initDone (s : State) : (s.completeFrame).initDone = s.initDone := rfl
@[simp] theorem State.completeFrame_powered (s : State) : (s.completeFrame).powered = s.powered := rfl
@[simp] theorem State.completeFrame_storage (s : State) : (s.completeFrame).storage = s.storage := rfl
@[simp] theorem State.completeFrame_effects (s : State) : (s.completeFrame).effects = s.effects := rfl
@[simp] theorem State.completeFrame_undef (s : State) : (s.completeFrame).undef = s.undef := rfl
@[simp] theorem State.completeFrame_par (s : State) : (s.completeFrame).par = s.par := rfl
@[simp] theorem State.completeFrame_free (s : State) : (s.completeFrame).free = s.free := rfl
@[simp] theorem State.completeFrame_script (s : State) : (s.completeFrame).script = s.script := rfl
@[simp] theorem State.completeFrame_txBusy (s : State) : (s.completeFrame).txBusy = false := rfl
@[simp] theorem State.completeFrame_wire (s : State) : (s.completeFrame).wire = s.wire ++ [(s.txShift, frame s.txFmt s.txShift)] := rfl

/-! ### A trigger with nothing to move -/

@[simp] theorem State.openTrigger_seq (s : State) : (s.openTrigger).seq = s.seq := by
  unfold State.openTrigger; split <;> simp
@[simp] theorem State.openTrigger_stored (s : State) : (s.openTrigger).stored = s.stored := by
  unfold State.openTrigger; split <;> simp
@[simp] theorem State.openTrigger_opCfg (s : State) : (s.openTrigger).opCfg = s.opCfg := by
  unfold State.openTrigger; split <;> simp
@[simp] theorem State.openTrigger_opBuf (s : State) : (s.openTrigger).opBuf = s.opBuf := by
  unfold State.openTrigger; split <;> simp
@[simp] theorem State.openTrigger_opLen (s : State) : (s.openTrigger).opLen = s.opLen := by
  unfold State.openTrigger; split <;> simp
@[simp] theorem State.openTrigger_opReg (s : State) : (s.openTrigger).opReg = s.opReg := by
  unfold State.openTrigger; split <;> simp
@[simp] theorem State.openTrigger_rdata (s : State) : (s.openTrigger).rdata = s.rdata := by
  unfold State.openTrigger; split <;> simp
@[simp] theorem State.openTrigger_ufmt (s : State) : (s.openTrigger).ufmt = s.ufmt := by
  unfold State.openTrigger; split <;> simp
@[simp] theorem State.openTrigger_ugcr (s : State) : (s.openTrigger).ugcr = s.ugcr := by
  unfold State.openTrigger; split <;> simp
@[simp] theorem State.openTrigger_ubaud (s : State) : (s.openTrigger).ubaud = s.ubaud := by
  unfold State.openTrigger; split <;> simp
@[simp] theorem State.openTrigger_ucsr (s : State) : (s.openTrigger).ucsr = s.ucsr := by
  unfold State.openTrigger; split <;> simp
@[simp] theorem State.openTrigger_rxdata (s : State) : (s.openTrigger).rxdata = s.rxdata := by
  unfold State.openTrigger; split <;> simp
@[simp] theorem State.openTrigger_rxIf (s : State) : (s.openTrigger).rxIf = s.rxIf := by
  unfold State.openTrigger; split <;> simp
@[simp] theorem State.openTrigger_rxIe (s : State) : (s.openTrigger).rxIe = s.rxIe := by
  unfold State.openTrigger; split <;> simp
@[simp] theorem State.openTrigger_gie (s : State) : (s.openTrigger).gie = s.gie := by
  unfold State.openTrigger; split <;> simp
@[simp] theorem State.openTrigger_prio (s : State) : (s.openTrigger).prio = s.prio := by
  unfold State.openTrigger; split <;> simp
@[simp] theorem State.openTrigger_pmLoc (s : State) : (s.openTrigger).pmLoc = s.pmLoc := by
  unfold State.openTrigger; split <;> simp
@[simp] theorem State.openTrigger_pmFunc (s : State) : (s.openTrigger).pmFunc = s.pmFunc := by
  unfold State.openTrigger; split <;> simp
@[simp] theorem State.openTrigger_pmDir (s : State) : (s.openTrigger).pmDir = s.pmDir := by
  unfold State.openTrigger; split <;> simp
@[simp] theorem State.openTrigger_dmaTableValid (s : State) : (s.openTrigger).dmaTableValid = s.dmaTableValid := by
  unfold State.openTrigger; split <;> simp
@[simp] theorem State.openTrigger_dmaSlot (s : State) : (s.openTrigger).dmaSlot = s.dmaSlot := by
  unfold State.openTrigger; split <;> simp
@[simp] theorem State.openTrigger_loadPending (s : State) : (s.openTrigger).loadPending = s.loadPending := by
  unfold State.openTrigger; split <;> simp
@[simp] theorem State.openTrigger_latching (s : State) : (s.openTrigger).latching = s.latching := by
  unfold State.openTrigger; split <;> simp
@[simp] theorem State.openTrigger_wDst (s : State) : (s.openTrigger).wDst = s.wDst := by
  unfold State.openTrigger; split <;> simp
@[simp] theorem State.openTrigger_wCtl (s : State) : (s.openTrigger).wCtl = s.wCtl := by
  unfold State.openTrigger; split <;> simp
@[simp] theorem State.openTrigger_mem (s : State) : (s.openTrigger).mem = s.mem := by
  unfold State.openTrigger; split <;> simp
@[simp] theorem State.openTrigger_initDone (s : State) : (s.openTrigger).initDone = s.initDone := by
  unfold State.openTrigger; split <;> simp
@[simp] theorem State.openTrigger_powered (s : State) : (s.openTrigger).powered = s.powered := by
  unfold State.openTrigger; split <;> simp
@[simp] theorem State.openTrigger_storage (s : State) : (s.openTrigger).storage = s.storage := by
  unfold State.openTrigger; split <;> simp
@[simp] theorem State.openTrigger_effects (s : State) : (s.openTrigger).effects = s.effects := by
  unfold State.openTrigger; split <;> simp
@[simp] theorem State.openTrigger_wire (s : State) : (s.openTrigger).wire = s.wire := by
  unfold State.openTrigger; split <;> simp
@[simp] theorem State.openTrigger_par (s : State) : (s.openTrigger).par = s.par := by
  unfold State.openTrigger; split <;> simp
@[simp] theorem State.openTrigger_script (s : State) : (s.openTrigger).script = s.script := by
  unfold State.openTrigger; split <;> simp

/-! ### The channel's answer to `TXC` -/

@[simp] theorem State.answerTrigger_seq (s : State) : (s.answerTrigger).seq = s.seq := by
  unfold State.answerTrigger; split <;> (try split) <;> simp
@[simp] theorem State.answerTrigger_stored (s : State) : (s.answerTrigger).stored = s.stored := by
  unfold State.answerTrigger; split <;> (try split) <;> simp
@[simp] theorem State.answerTrigger_opCfg (s : State) : (s.answerTrigger).opCfg = s.opCfg := by
  unfold State.answerTrigger; split <;> (try split) <;> simp
@[simp] theorem State.answerTrigger_opBuf (s : State) : (s.answerTrigger).opBuf = s.opBuf := by
  unfold State.answerTrigger; split <;> (try split) <;> simp
@[simp] theorem State.answerTrigger_opLen (s : State) : (s.answerTrigger).opLen = s.opLen := by
  unfold State.answerTrigger; split <;> (try split) <;> simp
@[simp] theorem State.answerTrigger_opReg (s : State) : (s.answerTrigger).opReg = s.opReg := by
  unfold State.answerTrigger; split <;> (try split) <;> simp
@[simp] theorem State.answerTrigger_rdata (s : State) : (s.answerTrigger).rdata = s.rdata := by
  unfold State.answerTrigger; split <;> (try split) <;> simp
@[simp] theorem State.answerTrigger_ufmt (s : State) : (s.answerTrigger).ufmt = s.ufmt := by
  unfold State.answerTrigger; split <;> (try split) <;> simp
@[simp] theorem State.answerTrigger_ugcr (s : State) : (s.answerTrigger).ugcr = s.ugcr := by
  unfold State.answerTrigger; split <;> (try split) <;> simp
@[simp] theorem State.answerTrigger_ubaud (s : State) : (s.answerTrigger).ubaud = s.ubaud := by
  unfold State.answerTrigger; split <;> (try split) <;> simp
@[simp] theorem State.answerTrigger_ucsr (s : State) : (s.answerTrigger).ucsr = s.ucsr := by
  unfold State.answerTrigger; split <;> (try split) <;> simp
@[simp] theorem State.answerTrigger_rxdata (s : State) : (s.answerTrigger).rxdata = s.rxdata := by
  unfold State.answerTrigger; split <;> (try split) <;> simp
@[simp] theorem State.answerTrigger_rxIf (s : State) : (s.answerTrigger).rxIf = s.rxIf := by
  unfold State.answerTrigger; split <;> (try split) <;> simp
@[simp] theorem State.answerTrigger_rxIe (s : State) : (s.answerTrigger).rxIe = s.rxIe := by
  unfold State.answerTrigger; split <;> (try split) <;> simp
@[simp] theorem State.answerTrigger_gie (s : State) : (s.answerTrigger).gie = s.gie := by
  unfold State.answerTrigger; split <;> (try split) <;> simp
@[simp] theorem State.answerTrigger_prio (s : State) : (s.answerTrigger).prio = s.prio := by
  unfold State.answerTrigger; split <;> (try split) <;> simp
@[simp] theorem State.answerTrigger_pmLoc (s : State) : (s.answerTrigger).pmLoc = s.pmLoc := by
  unfold State.answerTrigger; split <;> (try split) <;> simp
@[simp] theorem State.answerTrigger_pmFunc (s : State) : (s.answerTrigger).pmFunc = s.pmFunc := by
  unfold State.answerTrigger; split <;> (try split) <;> simp
@[simp] theorem State.answerTrigger_pmDir (s : State) : (s.answerTrigger).pmDir = s.pmDir := by
  unfold State.answerTrigger; split <;> (try split) <;> simp
@[simp] theorem State.answerTrigger_dmaTableValid (s : State) : (s.answerTrigger).dmaTableValid = s.dmaTableValid := by
  unfold State.answerTrigger; split <;> (try split) <;> simp
@[simp] theorem State.answerTrigger_dmaSlot (s : State) : (s.answerTrigger).dmaSlot = s.dmaSlot := by
  unfold State.answerTrigger; split <;> (try split) <;> simp
@[simp] theorem State.answerTrigger_loadPending (s : State) : (s.answerTrigger).loadPending = s.loadPending := by
  unfold State.answerTrigger; split <;> (try split) <;> simp
@[simp] theorem State.answerTrigger_latching (s : State) : (s.answerTrigger).latching = s.latching := by
  unfold State.answerTrigger; split <;> (try split) <;> simp
@[simp] theorem State.answerTrigger_wDst (s : State) : (s.answerTrigger).wDst = s.wDst := by
  unfold State.answerTrigger; split <;> (try split) <;> simp
@[simp] theorem State.answerTrigger_wCtl (s : State) : (s.answerTrigger).wCtl = s.wCtl := by
  unfold State.answerTrigger; split <;> (try split) <;> simp
@[simp] theorem State.answerTrigger_mem (s : State) : (s.answerTrigger).mem = s.mem := by
  unfold State.answerTrigger; split <;> (try split) <;> simp
@[simp] theorem State.answerTrigger_initDone (s : State) : (s.answerTrigger).initDone = s.initDone := by
  unfold State.answerTrigger; split <;> (try split) <;> simp
@[simp] theorem State.answerTrigger_powered (s : State) : (s.answerTrigger).powered = s.powered := by
  unfold State.answerTrigger; split <;> (try split) <;> simp
@[simp] theorem State.answerTrigger_storage (s : State) : (s.answerTrigger).storage = s.storage := by
  unfold State.answerTrigger; split <;> (try split) <;> simp
@[simp] theorem State.answerTrigger_effects (s : State) : (s.answerTrigger).effects = s.effects := by
  unfold State.answerTrigger; split <;> (try split) <;> simp
@[simp] theorem State.answerTrigger_wire (s : State) : (s.answerTrigger).wire = s.wire := by
  unfold State.answerTrigger; split <;> (try split) <;> simp
@[simp] theorem State.answerTrigger_par (s : State) : (s.answerTrigger).par = s.par := by
  unfold State.answerTrigger; split <;> (try split) <;> simp
@[simp] theorem State.answerTrigger_script (s : State) : (s.answerTrigger).script = s.script := by
  unfold State.answerTrigger; split <;> (try split) <;> simp

/-! ### FRAME_END -/

@[simp] theorem State.frameEnd_seq (s : State) : (s.frameEnd).seq = s.seq := by
  simp [State.frameEnd]
@[simp] theorem State.frameEnd_stored (s : State) : (s.frameEnd).stored = s.stored := by
  simp [State.frameEnd]
@[simp] theorem State.frameEnd_opCfg (s : State) : (s.frameEnd).opCfg = s.opCfg := by
  simp [State.frameEnd]
@[simp] theorem State.frameEnd_opBuf (s : State) : (s.frameEnd).opBuf = s.opBuf := by
  simp [State.frameEnd]
@[simp] theorem State.frameEnd_opLen (s : State) : (s.frameEnd).opLen = s.opLen := by
  simp [State.frameEnd]
@[simp] theorem State.frameEnd_opReg (s : State) : (s.frameEnd).opReg = s.opReg := by
  simp [State.frameEnd]
@[simp] theorem State.frameEnd_rdata (s : State) : (s.frameEnd).rdata = s.rdata := by
  simp [State.frameEnd]
@[simp] theorem State.frameEnd_ufmt (s : State) : (s.frameEnd).ufmt = s.ufmt := by
  simp [State.frameEnd]
@[simp] theorem State.frameEnd_ugcr (s : State) : (s.frameEnd).ugcr = s.ugcr := by
  simp [State.frameEnd]
@[simp] theorem State.frameEnd_ubaud (s : State) : (s.frameEnd).ubaud = s.ubaud := by
  simp [State.frameEnd]
@[simp] theorem State.frameEnd_ucsr (s : State) : (s.frameEnd).ucsr = s.ucsr := by
  simp [State.frameEnd]
@[simp] theorem State.frameEnd_rxdata (s : State) : (s.frameEnd).rxdata = s.rxdata := by
  simp [State.frameEnd]
@[simp] theorem State.frameEnd_rxIf (s : State) : (s.frameEnd).rxIf = s.rxIf := by
  simp [State.frameEnd]
@[simp] theorem State.frameEnd_rxIe (s : State) : (s.frameEnd).rxIe = s.rxIe := by
  simp [State.frameEnd]
@[simp] theorem State.frameEnd_gie (s : State) : (s.frameEnd).gie = s.gie := by
  simp [State.frameEnd]
@[simp] theorem State.frameEnd_prio (s : State) : (s.frameEnd).prio = s.prio := by
  simp [State.frameEnd]
@[simp] theorem State.frameEnd_pmLoc (s : State) : (s.frameEnd).pmLoc = s.pmLoc := by
  simp [State.frameEnd]
@[simp] theorem State.frameEnd_pmFunc (s : State) : (s.frameEnd).pmFunc = s.pmFunc := by
  simp [State.frameEnd]
@[simp] theorem State.frameEnd_pmDir (s : State) : (s.frameEnd).pmDir = s.pmDir := by
  simp [State.frameEnd]
@[simp] theorem State.frameEnd_dmaTableValid (s : State) : (s.frameEnd).dmaTableValid = s.dmaTableValid := by
  simp [State.frameEnd]
@[simp] theorem State.frameEnd_dmaSlot (s : State) : (s.frameEnd).dmaSlot = s.dmaSlot := by
  simp [State.frameEnd]
@[simp] theorem State.frameEnd_loadPending (s : State) : (s.frameEnd).loadPending = s.loadPending := by
  simp [State.frameEnd]
@[simp] theorem State.frameEnd_latching (s : State) : (s.frameEnd).latching = s.latching := by
  simp [State.frameEnd]
@[simp] theorem State.frameEnd_wDst (s : State) : (s.frameEnd).wDst = s.wDst := by
  simp [State.frameEnd]
@[simp] theorem State.frameEnd_wCtl (s : State) : (s.frameEnd).wCtl = s.wCtl := by
  simp [State.frameEnd]
@[simp] theorem State.frameEnd_mem (s : State) : (s.frameEnd).mem = s.mem := by
  simp [State.frameEnd]
@[simp] theorem State.frameEnd_initDone (s : State) : (s.frameEnd).initDone = s.initDone := by
  simp [State.frameEnd]
@[simp] theorem State.frameEnd_powered (s : State) : (s.frameEnd).powered = s.powered := by
  simp [State.frameEnd]
@[simp] theorem State.frameEnd_storage (s : State) : (s.frameEnd).storage = s.storage := by
  simp [State.frameEnd]
@[simp] theorem State.frameEnd_effects (s : State) : (s.frameEnd).effects = s.effects := by
  simp [State.frameEnd]
@[simp] theorem State.frameEnd_par (s : State) : (s.frameEnd).par = s.par := by
  simp [State.frameEnd]
@[simp] theorem State.frameEnd_script (s : State) : (s.frameEnd).script = s.script := by
  simp [State.frameEnd]

@[simp] theorem State.frameEnd_wire (s : State) :
    s.frameEnd.wire = s.wire ++ [(s.txShift, frame s.txFmt s.txShift)] := by
  simp [State.frameEnd]

/-! ### The end of a command -/

@[simp] theorem State.finish_stored (c : Cmd) (s : State) : (s.finish c).stored = s.stored := rfl
@[simp] theorem State.finish_opCfg (c : Cmd) (s : State) : (s.finish c).opCfg = s.opCfg := rfl
@[simp] theorem State.finish_opBuf (c : Cmd) (s : State) : (s.finish c).opBuf = s.opBuf := rfl
@[simp] theorem State.finish_opLen (c : Cmd) (s : State) : (s.finish c).opLen = s.opLen := rfl
@[simp] theorem State.finish_opReg (c : Cmd) (s : State) : (s.finish c).opReg = s.opReg := rfl
@[simp] theorem State.finish_rdata (c : Cmd) (s : State) : (s.finish c).rdata = s.rdata := rfl
@[simp] theorem State.finish_ufmt (c : Cmd) (s : State) : (s.finish c).ufmt = s.ufmt := rfl
@[simp] theorem State.finish_ugcr (c : Cmd) (s : State) : (s.finish c).ugcr = s.ugcr := rfl
@[simp] theorem State.finish_ubaud (c : Cmd) (s : State) : (s.finish c).ubaud = s.ubaud := rfl
@[simp] theorem State.finish_ucsr (c : Cmd) (s : State) : (s.finish c).ucsr = s.ucsr := rfl
@[simp] theorem State.finish_rxdata (c : Cmd) (s : State) : (s.finish c).rxdata = s.rxdata := rfl
@[simp] theorem State.finish_rxIf (c : Cmd) (s : State) : (s.finish c).rxIf = s.rxIf := rfl
@[simp] theorem State.finish_rxIe (c : Cmd) (s : State) : (s.finish c).rxIe = s.rxIe := rfl
@[simp] theorem State.finish_gie (c : Cmd) (s : State) : (s.finish c).gie = s.gie := rfl
@[simp] theorem State.finish_prio (c : Cmd) (s : State) : (s.finish c).prio = s.prio := rfl
@[simp] theorem State.finish_pmLoc (c : Cmd) (s : State) : (s.finish c).pmLoc = s.pmLoc := rfl
@[simp] theorem State.finish_pmFunc (c : Cmd) (s : State) : (s.finish c).pmFunc = s.pmFunc := rfl
@[simp] theorem State.finish_pmDir (c : Cmd) (s : State) : (s.finish c).pmDir = s.pmDir := rfl
@[simp] theorem State.finish_dmaTableValid (c : Cmd) (s : State) : (s.finish c).dmaTableValid = s.dmaTableValid := rfl
@[simp] theorem State.finish_dmaSlot (c : Cmd) (s : State) : (s.finish c).dmaSlot = s.dmaSlot := rfl
@[simp] theorem State.finish_arm (c : Cmd) (s : State) : (s.finish c).arm = s.arm := rfl
@[simp] theorem State.finish_loadPending (c : Cmd) (s : State) : (s.finish c).loadPending = s.loadPending := rfl
@[simp] theorem State.finish_latching (c : Cmd) (s : State) : (s.finish c).latching = s.latching := rfl
@[simp] theorem State.finish_wSrc (c : Cmd) (s : State) : (s.finish c).wSrc = s.wSrc := rfl
@[simp] theorem State.finish_wDst (c : Cmd) (s : State) : (s.finish c).wDst = s.wDst := rfl
@[simp] theorem State.finish_wCnt (c : Cmd) (s : State) : (s.finish c).wCnt = s.wCnt := rfl
@[simp] theorem State.finish_wCtl (c : Cmd) (s : State) : (s.finish c).wCtl = s.wCtl := rfl
@[simp] theorem State.finish_txBusy (c : Cmd) (s : State) : (s.finish c).txBusy = s.txBusy := rfl
@[simp] theorem State.finish_txShift (c : Cmd) (s : State) : (s.finish c).txShift = s.txShift := rfl
@[simp] theorem State.finish_txFmt (c : Cmd) (s : State) : (s.finish c).txFmt = s.txFmt := rfl
@[simp] theorem State.finish_txState (c : Cmd) (s : State) : (s.finish c).txState = s.txState := rfl
@[simp] theorem State.finish_mem (c : Cmd) (s : State) : (s.finish c).mem = s.mem := rfl
@[simp] theorem State.finish_powered (c : Cmd) (s : State) : (s.finish c).powered = s.powered := rfl
@[simp] theorem State.finish_storage (c : Cmd) (s : State) : (s.finish c).storage = s.storage := rfl
@[simp] theorem State.finish_effects (c : Cmd) (s : State) : (s.finish c).effects = s.effects := rfl
@[simp] theorem State.finish_wire (c : Cmd) (s : State) : (s.finish c).wire = s.wire := rfl
@[simp] theorem State.finish_undef (c : Cmd) (s : State) : (s.finish c).undef = s.undef := rfl
@[simp] theorem State.finish_par (c : Cmd) (s : State) : (s.finish c).par = s.par := rfl
@[simp] theorem State.finish_free (c : Cmd) (s : State) : (s.finish c).free = s.free := rfl
@[simp] theorem State.finish_script (c : Cmd) (s : State) : (s.finish c).script = s.script := rfl
@[simp] theorem State.finish_seq (c : Cmd) (s : State) : (s.finish c).seq = .idle := rfl
@[simp] theorem State.finish_initDone (c : Cmd) (s : State) : (s.finish c).initDone = (s.initDone || decide (c = .init)) := rfl

/-! ### `SEQ` after a uop -/

@[simp] theorem State.advance_stored (c : Cmd) (k : Nat) (s : State) : (s.advance c k).stored = s.stored := by
  unfold State.advance; split <;> simp
@[simp] theorem State.advance_opCfg (c : Cmd) (k : Nat) (s : State) : (s.advance c k).opCfg = s.opCfg := by
  unfold State.advance; split <;> simp
@[simp] theorem State.advance_opBuf (c : Cmd) (k : Nat) (s : State) : (s.advance c k).opBuf = s.opBuf := by
  unfold State.advance; split <;> simp
@[simp] theorem State.advance_opLen (c : Cmd) (k : Nat) (s : State) : (s.advance c k).opLen = s.opLen := by
  unfold State.advance; split <;> simp
@[simp] theorem State.advance_opReg (c : Cmd) (k : Nat) (s : State) : (s.advance c k).opReg = s.opReg := by
  unfold State.advance; split <;> simp
@[simp] theorem State.advance_rdata (c : Cmd) (k : Nat) (s : State) : (s.advance c k).rdata = s.rdata := by
  unfold State.advance; split <;> simp
@[simp] theorem State.advance_ufmt (c : Cmd) (k : Nat) (s : State) : (s.advance c k).ufmt = s.ufmt := by
  unfold State.advance; split <;> simp
@[simp] theorem State.advance_ugcr (c : Cmd) (k : Nat) (s : State) : (s.advance c k).ugcr = s.ugcr := by
  unfold State.advance; split <;> simp
@[simp] theorem State.advance_ubaud (c : Cmd) (k : Nat) (s : State) : (s.advance c k).ubaud = s.ubaud := by
  unfold State.advance; split <;> simp
@[simp] theorem State.advance_ucsr (c : Cmd) (k : Nat) (s : State) : (s.advance c k).ucsr = s.ucsr := by
  unfold State.advance; split <;> simp
@[simp] theorem State.advance_rxdata (c : Cmd) (k : Nat) (s : State) : (s.advance c k).rxdata = s.rxdata := by
  unfold State.advance; split <;> simp
@[simp] theorem State.advance_rxIf (c : Cmd) (k : Nat) (s : State) : (s.advance c k).rxIf = s.rxIf := by
  unfold State.advance; split <;> simp
@[simp] theorem State.advance_rxIe (c : Cmd) (k : Nat) (s : State) : (s.advance c k).rxIe = s.rxIe := by
  unfold State.advance; split <;> simp
@[simp] theorem State.advance_gie (c : Cmd) (k : Nat) (s : State) : (s.advance c k).gie = s.gie := by
  unfold State.advance; split <;> simp
@[simp] theorem State.advance_prio (c : Cmd) (k : Nat) (s : State) : (s.advance c k).prio = s.prio := by
  unfold State.advance; split <;> simp
@[simp] theorem State.advance_pmLoc (c : Cmd) (k : Nat) (s : State) : (s.advance c k).pmLoc = s.pmLoc := by
  unfold State.advance; split <;> simp
@[simp] theorem State.advance_pmFunc (c : Cmd) (k : Nat) (s : State) : (s.advance c k).pmFunc = s.pmFunc := by
  unfold State.advance; split <;> simp
@[simp] theorem State.advance_pmDir (c : Cmd) (k : Nat) (s : State) : (s.advance c k).pmDir = s.pmDir := by
  unfold State.advance; split <;> simp
@[simp] theorem State.advance_dmaTableValid (c : Cmd) (k : Nat) (s : State) : (s.advance c k).dmaTableValid = s.dmaTableValid := by
  unfold State.advance; split <;> simp
@[simp] theorem State.advance_dmaSlot (c : Cmd) (k : Nat) (s : State) : (s.advance c k).dmaSlot = s.dmaSlot := by
  unfold State.advance; split <;> simp
@[simp] theorem State.advance_arm (c : Cmd) (k : Nat) (s : State) : (s.advance c k).arm = s.arm := by
  unfold State.advance; split <;> simp
@[simp] theorem State.advance_loadPending (c : Cmd) (k : Nat) (s : State) : (s.advance c k).loadPending = s.loadPending := by
  unfold State.advance; split <;> simp
@[simp] theorem State.advance_latching (c : Cmd) (k : Nat) (s : State) : (s.advance c k).latching = s.latching := by
  unfold State.advance; split <;> simp
@[simp] theorem State.advance_wSrc (c : Cmd) (k : Nat) (s : State) : (s.advance c k).wSrc = s.wSrc := by
  unfold State.advance; split <;> simp
@[simp] theorem State.advance_wDst (c : Cmd) (k : Nat) (s : State) : (s.advance c k).wDst = s.wDst := by
  unfold State.advance; split <;> simp
@[simp] theorem State.advance_wCnt (c : Cmd) (k : Nat) (s : State) : (s.advance c k).wCnt = s.wCnt := by
  unfold State.advance; split <;> simp
@[simp] theorem State.advance_wCtl (c : Cmd) (k : Nat) (s : State) : (s.advance c k).wCtl = s.wCtl := by
  unfold State.advance; split <;> simp
@[simp] theorem State.advance_txBusy (c : Cmd) (k : Nat) (s : State) : (s.advance c k).txBusy = s.txBusy := by
  unfold State.advance; split <;> simp
@[simp] theorem State.advance_txShift (c : Cmd) (k : Nat) (s : State) : (s.advance c k).txShift = s.txShift := by
  unfold State.advance; split <;> simp
@[simp] theorem State.advance_txFmt (c : Cmd) (k : Nat) (s : State) : (s.advance c k).txFmt = s.txFmt := by
  unfold State.advance; split <;> simp
@[simp] theorem State.advance_txState (c : Cmd) (k : Nat) (s : State) : (s.advance c k).txState = s.txState := by
  unfold State.advance; split <;> simp
@[simp] theorem State.advance_mem (c : Cmd) (k : Nat) (s : State) : (s.advance c k).mem = s.mem := by
  unfold State.advance; split <;> simp
@[simp] theorem State.advance_powered (c : Cmd) (k : Nat) (s : State) : (s.advance c k).powered = s.powered := by
  unfold State.advance; split <;> simp
@[simp] theorem State.advance_storage (c : Cmd) (k : Nat) (s : State) : (s.advance c k).storage = s.storage := by
  unfold State.advance; split <;> simp
@[simp] theorem State.advance_effects (c : Cmd) (k : Nat) (s : State) : (s.advance c k).effects = s.effects := by
  unfold State.advance; split <;> simp
@[simp] theorem State.advance_wire (c : Cmd) (k : Nat) (s : State) : (s.advance c k).wire = s.wire := by
  unfold State.advance; split <;> simp
@[simp] theorem State.advance_undef (c : Cmd) (k : Nat) (s : State) : (s.advance c k).undef = s.undef := by
  unfold State.advance; split <;> simp
@[simp] theorem State.advance_par (c : Cmd) (k : Nat) (s : State) : (s.advance c k).par = s.par := by
  unfold State.advance; split <;> simp
@[simp] theorem State.advance_free (c : Cmd) (k : Nat) (s : State) : (s.advance c k).free = s.free := by
  unfold State.advance; split <;> simp
@[simp] theorem State.advance_script (c : Cmd) (k : Nat) (s : State) : (s.advance c k).script = s.script := by
  unfold State.advance; split <;> simp

/-! ### Acceptance of a command -/

@[simp] theorem State.accept_opCfg (c : Cmd) (s : State) : (s.accept c).opCfg = s.opCfg := by
  simp [State.accept]
@[simp] theorem State.accept_opBuf (c : Cmd) (s : State) : (s.accept c).opBuf = s.opBuf := by
  simp [State.accept]
@[simp] theorem State.accept_opLen (c : Cmd) (s : State) : (s.accept c).opLen = s.opLen := by
  simp [State.accept]
@[simp] theorem State.accept_opReg (c : Cmd) (s : State) : (s.accept c).opReg = s.opReg := by
  simp [State.accept]
@[simp] theorem State.accept_rdata (c : Cmd) (s : State) : (s.accept c).rdata = s.rdata := by
  simp [State.accept]
@[simp] theorem State.accept_ufmt (c : Cmd) (s : State) : (s.accept c).ufmt = s.ufmt := by
  simp [State.accept]
@[simp] theorem State.accept_ugcr (c : Cmd) (s : State) : (s.accept c).ugcr = s.ugcr := by
  simp [State.accept]
@[simp] theorem State.accept_ubaud (c : Cmd) (s : State) : (s.accept c).ubaud = s.ubaud := by
  simp [State.accept]
@[simp] theorem State.accept_ucsr (c : Cmd) (s : State) : (s.accept c).ucsr = s.ucsr := by
  simp [State.accept]
@[simp] theorem State.accept_rxdata (c : Cmd) (s : State) : (s.accept c).rxdata = s.rxdata := by
  simp [State.accept]
@[simp] theorem State.accept_rxIf (c : Cmd) (s : State) : (s.accept c).rxIf = s.rxIf := by
  simp [State.accept]
@[simp] theorem State.accept_rxIe (c : Cmd) (s : State) : (s.accept c).rxIe = s.rxIe := by
  simp [State.accept]
@[simp] theorem State.accept_gie (c : Cmd) (s : State) : (s.accept c).gie = s.gie := by
  simp [State.accept]
@[simp] theorem State.accept_prio (c : Cmd) (s : State) : (s.accept c).prio = s.prio := by
  simp [State.accept]
@[simp] theorem State.accept_pmLoc (c : Cmd) (s : State) : (s.accept c).pmLoc = s.pmLoc := by
  simp [State.accept]
@[simp] theorem State.accept_pmFunc (c : Cmd) (s : State) : (s.accept c).pmFunc = s.pmFunc := by
  simp [State.accept]
@[simp] theorem State.accept_pmDir (c : Cmd) (s : State) : (s.accept c).pmDir = s.pmDir := by
  simp [State.accept]
@[simp] theorem State.accept_dmaTableValid (c : Cmd) (s : State) : (s.accept c).dmaTableValid = s.dmaTableValid := by
  simp [State.accept]
@[simp] theorem State.accept_dmaSlot (c : Cmd) (s : State) : (s.accept c).dmaSlot = s.dmaSlot := by
  simp [State.accept]
@[simp] theorem State.accept_arm (c : Cmd) (s : State) : (s.accept c).arm = s.arm := by
  simp [State.accept]
@[simp] theorem State.accept_loadPending (c : Cmd) (s : State) : (s.accept c).loadPending = s.loadPending := by
  simp [State.accept]
@[simp] theorem State.accept_latching (c : Cmd) (s : State) : (s.accept c).latching = s.latching := by
  simp [State.accept]
@[simp] theorem State.accept_wSrc (c : Cmd) (s : State) : (s.accept c).wSrc = s.wSrc := by
  simp [State.accept]
@[simp] theorem State.accept_wDst (c : Cmd) (s : State) : (s.accept c).wDst = s.wDst := by
  simp [State.accept]
@[simp] theorem State.accept_wCnt (c : Cmd) (s : State) : (s.accept c).wCnt = s.wCnt := by
  simp [State.accept]
@[simp] theorem State.accept_wCtl (c : Cmd) (s : State) : (s.accept c).wCtl = s.wCtl := by
  simp [State.accept]
@[simp] theorem State.accept_txBusy (c : Cmd) (s : State) : (s.accept c).txBusy = s.txBusy := by
  simp [State.accept]
@[simp] theorem State.accept_txShift (c : Cmd) (s : State) : (s.accept c).txShift = s.txShift := by
  simp [State.accept]
@[simp] theorem State.accept_txFmt (c : Cmd) (s : State) : (s.accept c).txFmt = s.txFmt := by
  simp [State.accept]
@[simp] theorem State.accept_txState (c : Cmd) (s : State) : (s.accept c).txState = s.txState := by
  simp [State.accept]
@[simp] theorem State.accept_mem (c : Cmd) (s : State) : (s.accept c).mem = s.mem := by
  simp [State.accept]
@[simp] theorem State.accept_initDone (c : Cmd) (s : State) : (s.accept c).initDone = s.initDone := by
  simp [State.accept]
@[simp] theorem State.accept_powered (c : Cmd) (s : State) : (s.accept c).powered = s.powered := by
  simp [State.accept]
@[simp] theorem State.accept_storage (c : Cmd) (s : State) : (s.accept c).storage = s.storage := by
  simp [State.accept]
@[simp] theorem State.accept_effects (c : Cmd) (s : State) : (s.accept c).effects = s.effects := by
  simp [State.accept]
@[simp] theorem State.accept_wire (c : Cmd) (s : State) : (s.accept c).wire = s.wire := by
  simp [State.accept]
@[simp] theorem State.accept_par (c : Cmd) (s : State) : (s.accept c).par = s.par := by
  simp [State.accept]
@[simp] theorem State.accept_free (c : Cmd) (s : State) : (s.accept c).free = s.free := by
  simp [State.accept]
@[simp] theorem State.accept_script (c : Cmd) (s : State) : (s.accept c).script = s.script := by
  simp [State.accept]
@[simp] theorem State.accept_seq (c : Cmd) (s : State) : (s.accept c).seq = .run c 1 := by
  simp [State.accept]
@[simp] theorem State.accept_stored (c : Cmd) (s : State) : (s.accept c).stored = 0 := by
  simp [State.accept]
@[simp] theorem State.accept_undef (c : Cmd) (s : State) : (s.accept c).undef = addUndef (!s.powered) .u11 s.undef := by
  simp [State.accept]

/-! ### What no uop writes -/

@[simp] theorem issue_seq (u : Uop) (s : State) : (issue u s).seq = s.seq := by
  cases u <;> rfl
@[simp] theorem issue_opCfg (u : Uop) (s : State) : (issue u s).opCfg = s.opCfg := by
  cases u <;> rfl
@[simp] theorem issue_opBuf (u : Uop) (s : State) : (issue u s).opBuf = s.opBuf := by
  cases u <;> rfl
@[simp] theorem issue_opLen (u : Uop) (s : State) : (issue u s).opLen = s.opLen := by
  cases u <;> rfl
@[simp] theorem issue_opReg (u : Uop) (s : State) : (issue u s).opReg = s.opReg := by
  cases u <;> rfl
@[simp] theorem issue_rxdata (u : Uop) (s : State) : (issue u s).rxdata = s.rxdata := by
  cases u <;> rfl
@[simp] theorem issue_dmaTableValid (u : Uop) (s : State) : (issue u s).dmaTableValid = s.dmaTableValid := by
  cases u <;> rfl
@[simp] theorem issue_wSrc (u : Uop) (s : State) : (issue u s).wSrc = s.wSrc := by
  cases u <;> rfl
@[simp] theorem issue_wDst (u : Uop) (s : State) : (issue u s).wDst = s.wDst := by
  cases u <;> rfl
@[simp] theorem issue_wCnt (u : Uop) (s : State) : (issue u s).wCnt = s.wCnt := by
  cases u <;> rfl
@[simp] theorem issue_wCtl (u : Uop) (s : State) : (issue u s).wCtl = s.wCtl := by
  cases u <;> rfl
@[simp] theorem issue_initDone (u : Uop) (s : State) : (issue u s).initDone = s.initDone := by
  cases u <;> rfl
@[simp] theorem issue_powered (u : Uop) (s : State) : (issue u s).powered = s.powered := by
  cases u <;> rfl
@[simp] theorem issue_storage (u : Uop) (s : State) : (issue u s).storage = s.storage := by
  cases u <;> rfl
@[simp] theorem issue_wire (u : Uop) (s : State) : (issue u s).wire = s.wire := by
  cases u <;> rfl
@[simp] theorem issue_par (u : Uop) (s : State) : (issue u s).par = s.par := by
  cases u <;> rfl
@[simp] theorem issue_script (u : Uop) (s : State) : (issue u s).script = s.script := by
  cases u <;> rfl

/-! ### One byte store of a uop -/

@[simp] theorem storeNext_seq (u : Uop) (s : State) : (storeNext u s).seq = s.seq := by
  unfold storeNext; split <;> rfl
@[simp] theorem storeNext_opCfg (u : Uop) (s : State) : (storeNext u s).opCfg = s.opCfg := by
  unfold storeNext; split <;> rfl
@[simp] theorem storeNext_opBuf (u : Uop) (s : State) : (storeNext u s).opBuf = s.opBuf := by
  unfold storeNext; split <;> rfl
@[simp] theorem storeNext_opLen (u : Uop) (s : State) : (storeNext u s).opLen = s.opLen := by
  unfold storeNext; split <;> rfl
@[simp] theorem storeNext_opReg (u : Uop) (s : State) : (storeNext u s).opReg = s.opReg := by
  unfold storeNext; split <;> rfl
@[simp] theorem storeNext_rdata (u : Uop) (s : State) : (storeNext u s).rdata = s.rdata := by
  unfold storeNext; split <;> rfl
@[simp] theorem storeNext_ufmt (u : Uop) (s : State) : (storeNext u s).ufmt = s.ufmt := by
  unfold storeNext; split <;> rfl
@[simp] theorem storeNext_ugcr (u : Uop) (s : State) : (storeNext u s).ugcr = s.ugcr := by
  unfold storeNext; split <;> rfl
@[simp] theorem storeNext_ubaud (u : Uop) (s : State) : (storeNext u s).ubaud = s.ubaud := by
  unfold storeNext; split <;> rfl
@[simp] theorem storeNext_ucsr (u : Uop) (s : State) : (storeNext u s).ucsr = s.ucsr := by
  unfold storeNext; split <;> rfl
@[simp] theorem storeNext_rxdata (u : Uop) (s : State) : (storeNext u s).rxdata = s.rxdata := by
  unfold storeNext; split <;> rfl
@[simp] theorem storeNext_rxIf (u : Uop) (s : State) : (storeNext u s).rxIf = s.rxIf := by
  unfold storeNext; split <;> rfl
@[simp] theorem storeNext_rxIe (u : Uop) (s : State) : (storeNext u s).rxIe = s.rxIe := by
  unfold storeNext; split <;> rfl
@[simp] theorem storeNext_gie (u : Uop) (s : State) : (storeNext u s).gie = s.gie := by
  unfold storeNext; split <;> rfl
@[simp] theorem storeNext_prio (u : Uop) (s : State) : (storeNext u s).prio = s.prio := by
  unfold storeNext; split <;> rfl
@[simp] theorem storeNext_pmLoc (u : Uop) (s : State) : (storeNext u s).pmLoc = s.pmLoc := by
  unfold storeNext; split <;> rfl
@[simp] theorem storeNext_pmFunc (u : Uop) (s : State) : (storeNext u s).pmFunc = s.pmFunc := by
  unfold storeNext; split <;> rfl
@[simp] theorem storeNext_pmDir (u : Uop) (s : State) : (storeNext u s).pmDir = s.pmDir := by
  unfold storeNext; split <;> rfl
@[simp] theorem storeNext_dmaTableValid (u : Uop) (s : State) : (storeNext u s).dmaTableValid = s.dmaTableValid := by
  unfold storeNext; split <;> rfl
@[simp] theorem storeNext_arm (u : Uop) (s : State) : (storeNext u s).arm = s.arm := by
  unfold storeNext; split <;> rfl
@[simp] theorem storeNext_loadPending (u : Uop) (s : State) : (storeNext u s).loadPending = s.loadPending := by
  unfold storeNext; split <;> rfl
@[simp] theorem storeNext_latching (u : Uop) (s : State) : (storeNext u s).latching = s.latching := by
  unfold storeNext; split <;> rfl
@[simp] theorem storeNext_wSrc (u : Uop) (s : State) : (storeNext u s).wSrc = s.wSrc := by
  unfold storeNext; split <;> rfl
@[simp] theorem storeNext_wDst (u : Uop) (s : State) : (storeNext u s).wDst = s.wDst := by
  unfold storeNext; split <;> rfl
@[simp] theorem storeNext_wCnt (u : Uop) (s : State) : (storeNext u s).wCnt = s.wCnt := by
  unfold storeNext; split <;> rfl
@[simp] theorem storeNext_wCtl (u : Uop) (s : State) : (storeNext u s).wCtl = s.wCtl := by
  unfold storeNext; split <;> rfl
@[simp] theorem storeNext_txBusy (u : Uop) (s : State) : (storeNext u s).txBusy = s.txBusy := by
  unfold storeNext; split <;> rfl
@[simp] theorem storeNext_txShift (u : Uop) (s : State) : (storeNext u s).txShift = s.txShift := by
  unfold storeNext; split <;> rfl
@[simp] theorem storeNext_txFmt (u : Uop) (s : State) : (storeNext u s).txFmt = s.txFmt := by
  unfold storeNext; split <;> rfl
@[simp] theorem storeNext_txState (u : Uop) (s : State) : (storeNext u s).txState = s.txState := by
  unfold storeNext; split <;> rfl
@[simp] theorem storeNext_initDone (u : Uop) (s : State) : (storeNext u s).initDone = s.initDone := by
  unfold storeNext; split <;> rfl
@[simp] theorem storeNext_powered (u : Uop) (s : State) : (storeNext u s).powered = s.powered := by
  unfold storeNext; split <;> rfl
@[simp] theorem storeNext_storage (u : Uop) (s : State) : (storeNext u s).storage = s.storage := by
  unfold storeNext; split <;> rfl
@[simp] theorem storeNext_effects (u : Uop) (s : State) : (storeNext u s).effects = s.effects := by
  unfold storeNext; split <;> rfl
@[simp] theorem storeNext_wire (u : Uop) (s : State) : (storeNext u s).wire = s.wire := by
  unfold storeNext; split <;> rfl
@[simp] theorem storeNext_par (u : Uop) (s : State) : (storeNext u s).par = s.par := by
  unfold storeNext; split <;> rfl
@[simp] theorem storeNext_free (u : Uop) (s : State) : (storeNext u s).free = s.free := by
  unfold storeNext; split <;> rfl
@[simp] theorem storeNext_script (u : Uop) (s : State) : (storeNext u s).script = s.script := by
  unfold storeNext; split <;> rfl
@[simp] theorem storeNext_stored (u : Uop) (s : State) : (storeNext u s).stored = s.stored + 1 := by
  unfold storeNext; split <;> rfl

/-! ### What no uninterrupted run of uops writes -/

@[simp] theorem State.issueSettled_seq (s : State) (u : Uop) : (s.issueSettled u).seq = s.seq := by
  unfold State.issueSettled; split <;> simp
@[simp] theorem State.issueSettled_opCfg (s : State) (u : Uop) : (s.issueSettled u).opCfg = s.opCfg := by
  unfold State.issueSettled; split <;> simp
@[simp] theorem State.issueSettled_opBuf (s : State) (u : Uop) : (s.issueSettled u).opBuf = s.opBuf := by
  unfold State.issueSettled; split <;> simp
@[simp] theorem State.issueSettled_opLen (s : State) (u : Uop) : (s.issueSettled u).opLen = s.opLen := by
  unfold State.issueSettled; split <;> simp
@[simp] theorem State.issueSettled_opReg (s : State) (u : Uop) : (s.issueSettled u).opReg = s.opReg := by
  unfold State.issueSettled; split <;> simp
@[simp] theorem State.issueSettled_rxdata (s : State) (u : Uop) : (s.issueSettled u).rxdata = s.rxdata := by
  unfold State.issueSettled; split <;> simp
@[simp] theorem State.issueSettled_dmaTableValid (s : State) (u : Uop) : (s.issueSettled u).dmaTableValid = s.dmaTableValid := by
  unfold State.issueSettled; split <;> simp
@[simp] theorem State.issueSettled_initDone (s : State) (u : Uop) : (s.issueSettled u).initDone = s.initDone := by
  unfold State.issueSettled; split <;> simp
@[simp] theorem State.issueSettled_powered (s : State) (u : Uop) : (s.issueSettled u).powered = s.powered := by
  unfold State.issueSettled; split <;> simp
@[simp] theorem State.issueSettled_storage (s : State) (u : Uop) : (s.issueSettled u).storage = s.storage := by
  unfold State.issueSettled; split <;> simp
@[simp] theorem State.issueSettled_wire (s : State) (u : Uop) : (s.issueSettled u).wire = s.wire := by
  unfold State.issueSettled; split <;> simp
@[simp] theorem State.issueSettled_par (s : State) (u : Uop) : (s.issueSettled u).par = s.par := by
  unfold State.issueSettled; split <;> simp
@[simp] theorem State.issueSettled_script (s : State) (u : Uop) : (s.issueSettled u).script = s.script := by
  unfold State.issueSettled; split <;> simp

@[simp] theorem State.runUops_seq (s : State) (us : List Uop) : (s.runUops us).seq = s.seq := by
  induction us generalizing s with
  | nil => rfl
  | cons u us ih => exact (ih (s.issueSettled u)).trans (by simp)
@[simp] theorem State.runUops_opCfg (s : State) (us : List Uop) : (s.runUops us).opCfg = s.opCfg := by
  induction us generalizing s with
  | nil => rfl
  | cons u us ih => exact (ih (s.issueSettled u)).trans (by simp)
@[simp] theorem State.runUops_opBuf (s : State) (us : List Uop) : (s.runUops us).opBuf = s.opBuf := by
  induction us generalizing s with
  | nil => rfl
  | cons u us ih => exact (ih (s.issueSettled u)).trans (by simp)
@[simp] theorem State.runUops_opLen (s : State) (us : List Uop) : (s.runUops us).opLen = s.opLen := by
  induction us generalizing s with
  | nil => rfl
  | cons u us ih => exact (ih (s.issueSettled u)).trans (by simp)
@[simp] theorem State.runUops_opReg (s : State) (us : List Uop) : (s.runUops us).opReg = s.opReg := by
  induction us generalizing s with
  | nil => rfl
  | cons u us ih => exact (ih (s.issueSettled u)).trans (by simp)
@[simp] theorem State.runUops_rxdata (s : State) (us : List Uop) : (s.runUops us).rxdata = s.rxdata := by
  induction us generalizing s with
  | nil => rfl
  | cons u us ih => exact (ih (s.issueSettled u)).trans (by simp)
@[simp] theorem State.runUops_dmaTableValid (s : State) (us : List Uop) : (s.runUops us).dmaTableValid = s.dmaTableValid := by
  induction us generalizing s with
  | nil => rfl
  | cons u us ih => exact (ih (s.issueSettled u)).trans (by simp)
@[simp] theorem State.runUops_initDone (s : State) (us : List Uop) : (s.runUops us).initDone = s.initDone := by
  induction us generalizing s with
  | nil => rfl
  | cons u us ih => exact (ih (s.issueSettled u)).trans (by simp)
@[simp] theorem State.runUops_powered (s : State) (us : List Uop) : (s.runUops us).powered = s.powered := by
  induction us generalizing s with
  | nil => rfl
  | cons u us ih => exact (ih (s.issueSettled u)).trans (by simp)
@[simp] theorem State.runUops_storage (s : State) (us : List Uop) : (s.runUops us).storage = s.storage := by
  induction us generalizing s with
  | nil => rfl
  | cons u us ih => exact (ih (s.issueSettled u)).trans (by simp)
@[simp] theorem State.runUops_wire (s : State) (us : List Uop) : (s.runUops us).wire = s.wire := by
  induction us generalizing s with
  | nil => rfl
  | cons u us ih => exact (ih (s.issueSettled u)).trans (by simp)
@[simp] theorem State.runUops_par (s : State) (us : List Uop) : (s.runUops us).par = s.par := by
  induction us generalizing s with
  | nil => rfl
  | cons u us ih => exact (ih (s.issueSettled u)).trans (by simp)
@[simp] theorem State.runUops_script (s : State) (us : List Uop) : (s.runUops us).script = s.script := by
  induction us generalizing s with
  | nil => rfl
  | cons u us ih => exact (ih (s.issueSettled u)).trans (by simp)

end Sys2Proof.Machine
end

