-- ==== Sys2Proof/Laws/Undef.lean ====
section
/-! SUPPORT. Laws of the sticky set `UNDEF` (R30): membership, that every operation only adds to it, and its order. -/

namespace Sys2Proof.Machine

@[simp] theorem mem_insertUndef (u v : Undef) (us : List Undef) : v ∈ insertUndef u us ↔ v = u ∨ v ∈ us := by
  induction us with
  | nil => simp [insertUndef]
  | cons w us ih =>
    unfold insertUndef
    split
    · simp
    · split
      · rename_i h
        have : u = w := by cases u <;> cases w <;> first | rfl | (simp [Undef.number] at h)
        simp [this]
      · simp only [List.mem_cons, ih]
        tauto

@[simp] theorem insertUndef_ne_nil (u : Undef) (us : List Undef) : insertUndef u us ≠ [] := by
  intro h
  have : u ∈ insertUndef u us := by simp
  simp [h] at this

@[simp] theorem addUndef_false (u : Undef) (us : List Undef) : addUndef false u us = us := rfl

@[simp] theorem addUndef_true (u : Undef) (us : List Undef) : addUndef true u us = insertUndef u us := rfl

@[simp] theorem mem_addUndef (c : Bool) (u v : Undef) (us : List Undef) :
    v ∈ addUndef c u us ↔ (c = true ∧ v = u) ∨ v ∈ us := by
  cases c <;> simp

@[simp] theorem addUndef_eq_nil (c : Bool) (u : Undef) (us : List Undef) : addUndef c u us = [] ↔ c = false ∧ us = [] := by
  cases c <;> simp

theorem insertUndef_insertUndef (u : Undef) (us : List Undef) : insertUndef u (insertUndef u us) = insertUndef u us := by
  induction us with
  | nil => simp [insertUndef]
  | cons v vs ih =>
    by_cases h : u.number < v.number
    · simp [insertUndef, h]
    · by_cases h2 : u.number = v.number
      · simp [insertUndef, h2]
      · simp [insertUndef, h, h2, ih]

/-- A reason that is recorded twice is recorded once. -/
@[simp] theorem addUndef_addUndef (c : Bool) (u : Undef) (us : List Undef) :
    addUndef c u (addUndef c u us) = addUndef c u us := by
  cases c
  · rfl
  · exact insertUndef_insertUndef u us

/-! ### Nothing leaves the set -/

theorem undef_subset_frameStart (b : Byte) (s : State) : s.undef ⊆ (s.frameStart b).undef := by
  intro u hu
  simp [hu]

theorem undef_subset_latch (s : State) : s.undef ⊆ s.latch.undef := by
  intro u hu
  simp [hu]

theorem undef_subset_latchStep (s : State) : s.undef ⊆ s.latchStep.undef := by
  unfold State.latchStep
  split
  · exact fun u hu => by simp [hu]
  · exact undef_subset_latch s

theorem undef_subset_storeNext (u : Uop) (s : State) : s.undef ⊆ (storeNext u s).undef := by
  unfold storeNext
  split
  · exact fun v hv => by simp [hv]
  · exact fun _ hv => hv

theorem undef_subset_transfer (s : State) : s.undef ⊆ s.transfer.undef :=
  undef_subset_frameStart (Memory.read s.mem s.wSrc) s

theorem undef_subset_openTrigger (s : State) : s.undef ⊆ s.openTrigger.undef := by
  intro u hu
  unfold State.openTrigger
  split
  · exact undef_subset_frameStart _ _ hu
  · exact hu

theorem undef_subset_answerTrigger (s : State) : s.undef ⊆ s.answerTrigger.undef := by
  intro u hu
  have hr : ∀ v, u ∈ (s.recordIf true v).undef := by simp [hu]
  unfold State.answerTrigger
  split
  · exact hu
  · exact undef_subset_transfer s hu
  · split
    · exact undef_subset_openTrigger _ (hr _)
    · exact undef_subset_transfer _ (hr _)
  · exact undef_subset_openTrigger _ (hr _)

theorem undef_subset_frameEnd (s : State) : s.undef ⊆ s.frameEnd.undef :=
  fun _ hu => undef_subset_answerTrigger s.completeFrame hu

theorem undef_subset_issue (u : Uop) (s : State) : s.undef ⊆ (issue u s).undef := by
  intro v hv
  cases u
  case txd => simp [issue, uopTxd, hv]
  case descSrc => simp [issue, uopDescSrc, State.recordInFlight, hv]
  case armTx => simp [issue, uopArmTx, State.recordInFlight, hv]
  all_goals exact hv

theorem undef_subset_sharedWrite (w : SharedWrite) (s : State) : s.undef ⊆ (s.sharedWrite w).undef := by
  cases w <;> exact fun v hv => by simp [State.sharedWrite, hv]

theorem undef_subset_foreignWrite (w : ForeignWrite) (s : State) : s.undef ⊆ (s.foreignWrite w).undef := by
  cases w with
  | arm b => cases b <;> exact fun v hv => by simp [State.foreignWrite, hv]
  | udbuf b => exact fun v hv => undef_subset_frameStart b _ (by simp [hv])
  | _ => exact fun v hv => by simp [State.foreignWrite, hv]

/-- A non-owner's write is U12 (R34). -/
theorem u12_mem_foreignWrite (w : ForeignWrite) (s : State) : .u12 ∈ (s.foreignWrite w).undef := by
  cases w with
  | arm b => cases b <;> simp [State.foreignWrite]
  | udbuf b => exact undef_subset_frameStart b _ (by simp)
  | _ => simp [State.foreignWrite]

theorem undef_subset_callerWrite (a : Addr) (b : Byte) (s : State) : s.undef ⊆ (s.callerWrite a b).undef := by
  intro v hv
  unfold State.callerWrite
  split
  · exact undef_subset_frameStart b _ (by simp [hv])
  · simp [hv]

theorem undef_subset_setStorage (rs : List Region) (s : State) : s.undef ⊆ (s.setStorage rs).undef :=
  fun v hv => by simp [State.setStorage, hv]

theorem undef_subset_issueSettled (s : State) (u : Uop) : s.undef ⊆ (s.issueSettled u).undef := by
  unfold State.issueSettled
  split
  · exact undef_subset_issue u s
  · exact fun v hv => undef_subset_issue u _ (undef_subset_latch s hv)

theorem undef_subset_runUops (s : State) (us : List Uop) : s.undef ⊆ (s.runUops us).undef := by
  induction us generalizing s with
  | nil => exact fun _ h => h
  | cons u us ih => exact fun v hv => ih (s.issueSettled u) (undef_subset_issueSettled s u hv)

theorem undef_subset_perform (c : Cmd) (s : State) : s.undef ⊆ (s.perform c).undef :=
  undef_subset_runUops s _

/-! ### The order of the list -/

theorem undefSorted_cons (u : Undef) (us : List Undef) :
    undefSorted (u :: us) = true ↔ (∀ v ∈ us.head?, u.number < v.number) ∧ undefSorted us = true := by
  cases us <;> simp [undefSorted]

theorem undefSorted_insertUndef (u : Undef) {us : List Undef} (h : undefSorted us = true) :
    undefSorted (insertUndef u us) = true := by
  induction us with
  | nil => rfl
  | cons v us ih =>
    have hv := (undefSorted_cons v us).1 h
    unfold insertUndef
    split
    · rw [undefSorted_cons]
      exact ⟨by simpa using ‹_›, h⟩
    · split
      · exact h
      · rw [undefSorted_cons]
        refine ⟨?_, ih hv.2⟩
        cases us with
        | nil =>
          simp only [insertUndef, List.head?_cons, Option.mem_def, Option.some.injEq, forall_eq']
          omega
        | cons w us =>
          have := hv.1 w (by simp)
          unfold insertUndef
          split <;> (try split) <;> simp <;> omega

theorem undefSorted_addUndef (c : Bool) (u : Undef) {us : List Undef} (h : undefSorted us = true) :
    undefSorted (addUndef c u us) = true := by
  cases c
  · exact h
  · exact undefSorted_insertUndef u h

end Sys2Proof.Machine
end

