-- ==== Sys2Proof/Laws/Channel.lean ====
section
/-! SUPPORT. What LATCH, FRAME_START and FRAME_END can do, said once. -/

namespace Sys2Proof.Machine

/-! ### LATCH -/

theorem State.latchRead_of_fresh {s : State} (h : s.latching = none) :
    s.latchRead = { place := if s.dmaTableValid then some s.dmaSlot else none, bytes := [] } := by
  simp [State.latchRead, h]

theorem State.latchRead_of_reading {s : State} {r : LatchRead} (h : s.latching = some r) : s.latchRead = r := by
  simp [State.latchRead, h]

/-- A fresh LATCH with the table installed reads every byte from `DMA_SLOT` on (R150). -/
theorem State.latchByte_of_fresh {s : State} (h : s.latching = none) (ht : s.dmaTableValid = true) (k : Nat) :
    s.latchByte k = Memory.read s.mem (s.dmaSlot + BitVec.ofNat 16 k) := by
  simp [State.latchByte, State.latchRead_of_fresh h, ht]

/-- A byte that is read stays as it was read (R44). -/
theorem State.latchByte_of_read {s : State} {r : LatchRead} (h : s.latching = some r) {k : Nat} (hk : k < r.bytes.length) :
    s.latchByte k = r.bytes[k] := by
  simp [State.latchByte, State.latchRead_of_reading h, hk]

/-- A byte that is not read yet is what `MEM` holds now (R48). -/
theorem State.latchByte_of_unread {s : State} {r : LatchRead} {a : Addr} (h : s.latching = some r) (hp : r.place = some a)
    {k : Nat} (hk : r.bytes.length ≤ k) : s.latchByte k = Memory.read s.mem (a + BitVec.ofNat 16 k) := by
  simp [State.latchByte, State.latchRead_of_reading h, hk, hp]

/-- A fresh LATCH knows the place exactly when the table is installed (U9). -/
theorem State.latchLost_of_fresh {s : State} (h : s.latching = none) : s.latchLost = !s.dmaTableValid := by
  simp only [State.latchLost, State.latchRead_of_fresh h]
  cases s.dmaTableValid <;> rfl

theorem State.latchCount_of_fresh {s : State} (h : s.latching = none) : s.latchCount = 0 := by
  simp [State.latchCount, State.latchRead_of_fresh h]

@[simp] theorem State.readDescByte_latchRead (s : State) :
    s.readDescByte.latchRead = { s.latchRead with bytes := s.latchRead.bytes ++ [s.latchByte s.latchCount] } := rfl

@[simp] theorem State.readDescByte_latchCount (s : State) : s.readDescByte.latchCount = s.latchCount + 1 := by
  simp [State.latchCount]

@[simp] theorem State.readDescByte_latchLost (s : State) : s.readDescByte.latchLost = s.latchLost := rfl

/-- One read made, each of the eight bytes is as LATCH would have it (R44, R150). -/
@[simp] theorem State.readDescByte_latchByte (s : State) (k : Nat) : s.readDescByte.latchByte k = s.latchByte k := by
  have hc : s.latchCount = s.latchRead.bytes.length := rfl
  unfold State.latchByte
  rw [State.readDescByte_latchRead, State.readDescByte_latchCount]
  rcases Nat.lt_trichotomy k s.latchRead.bytes.length with h | h | h
  · rw [List.getElem?_append_left h]
    simp [h]
  · subst h
    simp [State.latchByte, hc]
  · rw [List.getElem?_eq_none (by simp; omega), List.getElem?_eq_none (by omega)]
    dsimp only
    split
    · rfl
    · rename_i hp
      have hl : s.latchLost = true := by simp [State.latchLost, hp]
      have hf : s.readDescByte.free = s.free + 1 := by simp [State.readDescByte, hl]
      rw [hf]
      congr 1
      omega

/-- One of the reads made, LATCH ends as it would have ended (R44, R150). -/
theorem State.latch_readDescByte {s : State} (h : s.latchCount < 8) : s.readDescByte.latch = s.latch := by
  have hf : s.readDescByte.latchForeign = s.latchForeign := by
    simp only [State.latchForeign, State.latchCtl, State.latchDst, State.readDescByte_latchByte, State.readDescByte_par]
    rfl
  unfold State.latch
  simp only [State.latchDst, State.latchCtl, State.readDescByte_latchByte, State.readDescByte_latchLost,
    State.readDescByte_latchCount, hf]
  simp only [State.readDescByte, addUndef_addUndef]
  congr 1
  split
  · omega
  · rfl

/-! ### The transmitter -/

/-- On an idle transmitter no write of `UDBUF` is lost. -/
@[simp] theorem State.writeLost_of_not_busy {s : State} (h : s.txBusy = false) : s.writeLost = false := by
  simp [State.writeLost, h]

@[simp] theorem State.completeFrame_writeLost (s : State) : s.completeFrame.writeLost = false :=
  State.writeLost_of_not_busy rfl

/-- `ARM = 0`: the trigger is ignored (R154 (a)). -/
theorem State.frameEnd_of_disarmed {s : State} (h : s.arm = false) : s.frameEnd = s.completeFrame.retire := by
  simp [State.frameEnd, State.answerTrigger, State.triggerResponse, h]

/-- An armed, latched channel with bytes left moves one (R151, R152). -/
theorem State.frameEnd_of_armed {s : State} (ha : s.arm = true) (hp : s.loadPending = false) (hc : s.wCnt ≠ 0) :
    s.frameEnd = s.completeFrame.transfer := by
  have hc' : ¬ s.wCnt = 0#13 := hc
  simp [State.frameEnd, State.answerTrigger, State.triggerResponse, ha, hp, hc']

/-- A trigger before the latch is U8 (R154 (b)). -/
theorem State.u8_mem_frameEnd {s : State} (ha : s.arm = true) (hp : s.loadPending = true) : .u8 ∈ s.frameEnd.undef := by
  have hr : Undef.u8 ∈ (s.completeFrame.recordIf true .u8).undef := by simp
  unfold State.frameEnd State.answerTrigger
  simp only [State.triggerResponse, State.completeFrame_arm, ha, Bool.not_true, Bool.false_eq_true, ↓reduceIte,
    State.completeFrame_loadPending, hp]
  split
  · exact undef_subset_openTrigger _ hr
  · exact undef_subset_transfer _ hr

/-- A trigger with nothing to move is U10 (R154 (c)). -/
theorem State.u10_mem_frameEnd {s : State} (ha : s.arm = true) (hp : s.loadPending = false) (hc : s.wCnt = 0) :
    .u10 ∈ s.frameEnd.undef := by
  have hr : Undef.u10 ∈ (s.completeFrame.recordIf true .u10).undef := by simp
  unfold State.frameEnd State.answerTrigger
  simp only [State.triggerResponse, State.completeFrame_arm, ha, Bool.not_true, Bool.false_eq_true, ↓reduceIte,
    State.completeFrame_loadPending, hp, State.completeFrame_wCnt, hc]
  exact undef_subset_openTrigger _ hr

/-- What FRAME_END can do. -/
theorem State.frameEnd_cases (s : State) :
    (s.arm = false ∧ s.frameEnd = s.completeFrame.retire)
      ∨ (s.arm = true ∧ s.loadPending = false ∧ s.wCnt ≠ 0 ∧ s.frameEnd = s.completeFrame.transfer)
      ∨ (s.arm = true ∧ s.loadPending = true ∧ .u8 ∈ s.frameEnd.undef)
      ∨ (s.arm = true ∧ s.loadPending = false ∧ s.wCnt = 0 ∧ .u10 ∈ s.frameEnd.undef) := by
  cases ha : s.arm
  · exact .inl ⟨rfl, State.frameEnd_of_disarmed ha⟩
  · cases hp : s.loadPending
    · by_cases hc : s.wCnt = 0
      · exact .inr (.inr (.inr ⟨rfl, rfl, hc, State.u10_mem_frameEnd ha hp hc⟩))
      · exact .inr (.inl ⟨rfl, rfl, hc, State.frameEnd_of_armed ha hp hc⟩)
    · exact .inr (.inr (.inl ⟨rfl, rfl, State.u8_mem_frameEnd ha hp⟩))

end Sys2Proof.Machine
end

