-- ==== Sys2Proof/Laws/Memory.lean ====
section
/-! SUPPORT. Laws of data memory: a byte read after a store, every other byte unchanged, and the canonical form kept. -/

namespace Sys2Proof.Machine

@[simp] theorem Memory.read_nil (a : Addr) : Memory.read [] a = Memory.unlisted := rfl

theorem Memory.read_cons (k : Nat) (v : Byte) (m : Memory) (a : Addr) :
    Memory.read ((k, v) :: m) a = if k = a.toNat then v else Memory.read m a := rfl

theorem Memory.read_erase_same (m : Memory) (a : Addr) : (m.erase a.toNat).read a = Memory.unlisted := by
  induction m with
  | nil => rfl
  | cons c m ih =>
    obtain ⟨j, v⟩ := c
    by_cases h : j = a.toNat <;> simp [Memory.erase, Memory.read, h, ih]

theorem Memory.read_erase_other (m : Memory) {k : Nat} {a : Addr} (h : a.toNat ≠ k) :
    (m.erase k).read a = m.read a := by
  induction m with
  | nil => rfl
  | cons c m ih =>
    obtain ⟨j, v⟩ := c
    by_cases hj : j = k
    · have : ¬ j = a.toNat := by omega
      simp [Memory.erase, Memory.read, hj, ih, hj ▸ this]
    · simp [Memory.erase, Memory.read, hj, ih]

theorem Memory.read_insert_same {m : Memory} {a : Addr} (v : Byte) (h : ∀ c ∈ m, c.1 ≠ a.toNat) :
    (m.insert a.toNat v).read a = v := by
  induction m with
  | nil => simp [Memory.insert, Memory.read]
  | cons c m ih =>
    obtain ⟨j, w⟩ := c
    have hj : j ≠ a.toNat := h (j, w) (by simp)
    have ih := ih fun c hc => h c (by simp [hc])
    by_cases hlt : a.toNat < j <;> simp [Memory.insert, Memory.read, hlt, hj, ih]

theorem Memory.read_insert_other (m : Memory) {k : Nat} {a : Addr} (v : Byte) (h : a.toNat ≠ k) :
    (m.insert k v).read a = m.read a := by
  induction m with
  | nil => simp [Memory.insert, Memory.read, Ne.symm h]
  | cons c m ih =>
    obtain ⟨j, w⟩ := c
    by_cases hlt : k < j <;> simp [Memory.insert, Memory.read, hlt, Ne.symm h, ih]

theorem Memory.erase_keys (m : Memory) (k : Nat) : ∀ c ∈ m.erase k, c.1 ≠ k ∧ c ∈ m := by
  induction m with
  | nil => simp [Memory.erase]
  | cons c m ih =>
    obtain ⟨j, v⟩ := c
    intro c hc
    by_cases hj : j = k
    · simp only [Memory.erase, hj, ↓reduceIte] at hc
      exact ⟨(ih c hc).1, List.mem_cons_of_mem _ (ih c hc).2⟩
    · simp only [Memory.erase, hj, ↓reduceIte, List.mem_cons] at hc
      rcases hc with rfl | hc
      · exact ⟨hj, by simp⟩
      · exact ⟨(ih c hc).1, List.mem_cons_of_mem _ (ih c hc).2⟩

/-- A byte read after a store to the same address is the byte stored. -/
@[simp] theorem Memory.read_write_same (m : Memory) (a : Addr) (v : Byte) : (m.write a v).read a = v := by
  unfold Memory.write
  split
  · rename_i h
    rw [h, Memory.read_erase_same]
  · exact Memory.read_insert_same v fun c hc => (Memory.erase_keys m _ c hc).1

/-- A store leaves every other address as it was. -/
theorem Memory.read_write_other (m : Memory) {a b : Addr} (v : Byte) (h : b ≠ a) : (m.write a v).read b = m.read b := by
  have hk : b.toNat ≠ a.toNat := fun e => h (BitVec.eq_of_toNat_eq e)
  unfold Memory.write
  split
  · exact Memory.read_erase_other m hk
  · rw [Memory.read_insert_other _ v hk, Memory.read_erase_other m hk]

theorem Memory.read_write (m : Memory) (a b : Addr) (v : Byte) :
    (m.write a v).read b = if b = a then v else m.read b := by
  split
  · rename_i h
    rw [h, Memory.read_write_same]
  · rename_i h
    exact Memory.read_write_other m v h

/-! ### The canonical form -/

theorem Memory.wfFrom_mono {lo lo' : Nat} {m : Memory} (h : lo' ≤ lo) (hw : Memory.wfFrom lo m = true) :
    Memory.wfFrom lo' m = true := by
  cases m with
  | nil => rfl
  | cons c m =>
    obtain ⟨k, v⟩ := c
    simp only [Memory.wfFrom, Bool.and_eq_true, decide_eq_true_eq] at hw ⊢
    exact ⟨⟨⟨by omega, hw.1.1.2⟩, hw.1.2⟩, hw.2⟩

theorem Memory.wfFrom_erase {lo : Nat} {m : Memory} (k : Nat) (hw : Memory.wfFrom lo m = true) :
    Memory.wfFrom lo (m.erase k) = true := by
  induction m generalizing lo with
  | nil => rfl
  | cons c m ih =>
    obtain ⟨j, v⟩ := c
    simp only [Memory.wfFrom, Bool.and_eq_true, decide_eq_true_eq] at hw
    by_cases hj : j = k
    · simp only [Memory.erase, hj, ↓reduceIte]
      exact Memory.wfFrom_mono (by omega) (ih hw.2)
    · simp only [Memory.erase, hj, ↓reduceIte, Memory.wfFrom, Bool.and_eq_true, decide_eq_true_eq]
      exact ⟨hw.1, ih hw.2⟩

theorem Memory.wfFrom_insert {lo : Nat} {m : Memory} {k : Nat} {v : Byte} (hk : lo ≤ k) (hb : k < 65536)
    (hv : v ≠ Memory.unlisted) (hm : ∀ c ∈ m, c.1 ≠ k) (hw : Memory.wfFrom lo m = true) :
    Memory.wfFrom lo (m.insert k v) = true := by
  induction m generalizing lo with
  | nil => simp [Memory.insert, Memory.wfFrom, hk, hb, hv]
  | cons c m ih =>
    obtain ⟨j, w⟩ := c
    have hj : j ≠ k := hm (j, w) (by simp)
    simp only [Memory.wfFrom, Bool.and_eq_true, decide_eq_true_eq] at hw
    by_cases hlt : k < j
    · simp only [Memory.insert, hlt, ↓reduceIte, Memory.wfFrom, Bool.and_eq_true, decide_eq_true_eq]
      exact ⟨⟨⟨hk, hb⟩, hv⟩, ⟨⟨by omega, hw.1.1.2⟩, hw.1.2⟩, hw.2⟩
    · simp only [Memory.insert, hlt, ↓reduceIte, Memory.wfFrom, Bool.and_eq_true, decide_eq_true_eq]
      exact ⟨hw.1, ih (by omega) (fun c hc => hm c (by simp [hc])) hw.2⟩

/-- A store keeps the canonical form. -/
theorem Memory.wf_write {m : Memory} (a : Addr) (v : Byte) (hw : m.wf = true) : (m.write a v).wf = true := by
  unfold Memory.wf Memory.write at *
  split
  · exact Memory.wfFrom_erase _ hw
  · rename_i h
    exact Memory.wfFrom_insert (Nat.zero_le _) a.isLt h (fun c hc => (Memory.erase_keys m _ c hc).1)
      (Memory.wfFrom_erase _ hw)

theorem Memory.wf_nil : Memory.wf [] = true := rfl

/-- Consecutive stores keep the canonical form. -/
theorem Memory.wf_writeList {m : Memory} (a : Addr) (bs : List Byte) (hw : m.wf = true) :
    (m.writeList a bs).wf = true := by
  induction bs generalizing m a with
  | nil => exact hw
  | cons b bs ih => exact ih (a + 1) (Memory.wf_write a b hw)

/-- The memory a reset leaves is canonical, whatever cells the launch lists. -/
theorem Memory.wf_ofCells (cells : List Host.Cell) : (Memory.ofCells cells).wf = true := by
  suffices h : ∀ m : Memory, m.wf = true →
      Memory.wf (cells.foldl (fun m c => Memory.write m (BitVec.ofNat 16 c.1) c.2) m) = true from h [] rfl
  induction cells with
  | nil => exact fun _ hw => hw
  | cons c cells ih => exact fun m hw => ih _ (Memory.wf_write _ _ hw)

/-! ### Consecutive stores -/

@[simp] theorem Memory.writeList_nil (m : Memory) (a : Addr) : m.writeList a [] = m := rfl

@[simp] theorem Memory.writeList_cons (m : Memory) (a : Addr) (b : Byte) (bs : List Byte) :
    m.writeList a (b :: bs) = (m.write a b).writeList (a + 1) bs := rfl

/-- Consecutive stores made in two parts. -/
theorem Memory.writeList_append (m : Memory) (a : Addr) (bs cs : List Byte) :
    m.writeList a (bs ++ cs) = (m.writeList a bs).writeList (a + BitVec.ofNat 16 bs.length) cs := by
  induction bs generalizing m a with
  | nil => simp
  | cons b bs ih =>
    simp only [List.cons_append, Memory.writeList_cons, ih, List.length_cons]
    congr 1
    rw [BitVec.add_assoc]; congr 1
    apply BitVec.eq_of_toNat_eq; simp; omega

/-- Consecutive stores leave every address outside the stored bytes as it was. -/
theorem Memory.read_writeList_other (m : Memory) (a : Addr) (bs : List Byte) {x : Addr}
    (h : ∀ k < bs.length, x ≠ a + BitVec.ofNat 16 k) : (m.writeList a bs).read x = m.read x := by
  induction bs generalizing m a with
  | nil => rfl
  | cons b bs ih =>
    rw [Memory.writeList_cons, ih]
    · exact Memory.read_write_other m b (by simpa using h 0 (by simp))
    · intro k hk
      have := h (k + 1) (by simpa using hk)
      rwa [show a + BitVec.ofNat 16 (k + 1) = a + 1 + BitVec.ofNat 16 k by
        rw [BitVec.add_assoc]; congr 1
        apply BitVec.eq_of_toNat_eq; simp; omega] at this

/-- Consecutive stores, no more than memory has bytes, are each read back. -/
theorem Memory.read_writeList_at (m : Memory) (a : Addr) (bs : List Byte) (hl : bs.length ≤ 65536) {k : Nat}
    (hk : k < bs.length) : (m.writeList a bs).read (a + BitVec.ofNat 16 k) = bs[k] := by
  induction bs generalizing m a k with
  | nil => simp at hk
  | cons b bs ih =>
    simp only [List.length_cons] at hl hk
    cases k with
    | zero =>
      rw [Memory.writeList_cons, Memory.read_writeList_other]
      · simp
      · intro j hj h
        have := congrArg BitVec.toNat h
        simp at this
        omega
    | succ k =>
      rw [Memory.writeList_cons, show a + BitVec.ofNat 16 (k + 1) = a + 1 + BitVec.ofNat 16 k by
        rw [BitVec.add_assoc]; congr 1
        apply BitVec.eq_of_toNat_eq; simp; omega]
      exact ih _ _ (by omega) (by omega)

end Sys2Proof.Machine
end

