-- ==== Sys2Proof/Laws/Step.lean ====
section
/-! SUPPORT. What the sequencer and a step can do, said once: if they answer a next state, then one of these cases holds. -/

namespace Sys2Proof.Machine

/-- The uop list of a command depends on the parameters and `OP_CFG` only. -/
theorem uopsOf_congr {s t : State} (hp : t.par = s.par) (hc : t.opCfg = s.opCfg) (c : Cmd) : uopsOf t c = uopsOf s c := by
  cases c <;> simp [uopsOf, hp, hc]

@[simp] theorem uopsOf_issue (u : Uop) (s : State) (c : Cmd) : uopsOf (issue u s) c = uopsOf s c :=
  uopsOf_congr (issue_par u s) (issue_opCfg u s) c

@[simp] theorem uopsOf_latch (s : State) (c : Cmd) : uopsOf s.latch c = uopsOf s c :=
  uopsOf_congr (State.latch_par s) (State.latch_opCfg s) c

/-- The uop at `SEQ`'s position as one step. -/
theorem State.uopStep_eq {s : State} {c : Cmd} {k : Nat} {u : Uop} (hs : s.seq = .run c (k + 1))
    (hu : (uopsOf s c)[k]? = some u) :
    s.uopStep = if s.uopRefused u then .refused .reservedReadIndex
      else if s.uopEnabled u then .next ((issue u s).advance c k) else .fault .stepNotEnabled := by
  unfold State.uopStep
  rw [hs]
  simp only [hu]

/-- A uop as one step: which uop it was, that it was enabled, and the state it leaves (R12). -/
theorem State.uopStep_next {s s' : State} (h : s.uopStep = .next s') :
    ∃ c k u, s.seq = .run c (k + 1) ∧ (uopsOf s c)[k]? = some u ∧ s.uopRefused u = false ∧ s.uopEnabled u = true
      ∧ s' = (issue u s).advance c k := by
  unfold State.uopStep at h
  split at h
  · cases h
  · cases h
  · rename_i c k hs
    split at h
    · cases h
    · rename_i u hu
      split at h
      · cases h
      · rename_i hr
        split at h
        · rename_i he
          exact ⟨c, k, u, hs, hu, by simpa using hr, he, by simpa using h.symm⟩
        · cases h

/-- A byte store as one step: of which uop, and that it is not the last (R44). -/
theorem State.storeStep_next {s s' : State} (h : s.storeStep = .next s') :
    ∃ u, s.nextUop = some u ∧ s.stored + 1 < storeCount u ∧ s' = storeNext u s := by
  unfold State.storeStep at h
  split at h
  · cases h
  · split at h
    · exact ⟨_, ‹_›, ‹_›, by simpa using h.symm⟩
    · cases h

/-- The sequencer goes on: a uop, or the LATCH that SETTLE waits for (R110). -/
theorem State.sequencerStep_next {s s' : State} (h : s.sequencerStep = .next s') :
    s.uopStep = .next s' ∨ (s.nextUop = some .settle ∧ s.loadPending = true ∧ s' = s.latch) := by
  unfold State.sequencerStep at h
  split at h
  · cases h
  · rename_i u hu
    split at h
    · exact .inl h
    · rename_i he
      simp only [State.uopEnabled, Bool.not_eq_true', Bool.not_eq_false, Bool.and_eq_true, decide_eq_true_eq] at he
      exact .inr ⟨he.1 ▸ hu, he.2, by simpa using h.symm⟩

/-- Nothing asked for: the sequencer, a pending LATCH, the end of a frame, or nothing (R169). -/
theorem State.progress_next {s s' : State} (h : s.progress = .next s') :
    s.uopStep = .next s' ∨ (s.nextUop = some .settle ∧ s.loadPending = true ∧ s' = s.latch)
      ∨ (s.seq = .idle ∧ s.loadPending = true ∧ s' = s.latch)
      ∨ (s.seq = .idle ∧ s.loadPending = false ∧ s.txBusy = true ∧ s' = s.frameEnd)
      ∨ (s.seq = .idle ∧ s.loadPending = false ∧ s.txBusy = false ∧ s' = s) := by
  unfold State.progress at h
  split at h
  · rcases State.sequencerStep_next h with h | h
    · exact .inl h
    · exact .inr (.inl h)
  · rename_i hs
    cases hp : s.loadPending <;> cases hb : s.txBusy <;> simp [hp, hb] at h <;> subst h <;> simp [hs]

@[simp] theorem whenEnabled_next {e : Bool} {s s' : State} : whenEnabled e s = .next s' ↔ e = true ∧ s = s' := by
  cases e <;> simp [whenEnabled]

/-- What a step can do, by the head of the script (R169). -/
theorem step_next {s s' : State} (h : step s = .next s') :
    (s.script = [] ∧ s.progress = .next s')
      ∨ (∃ w ms, s.script = .command w :: ms ∧ s.seq = .idle
          ∧ ∃ i, decode w = .ok i ∧ exec i { s with script := ms } = .next s')
      ∨ (∃ w ms, s.script = .present w :: ms ∧ s.seq = .idle
          ∧ ∃ i, decode w = .ok i ∧ acceptCommand i { s with script := ms } = .next s')
      ∨ (s.seq ≠ .idle ∧ s.progress = .next s')
      ∨ (∃ m ms, s.script = m :: ms ∧ State.agentMove m { s with script := ms } = .next s') := by
  unfold step at h
  split at h
  · exact .inl ⟨‹_›, h⟩
  · rename_i w ms hsc
    split at h
    · unfold onCommand at h
      split at h
      · exact .inr (.inl ⟨w, ms, hsc, ‹_›, _, ‹_›, h⟩)
      · cases h
    · exact .inr (.inr (.inr (.inl ⟨‹_›, h⟩)))
  · rename_i w ms hsc
    split at h
    · unfold onCommand at h
      split at h
      · exact .inr (.inr (.inl ⟨w, ms, hsc, ‹_›, _, ‹_›, h⟩))
      · cases h
    · exact .inr (.inr (.inr (.inl ⟨‹_›, h⟩)))
  · exact .inr (.inr (.inr (.inr ⟨_, _, ‹_›, h⟩)))

/-- What an accepted or run command can do: which command it was, and the state that was accepted. -/
theorem exec_next {i : Instr} {s s' : State} (hs : s.seq = .idle) (h : exec i s = .next s') :
    (i = .init ∧ s' = s.acceptInit.perform .init)
      ∨ (∃ cfg, i = .setMode cfg ∧ s' = (s.acceptSetMode cfg).perform .setMode)
      ∨ (∃ buf len, i = .startTx buf len ∧ s' = (s.acceptStartTx buf len).perform .startTx)
      ∨ (∃ reg, i = .rdReg reg ∧ (s.regval reg).isNone = false ∧ s' = (s.acceptRdReg reg).perform .rdReg) := by
  cases i with
  | init => exact .inl ⟨rfl, by simpa [exec, execInit, hs] using h.symm⟩
  | setMode cfg => exact .inr (.inl ⟨cfg, rfl, by simpa [exec, execSetMode, hs] using h.symm⟩)
  | startTx buf len => exact .inr (.inr (.inl ⟨buf, len, rfl, by simpa [exec, execStartTx, hs] using h.symm⟩))
  | rdReg reg =>
    refine .inr (.inr (.inr ⟨reg, rfl, ?_⟩))
    cases hr : (s.regval reg).isNone <;> simp [exec, execRdReg, hs, hr] at h
    exact ⟨rfl, h.symm⟩

end Sys2Proof.Machine
end

