-- ==== Sys2Proof/Laws/Commands.lean ====
section
/-! SUPPORT. Each command run whole as the composition of its uops, and a relation that every part of a step keeps is kept
by every step. -/

namespace Sys2Proof.Machine

theorem exec_init {s : State} (h : s.seq = .idle) : exec .init s = .next (s.acceptInit.perform .init) := by
  simp [exec, execInit, h]

theorem exec_setMode {s : State} (cfg : Byte) (h : s.seq = .idle) :
    exec (.setMode cfg) s = .next ((s.acceptSetMode cfg).perform .setMode) := by
  simp [exec, execSetMode, h]

theorem exec_startTx {s : State} (buf : Addr) (len : Count) (h : s.seq = .idle) :
    exec (.startTx buf len) s = .next ((s.acceptStartTx buf len).perform .startTx) := by
  simp [exec, execStartTx, h]

theorem exec_rdReg {s : State} (reg : BitVec 4) (h : s.seq = .idle) (hr : (s.regval reg).isNone = false) :
    exec (.rdReg reg) s = .next ((s.acceptRdReg reg).perform .rdReg) := by
  simp [exec, execRdReg, h, hr]

/-- SET_MODE and step 3 of INIT. -/
def applyMode (cfg : Byte) (s : State) : State := uopPrioWr (uopOrderWr cfg (uopUfmtWr cfg s))

/-- Steps 4 and 5 of INIT, with the LATCH that SETTLE waits for. -/
def installChannel (s : State) : State := uopSettle (uopSlot (uopDescInit s)).armChannel.latch

theorem State.perform_setMode (s : State) : s.perform .setMode = (applyMode s.opCfg s).finish .setMode := rfl

theorem State.perform_startTx (s : State) :
    s.perform .startTx = (uopTxd (uopSettle (uopArmTx (uopDescLen (uopDescSrc s))).latch)).finish .startTx := rfl

theorem State.perform_rdReg (s : State) : s.perform .rdReg = (uopReadReg s).finish .rdReg := rfl

theorem State.perform_init_off {s : State} (h : s.par.pTelemetryRx = false) :
    s.perform .init
      = (installChannel (applyMode (preset s.par) (uopBaudE (uopBaudM (uopModeEn (uopPmDir (uopPmFunc (txPin s.par)
          (uopPmLoc s)))))))).finish .init := by
  simp only [State.perform, uopsOf, initUops, initPinUops, initRxUops, h]
  rfl

theorem State.perform_init_on {s : State} (h : s.par.pTelemetryRx = true) :
    s.perform .init
      = (uopGieSet (uopRxIeSet (uopReSet (uopRxIfClr (installChannel (applyMode (preset s.par) (uopBaudE (uopBaudM
          (uopModeEn (uopPmDir (uopPmFunc (rxPin s.par) (uopPmFunc (txPin s.par) (uopPmLoc s))))))))))))).finish .init := by
  simp only [State.perform, uopsOf, initUops, initPinUops, initRxUops, h]
  rfl

/-! ### Uops of which nothing is done yet -/

theorem joinBytes_hiByte_loByte (a : Addr) : joinBytes (hiByte a) (loByte a) = a := by
  simp only [joinBytes, hiByte, loByte]
  apply BitVec.eq_of_getLsbD_eq
  intro i hi
  rw [BitVec.getLsbD_append]
  by_cases h : i < 8
  · simp [h]
  · have h2 : i - 8 < 8 := by omega
    have h3 : 8 + (i - 8) = i := by omega
    simp [h, h2, h3]

/-- The stores of a uop made at once (R107, R131, R132). -/
theorem State.storeBytes_of_start {s : State} (h : s.stored = 0) (a : Addr) (bs : List Byte) :
    s.storeBytes a bs
      = { s with
          mem := Memory.writeList s.mem a bs
          effects := s.effects ++ (List.range bs.length).zipWith (fun k b => Effect.mem (a + BitVec.ofNat 16 k) b) bs } := by
  cases s
  subst h
  simp [State.storeBytes]

/-- SLOT made at once (R108). -/
theorem uopSlot_of_start {s : State} (h : s.stored = 0) :
    uopSlot s = { s with dmaSlot := s.par.descAddr, effects := s.effects ++ [.slot s.par.descAddr] } := by
  cases s
  subst h
  simp [uopSlot, joinBytes_hiByte_loByte]

/-- A uop ends with nothing of the next one done. -/
theorem issue_stored_of_start {s : State} (h : s.stored = 0) (u : Uop) : (issue u s).stored = 0 := by
  cases u with
  | descInit => rfl
  | slot => rfl
  | descSrc => rfl
  | descLen => rfl
  | arm => simp [issue, h]
  | armTx => simp [issue, uopArmTx, State.recordInFlight, h]
  | txd => simp [issue, uopTxd, h]
  | settle => simp [issue, uopSettle, h]
  | _ => exact h

/-! ### Uops of which some stores are made (R44) -/

theorem hiByte_joinBytes (a b : Byte) : hiByte (joinBytes a b) = a := by
  simp only [joinBytes, hiByte]
  apply BitVec.eq_of_getLsbD_eq
  intro i hi
  rw [BitVec.getLsbD_extractLsb', BitVec.getLsbD_append]
  simp [hi]

/-- A uop that stores bytes of `MEM` makes one store for each (R43). -/
theorem memStores_length {u : Uop} {s : State} {a : Addr} {bs : List Byte} (h : memStores u s = some (a, bs)) :
    bs.length = storeCount u := by
  cases u <;> simp [memStores, storeCount] at h ⊢ <;> obtain ⟨-, rfl⟩ := h <;> rfl

/-- The next store made, the rest ends as it would have ended. -/
theorem State.storeBytes_of_part {s : State} (a : Addr) {bs : List Byte} (us : List Undef) (h : s.stored + 1 < bs.length) :
    State.storeBytes a bs { s with
        mem := Memory.writeList s.mem (a + BitVec.ofNat 16 s.stored) ((bs.drop s.stored).take 1)
        undef := us
        stored := s.stored + 1 }
      = { s.storeBytes a bs with undef := us } := by
  simp only [State.storeBytes]
  congr 1
  have hd : bs.drop s.stored = ((bs.drop s.stored).take 1) ++ bs.drop (s.stored + 1) := by
    conv_lhs => rw [← List.take_append_drop 1 (bs.drop s.stored)]
    rw [List.drop_drop]
  have hl : ((bs.drop s.stored).take 1).length = 1 := by simp; omega
  conv_rhs => rw [hd]
  rw [Memory.writeList_append, hl, BitVec.add_assoc]
  congr 2
  apply BitVec.eq_of_toNat_eq
  simp

/-- A uop of which one more store is made ends as it would have ended (R44). -/
theorem issue_storeNext {u : Uop} {s : State} (h : s.stored + 1 < storeCount u) : issue u (storeNext u s) = issue u s := by
  cases u with
  | descInit => exact State.storeBytes_of_part s.par.descAddr s.undef (by simpa [descInitBytes, storeCount] using h)
  | slot =>
    have h0 : s.stored = 0 := by simp only [storeCount] at h; omega
    simp only [issue, uopSlot, storeNext, memStores, h0, hiByte_joinBytes]
    simp
  | descSrc =>
    have hn : (storeNext .descSrc s).recordInFlight = { s with
        mem := Memory.writeList s.mem (s.par.descAddr + BitVec.ofNat 16 s.stored) (((descSrcBytes s).drop s.stored).take 1)
        undef := addUndef (decide (s.txState ≠ .idle)) .u1 s.undef
        stored := s.stored + 1 } := by
      simp only [State.recordInFlight, State.recordIf, storeNext, memStores, decide_true, Bool.true_and, addUndef_addUndef]
    show State.storeBytes s.par.descAddr (descSrcBytes s) (storeNext .descSrc s).recordInFlight = _
    rw [hn]
    exact State.storeBytes_of_part s.par.descAddr _ (by simpa [descSrcBytes, storeCount] using h)
  | descLen => exact State.storeBytes_of_part (s.par.descAddr + 4) s.undef (by simpa [descLenBytes, storeCount] using h)
  | _ => simp only [storeCount] at h; omega

/-- One more step of a run. -/
theorem run_succ {s t : State} (k : Nat) (h : step s = .next t) : core.run (k + 1) s = core.run k t := by
  have key : ∀ (M : Host.Core) (a b : M.State), M.step a = .next b → M.run (k + 1) a = M.run k b := by
    intro M a b hab
    simp [Host.Core.run, hab]
  exact key core s t h

/-! ### What every step keeps -/

/-- A reflexive and transitive relation that every part of a step keeps, FRAME_END and the environment's moves apart. -/
structure Kept (R : State → State → Prop) : Prop where
  refl : ∀ s, R s s
  trans : ∀ a b c, R a b → R b c → R a c
  script : ∀ s ms, R s { s with script := ms }
  issue : ∀ u s, R s (issue u s)
  storeNext : ∀ u s, R s (storeNext u s)
  latch : ∀ s, R s s.latch
  readDescByte : ∀ s, R s s.readDescByte
  advance : ∀ c k s, R s (s.advance c k)
  finish : ∀ c s, R s (s.finish c)
  acceptInit : ∀ s, R s s.acceptInit
  acceptSetMode : ∀ cfg s, R s (s.acceptSetMode cfg)
  acceptStartTx : ∀ buf len s, R s (s.acceptStartTx buf len)
  acceptRdReg : ∀ reg s, R s (s.acceptRdReg reg)

theorem Kept.issueSettled {R : State → State → Prop} (h : Kept R) (u : Uop) (s : State) : R s (s.issueSettled u) := by
  unfold State.issueSettled
  split
  · exact h.issue u s
  · exact h.trans _ _ _ (h.latch s) (h.issue u _)

theorem Kept.runUops {R : State → State → Prop} (h : Kept R) (us : List Uop) (s : State) : R s (s.runUops us) := by
  induction us generalizing s with
  | nil => exact h.refl s
  | cons u us ih => exact h.trans _ _ _ (h.issueSettled u s) (ih _)

theorem Kept.perform {R : State → State → Prop} (h : Kept R) (c : Cmd) (s : State) : R s (s.perform c) :=
  h.trans _ _ _ (h.runUops _ s) (h.finish c _)

theorem Kept.latchStep {R : State → State → Prop} (h : Kept R) (s : State) : R s s.latchStep := by
  unfold State.latchStep
  split
  · exact h.readDescByte s
  · exact h.latch s

theorem Kept.uopStep {R : State → State → Prop} (h : Kept R) {s s' : State} (hs : s.uopStep = .next s') : R s s' := by
  obtain ⟨c, k, u, -, -, -, -, rfl⟩ := State.uopStep_next hs
  exact h.trans _ _ _ (h.issue u s) (h.advance c k _)

theorem Kept.progress {R : State → State → Prop} (h : Kept R) {s s' : State} (hs : s.progress = .next s')
    (hf : s.txBusy = true → s' = s.frameEnd → R s s') : R s s' := by
  rcases State.progress_next hs with hs | ⟨-, -, rfl⟩ | ⟨-, -, rfl⟩ | ⟨-, -, hb, rfl⟩ | ⟨-, -, -, rfl⟩
  · exact h.uopStep hs
  · exact h.latch s
  · exact h.latch s
  · exact hf hb rfl
  · exact h.refl _

theorem Kept.exec {R : State → State → Prop} (h : Kept R) {i : Instr} {s s' : State} (hi : s.seq = .idle)
    (hs : exec i s = .next s') : R s s' := by
  rcases exec_next hi hs with ⟨-, rfl⟩ | ⟨_, -, rfl⟩ | ⟨_, _, -, rfl⟩ | ⟨_, -, -, rfl⟩
  · exact h.trans _ _ _ (h.acceptInit s) (h.perform _ _)
  · exact h.trans _ _ _ (h.acceptSetMode _ s) (h.perform _ _)
  · exact h.trans _ _ _ (h.acceptStartTx _ _ s) (h.perform _ _)
  · exact h.trans _ _ _ (h.acceptRdReg _ s) (h.perform _ _)

theorem Kept.accept {R : State → State → Prop} (h : Kept R) {i : Instr} {s s' : State}
    (hs : acceptCommand i s = .next s') : R s s' := by
  cases i <;> simp only [acceptCommand] at hs
  · cases hs; exact h.acceptInit s
  · cases hs; exact h.acceptSetMode _ s
  · cases hs; exact h.acceptStartTx _ _ s
  · split at hs
    · cases hs
    · cases hs; exact h.acceptRdReg _ s

/-- Every step keeps such a relation where FRAME_END and the environment's moves do. -/
theorem Kept.step {R : State → State → Prop} (h : Kept R) {s s' : State} (hs : step s = .next s')
    (hf : ∀ t, (t = s ∨ ∃ ms, t = { s with script := ms }) → s.txBusy = true → s' = t.frameEnd → R s s')
    (hm : ∀ m ms, s.script = m :: ms → State.agentMove m { s with script := ms } = .next s' → m ≠ .uop → m ≠ .store →
      m ≠ .latch → m ≠ .latchByte → m ≠ .frameEnd → R s s') : R s s' := by
  rcases step_next hs with ⟨-, hp⟩ | ⟨w, ms, -, hi, i, -, he⟩ | ⟨w, ms, -, -, i, -, ha⟩ | ⟨-, hp⟩ | ⟨m, ms, hsc, hn⟩
  · exact h.progress hp fun hb he => hf s (.inl rfl) hb he
  · exact h.trans _ _ _ (h.script s ms) (h.exec hi he)
  · exact h.trans _ _ _ (h.script s ms) (h.accept ha)
  · exact h.progress hp fun hb he => hf s (.inl rfl) hb he
  · cases m with
    | uop => exact h.trans _ _ _ (h.script s ms) (h.uopStep hn)
    | latch =>
      obtain ⟨-, rfl⟩ := whenEnabled_next.1 hn
      exact h.trans _ _ _ (h.script s ms) (h.latch _)
    | frameEnd =>
      obtain ⟨hb, he⟩ := whenEnabled_next.1 hn
      exact hf _ (.inr ⟨ms, rfl⟩) hb he.symm
    | store =>
      obtain ⟨u, -, -, rfl⟩ := State.storeStep_next hn
      exact h.trans _ _ _ (h.script s ms) (h.storeNext u _)
    | latchByte =>
      obtain ⟨-, rfl⟩ := whenEnabled_next.1 hn
      exact h.trans _ _ _ (h.script s ms) (h.latchStep _)
    | _ => exact hm _ ms hsc hn (by simp) (by simp) (by simp) (by simp) (by simp)

end Sys2Proof.Machine
end

