-- ==== Sys2Proof/Laws/Flags.lean ====
section
/-! SUPPORT. Masked writes and bit writes, bit by bit. -/

namespace Sys2Proof.Machine

/-- A masked write takes the bits under the mask from the value and keeps every other bit (R8). -/
theorem getLsbD_maskedWrite (old mask v : Byte) (i : Nat) :
    (maskedWrite old mask v).getLsbD i = if mask.getLsbD i then v.getLsbD i else old.getLsbD i := by
  by_cases hi : i < 8
  · rw [BitVec.getLsbD_eq_getElem hi, BitVec.getLsbD_eq_getElem hi, BitVec.getLsbD_eq_getElem hi]
    cases hm : mask[i] <;> simp [maskedWrite, hm, hi]
  · simp [maskedWrite, BitVec.getLsbD_of_ge _ _ (Nat.le_of_not_lt hi)]

/-- Two masked writes under one mask: the second wins. -/
theorem maskedWrite_maskedWrite (old mask v w : Byte) :
    maskedWrite (maskedWrite old mask v) mask w = maskedWrite old mask w := by
  apply BitVec.eq_of_getLsbD_eq
  intro i _
  simp only [getLsbD_maskedWrite]
  split <;> rfl

/-- Writing one bit sets that bit and keeps every other. -/
theorem getLsbD_putBit {n : Nat} (v : BitVec n) (i : Nat) (b : Bool) {j : Nat} (hj : j < n) :
    (putBit v i b).getLsbD j = if j = i then b else v.getLsbD j := by
  cases b <;> by_cases h : j = i
  · subst h; simp [putBit, hj]
  · simp [putBit, hj, h]
  · subst h; simp [putBit, hj]
  · simp [putBit, hj, h]

/-- Only the indices 4 and 12 to 15 are refused (R182). -/
theorem regval_isNone (s : State) (r : BitVec 4) : (s.regval r).isNone = true ↔ r = 4 ∨ 12 ≤ r.toNat := by
  have hr : r ∈ (List.range 16).map (BitVec.ofNat 4) :=
    List.mem_map.2 ⟨r.toNat, List.mem_range.2 r.isLt, by simp⟩
  revert hr
  simp only [List.range, List.range.loop, List.map_cons, List.map_nil, List.mem_cons, List.not_mem_nil, or_false]
  rintro (h | h | h | h | h | h | h | h | h | h | h | h | h | h | h | h) <;> subst h <;> simp [State.regval]

end Sys2Proof.Machine
end

