-- ==== Sys2Proof/Laws/PerInstr.lean ====
section
/-! SUPPORT. A statement about every command as syntax, one lemma per constructor: the word that encodes it matches the
row of the opcode table it belongs to (R60 to R64, R80). -/

namespace Sys2Proof.Laws.EncodeRow

/-- The encoding of `i` is a word of `i`'s row. -/
def Statement (i : Instr) : Prop := encode i &&& i.row.mask = i.row.pattern

theorem init : Statement .init := rfl

theorem setMode (cfg : Byte) : Statement (.setMode cfg) := by
  unfold Statement
  revert cfg
  decide

theorem startTx (buf : Addr) (len : Count) : Statement (.startTx buf len) := by
  apply BitVec.eq_of_getLsbD_eq
  intro i hi
  show ((0b011#3 ++ len ++ buf : BitVec (3 + 13 + 16)) &&& 0xE0000000#32).getLsbD i = (0x60000000#32).getLsbD i
  rw [BitVec.getLsbD_and, BitVec.getLsbD_append, BitVec.getLsbD_append]
  by_cases h : i < 29
  · have hm : ∀ k : Fin 29, (0xE0000000#32).getLsbD k = false ∧ (0x60000000#32).getLsbD k = false := by decide
    rw [(hm ⟨i, h⟩).1, (hm ⟨i, h⟩).2, Bool.and_false]
  · interval_cases i <;> simp

theorem rdReg (reg : BitVec 4) : Statement (.rdReg reg) := by
  unfold Statement
  revert reg
  decide

end Sys2Proof.Laws.EncodeRow
end

