-- ==== Sys2Proof/Tests/Slice0.lean ====
section
/-! SUPPORT. Tests on the spec's own vectors (95_test_vectors.md, named by section), and for each obligation with
hypotheses a state and operands that meet them all. -/

namespace Sys2Proof.Tests

open Sys2Proof.Machine

/-! ### Small states -/

/-- The next state, where there is one. -/
def next? (o : Host.Outcome State Fault Refusal) : Option State :=
  match o with
  | .next s => some s
  | .fault _ => none
  | .refused _ => none

/-- Does a run end in a refusal for this reason? -/
def refuses (o : Host.Outcome State Fault Refusal) (r : Refusal) : Bool :=
  match o with
  | .next _ => false
  | .fault _ => false
  | .refused q => decide (q = r)

/-- Right after reset, the table installed, `UCSR = 0x00` and `IRQC = 0x20` as in X7 and P2. -/
def fresh : State := { State.reset with dmaTableValid := true, rxIf := true }

/-- `fresh` built with the inverted preset and telemetry reception (P2). -/
def freshTelemetry : State :=
  { fresh with par := { Params.sample with pInverted := true, pTelemetryRx := true } }

/-- After INIT with the example parameters (2.4), the buffer of X2 in memory. -/
def ready : State :=
  { State.reset with
    dmaTableValid := true
    initDone := true
    ufmt := 0x9E
    ugcr := 0x0C
    ubaud := 0x22
    prio := 1
    pmFunc := 1
    pmDir := 1
    dmaSlot := 0x0F00
    arm := true
    wDst := 0xDFC1
    wCtl := blockCtl Params.sample
    mem := [(0x0F02, 0xDF), (0x0F03, 0xC1), (0x0F06, 0x0F), (0x0F07, 0x40), (0x1000, 0xAA), (0x1001, 0x01), (0x1002, 0x02),
      (0x1003, 0x03)] }

/-- Between START_TX and the first FRAME_END of P1 (steps 6 and 7): `0xAA` on the wire, three bytes to come. -/
def sending : State :=
  { ready with
    mem := [(0x0F00, 0x10), (0x0F01, 0x01), (0x0F02, 0xDF), (0x0F03, 0xC1), (0x0F05, 0x03), (0x0F06, 0x0F), (0x0F07, 0x40),
      (0x1000, 0xAA), (0x1001, 0x01), (0x1002, 0x02), (0x1003, 0x03)]
    wSrc := 0x1001
    wCnt := 3
    txBusy := true
    txShift := 0xAA
    txFmt := 0x1E
    txState := .transmitting }

/-- The last byte of the transfer on the wire (P1 before step 10). -/
def lastFrame : State := { sending with arm := false, wCnt := 0, wSrc := 0x1004, txShift := 0x03 }

/-- START_TX of P1 after t3: armed, the LATCH still to come. -/
def armedPending : State :=
  { sending with
    seq := .run .startTx 4, opBuf := 0x1000, opLen := 3, txBusy := false, txState := .armed, loadPending := true, wSrc := 0
    wCnt := 0 }

/-- START_TX of P1 before t5: the LATCH is taken. -/
def armedLatched : State :=
  { armedPending with seq := .run .startTx 5, loadPending := false, wSrc := 0x1001, wCnt := 3 }

/-- START_TX of P1 before t1. -/
def descSrcNext : State := { ready with seq := .run .startTx 1, opBuf := 0x1000, opLen := 3 }

/-- START_TX of P1 at t4, the first of the eight descriptor bytes read. -/
def halfLatched : State := { armedPending with latching := some ⟨some 0x0F00, [0x10]⟩ }

/-- The caller owns four bytes only. -/
def smallStorage : State := { ready with storage := [⟨0x1000, 4⟩] }

/-! ### WellFormed refuses an ill-formed term -/

theorem test_wf_unassigned_index : Instr.wellFormed (.rdReg 4) = false := by decide
theorem test_wf_index_above_map : Instr.wellFormed (.rdReg 12) = false ∧ Instr.wellFormed (.rdReg 11) = true := by decide
theorem test_wf_zero_length : Instr.wellFormed (.startTx 0x1000 0) = false := by decide

/-! ### Decoding (2.1): each word bit by bit from R61 to R64, then the reserved words -/

theorem test_decode_init : decode 0b001_00000000000000000000000000000 = .ok .init := by decide
theorem test_decode_setMode : decode 0b010_000000000000000000000_00011110 = .ok (.setMode 0x1E) := by decide
theorem test_decode_startTx : decode 0b011_0000000000011_0001000000000000 = .ok (.startTx 0x1000 3) := by decide
theorem test_decode_startTx_limits :
    decode 0x7FFF2000 = .ok (.startTx 0x2000 8191) ∧ decode 0x6001FFFE = .ok (.startTx 0xFFFE 1)
      ∧ decode 0x60001000 = .ok (.startTx 0x1000 0) := by decide
theorem test_decode_rdReg : decode 0b100_0000000000000000000000000_1011 = .ok (.rdReg 11) := by decide
theorem test_decode_reserved :
    ([0x00000000, 0x20000001, 0x40000100, 0x80000010, 0xA0000000, 0xC0000000, 0xE0000000, 0xFFFFFFFF] : List CmdWord).map
        (fun w => (decodeTableWord 32 w.toNat)) = List.replicate 8 none := by decide
theorem test_encode :
    encode .init = 0x20000000 ∧ encode (.setMode 0xFF) = 0x400000FF ∧ encode (.startTx 0x1000 3) = 0x60031000
      ∧ encode (.rdReg 11) = 0x8000000B := by decide

/-! ### One step of each command -/

/-- 2.3, first and third row. -/
theorem test_setMode :
    (next? (exec (.setMode 0x82) ready)).map (fun t => (t.ufmt, t.ugcr, t.prio, t.effects))
        = some (0x82, 0x2C, 1, [.reg .ufmt 0x7F 0x02, .reg .ugcr 0x20 0x20, .irq .prio 1])
      ∧ (next? (exec (.setMode 0xFF) { State.reset with ugcr := 0x1F, prio := 3 })).map (fun t => (t.ufmt, t.ugcr, t.prio))
        = some (0x7F, 0x3F, 1) := by decide

/-- 2.4: the registers, the descriptor and the number of events after INIT. -/
theorem test_init :
    (next? (exec .init fresh)).map (fun t => (t.ufmt, t.ugcr, t.ubaud, t.dmaSlot)) = some (0x9E, 0x0C, 0x22, 0x0F00)
      ∧ (next? (exec .init fresh)).map (fun t => (t.mem, t.effects.length, t.wDst, t.undef))
        = some ([(0x0F02, 0xDF), (0x0F03, 0xC1), (0x0F06, 0x0F), (0x0F07, 0x40)], 20, 0xDFC1, []) := by decide

/-- X7, P2: with telemetry 25 events, `IRQC = 0xC1` (the stale flag is gone) and `UCSR = 0x40`. -/
theorem test_init_telemetry :
    (next? (exec .init freshTelemetry)).map (fun t => (t.ufmt, t.irqc, t.ucsr, t.pmFunc, t.effects.length))
      = some (0xBD, 0xC1, 0x40, 0x03, 25) := by decide

/-- X1, X2: the seven events of START_TX and what the channel has latched. -/
theorem test_startTx :
    (next? (exec (.startTx 0x1000 3) ready)).map (fun t => (t.effects, t.undef))
        = some ([.mem 0x0F00 0x10, .mem 0x0F01 0x01, .mem 0x0F04 0x00, .mem 0x0F05 0x03, .arm, .settle 9, .txd 0xAA], [])
      ∧ (next? (exec (.startTx 0x1000 3) ready)).map (fun t => (t.wSrc, t.wCnt, t.txShift, t.txFmt))
        = some (0x1001, 3, 0xAA, 0x1E) := by decide

/-- 2.5: a buffer that wraps, one that meets the descriptor, one that meets the data register, a length of 0. -/
theorem test_startTx_breaches :
    ([(0xFFFF, 1), (0x0EFF, 1), (0xDFC0, 1), (0x1000, 0)] : List (Addr × Count)).map
        (fun p => (next? (exec (.startTx p.1 p.2) ready)).map (fun t => t.undef))
      = [some [.u3], some [.u3], some [.u3], some [.u2]] := by decide

/-- R137 (f), R238: a length that overruns the caller's storage is U3, the longest that does not is none. -/
theorem test_startTx_overrun :
    ([4, 3] : List Count).map (fun n => (next? (exec (.startTx 0x1000 n) smallStorage)).map (fun t => t.undef))
      = [some [.u3], some []] := by decide

/-- 2.8: read-back after INIT. -/
theorem test_rdReg :
    ([0, 1, 2, 5, 6, 7, 8] : List (BitVec 4)).map (fun r => (next? (exec (.rdReg r) ready)).map (fun t => t.rdata))
      = [some 0x9E, some 0x0C, some 0x22, some 0x01, some 0x01, some 0x0F, some 0x00] := by decide

/-- P4: the refused indices. -/
theorem test_rdReg_refused :
    refuses (exec (.rdReg 4) ready) .reservedReadIndex = true ∧ refuses (exec (.rdReg 15) ready) .reservedReadIndex = true := by
  decide

/-- A word at the head of the script is run by the next step. -/
theorem test_withFetchWord :
    (next? (step (State.reset.withFetchWord 32 0x4000001E))).map (fun t => t.ufmt) = some 0x1E := by decide

/-! ### The other agents (2.6) and the wire (2.7) -/

theorem test_latch :
    (next? (step { armedPending with script := [.latch] })).map (fun t => (t.wSrc, t.wDst, t.wCnt, t.loadPending))
      = some (0x1001, 0xDFC1, 3, false) := by decide

/-- R44: a store between the first two reads of a LATCH gives a torn source address, 0x10 of 0x1001 with 0xFF of 0x20FF. -/
theorem test_latch_torn :
    (next? (core.run 2 { halfLatched with script := [.callerWrite 0x0F01 0xFF, .latch] })).map (fun t => (t.wSrc, t.undef))
      = some (0x10FF, [.u12]) := by decide

/-- R44: after the first of the two stores of DESC_SRC the old low byte still stands beside the new high byte. -/
theorem test_store_torn :
    (next? (step { descSrcNext with mem := descSrcNext.mem.write 0x0F01 0x77, script := [.store] })).map
        (fun t => (t.mem.read 0x0F00, t.mem.read 0x0F01, t.stored, t.effects.length)) = some (0x10, 0x77, 1, 0) := by decide

/-- R162: INIT selects the pin, whatever the pin-mux elements hold before and after. -/
theorem test_line_before_init :
    State.pinSelected { fresh with pmFunc := 0xFF, pmDir := 0xFF } = false
      ∧ State.lineLevel { ready with pmFunc := 0, pmDir := 0 } 5 0 = some true := by decide

theorem test_frameEnd :
    (next? (step { sending with script := [.frameEnd] })).map (fun t => (t.txShift, t.wCnt, t.wSrc, t.arm, t.txBusy))
        = some (0x01, 2, 0x1002, true, true)
      ∧ (next? (step { lastFrame with script := [.frameEnd] })).map (fun t => (t.txBusy, t.txState, t.wSrc))
        = some (false, .idle, 0x1004) := by decide

/-- A frame of 2.7 as a list of levels. -/
def bits (l : List Nat) : List Bool := l.map (fun n => n == 1)

theorem test_frames :
    frame 0x1E 0xAA = bits [0, 0, 1, 0, 1, 0, 1, 0, 1, 0, 1, 1] ∧ frame 0x3D 0xFE = bits [1, 0, 1, 1, 1, 1, 1, 1, 1, 0, 0, 0]
      ∧ frame 0x82 0x01 = bits [0, 0, 0, 0, 0, 0, 0, 0, 1, 1] ∧ frame 0x0A 0xAA = bits [0, 0, 1, 0, 1, 0, 1, 0, 1, 1]
      ∧ frame 0x32 0x01 = bits [0, 1, 0, 0, 0, 0, 0, 0, 0, 1, 1] ∧ frame 0x06 0x80 = bits [0, 0, 0, 0, 0, 0, 0, 0, 1, 1, 1]
      ∧ frame 0x1A 0x07 = bits [0, 1, 1, 1, 0, 0, 0, 0, 0, 1, 1] := by decide

/-! ### The hypotheses of the obligations can be met

One theorem per obligation with hypotheses, at boundary values where its clauses have ranges. -/

theorem witness_EncodeOfDecode : decode 0x7FFF2000 = .ok (.startTx 0x2000 8191) := by decide

theorem witness_ReservedWordsAreRefused :
    (∃ r, decode 0x00000000 = .error r) ∧ (∃ r, decode 0xA0000000 = .error r) ∧ (∃ r, decode 0xC0000000 = .error r)
      ∧ (∃ r, decode 0xE0000000 = .error r) ∧ (∃ r, decode 0x20000001 = .error r) ∧ (∃ r, decode 0x40000100 = .error r)
      ∧ (∃ r, decode 0x80000010 = .error r) ∧ State.reset.seq = .idle
      ∧ { State.reset with script := [.command 0] }.script = .command 0 :: []
      ∧ { State.reset with script := [.present 0] }.script = .present 0 :: [] :=
  ⟨⟨_, rfl⟩, ⟨_, rfl⟩, ⟨_, rfl⟩, ⟨_, rfl⟩, ⟨_, rfl⟩, ⟨_, rfl⟩, ⟨_, rfl⟩, rfl, rfl, rfl⟩

theorem witness_StepRunsDecodedCommand :
    ready.seq = .idle ∧ { ready with script := [.command 0x60031000] }.script = .command 0x60031000 :: []
      ∧ decode 0x60031000 = .ok (.startTx 0x1000 3) := by decide

theorem witness_StepAcceptsPresentedCommand :
    ready.seq = .idle ∧ decode 0x20000000 = .ok .init ∧ decode 0x400000FF = .ok (.setMode 0xFF)
      ∧ decode 0x60031000 = .ok (.startTx 0x1000 3) ∧ decode 0x8000000B = .ok (.rdReg 11)
      ∧ decode 0x8000000C = .ok (.rdReg 12)
      ∧ (next? (step { ready with script := [.present 0x60031000] })).isSome = true := by decide

theorem witness_UopMoveIssuesOneUop :
    (uopsOf armedPending .startTx)[3]? = some .settle ∧ armedPending.seq = .run .startTx (3 + 1)
      ∧ armedPending.loadPending = true
      ∧ (uopsOf armedLatched .startTx)[4]? = some .txd ∧ armedLatched.seq = .run .startTx (4 + 1)
      ∧ (uopsOf ready .rdReg)[0]? = some .readReg ∧ (ready.regval ready.opReg).isSome = true := by decide

theorem witness_StoreMoveStoresOneByte :
    { descSrcNext with script := [.store] }.script = .store :: [] ∧ descSrcNext.nextUop = some .descSrc
      ∧ descSrcNext.stored + 1 < storeCount .descSrc ∧ memStores .descSrc descSrcNext = some (0x0F00, [0x10, 0x01])
      ∧ { descSrcNext with stored := 1 }.nextUop = some .descSrc ∧ storeCount .descSrc ≤ 1 + 1
      ∧ { fresh with seq := .run .init 11 }.nextUop = some .slot ∧ memStores .slot fresh = none := by decide

theorem witness_UopIsItsStores :
    { fresh with seq := .run .init 10 }.seq = .run .init (9 + 1) ∧ (uopsOf fresh .init)[9]? = some .descInit
      ∧ fresh.stored = 0 ∧ List.replicate (storeCount .descInit - 1) Move.store ++ .uop :: []
        = [.store, .store, .store, .store, .store, .store, .store, .uop] := by decide

theorem witness_CommandWaitsForIdle :
    armedPending.seq ≠ .idle
      ∧ (next? (step { armedPending with script := [.command 0x20000000] })).isSome = true
      ∧ (next? (step { armedPending with script := [.present 0x20000000] })).isSome = true := by decide

theorem witness_CommandIsItsUops :
    ready.seq = .idle ∧ ready.script = [] ∧ (next? (acceptCommand .init ready)).isSome = true
      ∧ (next? (acceptCommand (.setMode 0xFF) ready)).isSome = true
      ∧ (next? (acceptCommand (.startTx 0x1000 3) ready)).isSome = true
      ∧ (next? (acceptCommand (.rdReg 11) ready)).isSome = true := by decide

theorem witness_SetModeCompletes : ready.seq = .idle := rfl
theorem witness_SetModeIsIdempotent : ready.seq = .idle := rfl
theorem witness_PresetsDifferInThreeFields : ready.seq = .idle := rfl
theorem witness_InitCompletes : fresh.seq = .idle ∧ freshTelemetry.seq = .idle := ⟨rfl, rfl⟩

theorem witness_InitLatchesItsDescriptor :
    fresh.seq = .idle ∧ fresh.dmaTableValid = true ∧ fresh.initDone = false ∧ fresh.powered = true := by decide

theorem witness_InitWritesDescriptorOnly :
    fresh.seq = .idle ∧ ∀ k : Fin 8, (0x0F08 : Addr) ≠ fresh.par.descAddr + BitVec.ofNat 16 k := by decide

theorem witness_InitTelemetry :
    fresh.seq = .idle ∧ fresh.par.pTelemetryRx = false ∧ freshTelemetry.seq = .idle
      ∧ freshTelemetry.par.pTelemetryRx = true := by decide

theorem witness_InitEffects : fresh.seq = .idle ∧ freshTelemetry.seq = .idle := ⟨rfl, rfl⟩
theorem witness_InitFrame : fresh.seq = .idle := rfl

theorem ready_descFixed : ready.descFixed := ⟨by decide, by decide⟩

theorem witness_StartTxCompletes :
    (ready.par.wf = true ∧ ready.seq = .idle ∧ ready.initDone = true ∧ ready.powered = true ∧ ready.txState = .idle
      ∧ ready.txBusy = false ∧ (8191 : Count) ≠ 0
      ∧ bufferValid ready.par ready.storage 0x2000 8191 = true ∧ bufferValid ready.par ready.storage 0xFFFE 1 = true ∧ ready.dmaTableValid = true ∧ ready.dmaSlot = ready.par.descAddr
      ∧ ready.modeEn = true ∧ flowEn ready.format = false)
      ∧ ready.descFixed :=
  ⟨by decide, ready_descFixed⟩

theorem witness_StartTxAlwaysIssues :
    ready.seq = .idle ∧ ready.dmaTableValid = true ∧ ready.dmaSlot = ready.par.descAddr ∧ ready.txBusy = false := by decide

theorem witness_StartTxStores :
    ready.seq = .idle ∧ (0x0F02 : Addr) ≠ ready.par.descAddr ∧ (0x0F02 : Addr) ≠ ready.par.descAddr + 1
      ∧ (0x0F02 : Addr) ≠ ready.par.descAddr + 4 ∧ (0x0F02 : Addr) ≠ ready.par.descAddr + 5 := by decide

theorem witness_StartTxFrame : ready.seq = .idle := rfl

theorem witness_BrokenPreconditionsAreRecorded :
    (State.reset.seq = .idle ∧ State.reset.initDone = false ∧ State.reset.modeEn = false
      ∧ State.reset.dmaTableValid = false)
      ∧ (sending.seq = .idle ∧ sending.txState ≠ .idle ∧ sending.txBusy = true)
      ∧ (0xFFFF < (0xFFFF : Addr).toNat + (1 : Count).toNat)
      ∧ (1 ≤ (1 : Count).toNat ∧ (0x0EFF : Addr).toNat + 1 = ready.par.descAddr.toNat + 0)
      ∧ (0 ≤ (1 : Count).toNat ∧ (0x0F07 : Addr).toNat + 0 = ready.par.descAddr.toNat + 7)
      ∧ (1 ≤ (1 : Count).toNat ∧ (0xDFC0 : Addr).toNat + 1 = (udbufAddr ready.par).toNat)
      ∧ (∀ r ∈ smallStorage.storage, ¬(r.base.toNat ≤ (0x1000 : Addr).toNat
          ∧ (0x1000 : Addr).toNat + (4 : Count).toNat < r.base.toNat + r.size))
      ∧ { ready with powered := false }.powered = false ∧ flowEn { ready with ufmt := 0xC0 }.format = true
      ∧ ready.initDone = true ∧ { ready with powered := false }.regval 11 = some 1 := by decide

theorem witness_TransferDeliversTheBuffer :
    (ready.par.wf = true ∧ ready.seq = .idle ∧ ready.script = [] ∧ ready.initDone = true ∧ ready.powered = true
      ∧ ready.txState = .idle ∧ ready.txBusy = false ∧ (3 : Count) ≠ 0
      ∧ bufferValid ready.par ready.storage 0x1000 3 = true ∧ bufferValid ready.par ready.storage 0xFFFE 1 = true
      ∧ bufferValid ready.par ready.storage 0x2000 8191 = true ∧ ready.dmaTableValid = true
      ∧ ready.dmaSlot = ready.par.descAddr ∧ ready.modeEn = true ∧ flowEn ready.format = false)
      ∧ ready.descFixed :=
  ⟨by decide, ready_descFixed⟩

theorem witness_RdRegCompletes :
    ready.seq = .idle ∧ ready.regval 0 = some ready.ufmt ∧ ready.regval 11 = some ready.pmDir
      ∧ ((6 : BitVec 4), (1 : Byte)) ∈ ([(6, if ready.arm then 1 else 0)] : List (BitVec 4 × Byte)) := by decide

theorem witness_RefusedIndices :
    ready.seq = .idle ∧ ((4 : BitVec 4) = 4 ∨ 12 ≤ (4 : BitVec 4).toNat) ∧ 12 ≤ (12 : BitVec 4).toNat
      ∧ 12 ≤ (15 : BitVec 4).toNat := by decide

theorem witness_LatchReadsDescriptor :
    { armedPending with script := [.latch] }.script = .latch :: [] ∧ armedPending.loadPending = true
      ∧ armedPending.latching = none ∧ armedPending.dmaTableValid = true ∧ armedLatched.loadPending = false
      ∧ { armedPending with dmaTableValid := false }.dmaTableValid = false := by decide

theorem witness_LatchReadsByteByByte :
    { armedPending with script := [.latchByte] }.script = .latchByte :: [] ∧ armedPending.loadPending = true
      ∧ armedPending.latching = none ∧ armedPending.dmaTableValid = true ∧ armedLatched.loadPending = false
      ∧ halfLatched.loadPending = true ∧ halfLatched.latching = some ⟨some 0x0F00, [0x10]⟩ ∧ ([0x10] : List Byte).length < 7
      ∧ { halfLatched with latching := some ⟨some 0x0F00, [0x10, 0x01, 0xDF, 0xC1, 0x00, 0x03, 0x0F]⟩ }.loadPending
        = true := by decide

/-- A foreign store between the reads made the destination 0xFFC1, so the eighth read finds U22. -/
theorem witness_LatchReadsByteByByte_foreign :
    { armedPending with
        script := [.latchByte]
        latching := some ⟨some 0x0F00, [0x10, 0x01, 0xFF, 0xC1, 0x00, 0x03, 0x0F]⟩ }.loadPending = true
      ∧ (0xFF#8 ++ 0xC1#8 : BitVec 16) ≠ udbufAddr armedPending.par := by decide

theorem witness_LatchIsItsReads :
    halfLatched.loadPending = true ∧ halfLatched.latchCount < 8 ∧ armedPending.latchCount < 8
      ∧ List.replicate (8 - halfLatched.latchCount) Move.latchByte ++ []
        = [.latchByte, .latchByte, .latchByte, .latchByte, .latchByte, .latchByte, .latchByte] := by decide

theorem witness_ArmSchedulesLatch : ready.txState = .idle ∧ sending.txState ≠ .idle := by decide

theorem witness_SettleWaitsForLatch :
    armedPending.seq = .run .startTx (3 + 1) ∧ (uopsOf armedPending .startTx)[3]? = some .settle
      ∧ armedPending.loadPending = true ∧ armedPending.script = []
      ∧ { armedPending with loadPending := false, script := [.uop] }.script = .uop :: [] := by decide

theorem witness_FrameEndTransfersOneByte :
    { sending with script := [.frameEnd] }.script = .frameEnd :: [] ∧ sending.txBusy = true ∧ sending.arm = true
      ∧ sending.loadPending = false ∧ sending.wCnt ≠ 0 ∧ { sending with wCnt := 1 }.wCnt ≠ 0 ∧ sending.modeEn = true
      ∧ sending.ufmt.getLsbD 6 = false ∧ { sending with ufmt := 0x5E }.modeEn = false
      ∧ { sending with ufmt := 0x5E }.ufmt.getLsbD 6 = true := by decide

theorem witness_FrameEndEndsTransmission :
    { lastFrame with script := [.frameEnd] }.script = .frameEnd :: [] ∧ lastFrame.txBusy = true ∧ lastFrame.arm = false
      ∧ ready.txBusy = false := by decide

theorem witness_UntimelyTriggersAreRecorded :
    { sending with script := [.frameEnd] }.script = .frameEnd :: [] ∧ sending.txBusy = true ∧ sending.arm = true
      ∧ { sending with loadPending := true }.loadPending = true ∧ { sending with wCnt := 0 }.loadPending = false
      ∧ { sending with wCnt := 0 }.wCnt = 0 := by decide

theorem witness_FirstByteStartsTheFrame : armedLatched.txBusy = false := rfl

theorem witness_FrameShape :
    (0x3F : Byte).getLsbD 4 = true ∧ 9 + 1 ≤ 11 ∧ 11 < (frame 0x3F 0x00).length ∧ 9 ≤ 9
      ∧ 9 < (frame 0x02 0x00).length := by decide

theorem witness_LineFollowsFrameOrStopLevel :
    ready.modeEn = true ∧ ready.pinSelected = true ∧ ready.txBusy = false ∧ sending.modeEn = true
      ∧ sending.pinSelected = true ∧ sending.txBusy = true
      ∧ 11 < (frame sending.txFmt sending.txShift).length ∧ fresh.initDone = false
      ∧ { fresh with seq := .run .init 1 }.pinSelected = false ∧ { fresh with seq := .run .init 4 }.pinSelected = true := by
  decide

theorem witness_ReceiverDeliversByte :
    { ready with script := [.rxByte 0x5A] }.script = .rxByte 0x5A :: [] ∧ ready.ucsr.getLsbD 6 = false
      ∧ ({ ready with ucsr := 0x40 }.ucsr.getLsbD 6 ∧ ready.ufmt.getLsbD 7) := by decide

theorem witness_HandlerClearsTheFlag :
    { ready with script := [.rxHandler] }.script = .rxHandler :: []
      ∧ ({ ready with rxIf := true, rxIe := true, gie := true }.rxIf = true) ∧ ready.stored = 0
      ∧ ¬(ready.rxIf = true ∧ ready.rxIe = true ∧ ready.gie = true) := by decide

theorem witness_TableStaysInstalled :
    { State.reset with script := [.tableInstall] }.script = .tableInstall :: [] ∧ (next? (step ready)).isSome = true
      ∧ ready.script = [] ∧ ready.dmaTableValid = true := by decide

theorem witness_CallerWriteStoresOneByte :
    { sending with script := [.callerWrite 0x1002 0x7E] }.script = .callerWrite 0x1002 0x7E :: []
      ∧ (0x1002 : Addr) ≠ udbufAddr sending.par ∧ sending.bufferInFlight 0x1001 = true
      ∧ sending.bufferInFlight 0x1003 = true ∧ sending.bufferInFlight 0x1000 = false
      ∧ sending.bufferInFlight 0x1004 = false ∧ isDescByte sending.par 0x0F00 = true
      ∧ isDescByte sending.par 0x0F07 = true ∧ isDescByte sending.par 0x0EFF = false
      ∧ isDescByte sending.par 0x0F08 = false ∧ (0xDFC1 : Addr) = udbufAddr sending.par := by decide

theorem witness_EnvironmentWritesChangeOneElement :
    { ready with script := [.shared (.rxIe true)] }.script = .shared (.rxIe true) :: [] ∧ ready.seq = .idle
      ∧ armedPending.seq ≠ .idle ∧ { armedPending with script := [.shared (.pmLoc 1 true)] }.script = .shared (.pmLoc 1 true) :: []
      ∧ (next? (step { armedPending with script := [.shared (.gie true)] })).map (fun t => (t.gie, t.undef)) = some (true, [.u12])
      ∧ (next? (step { armedPending with script := [.shared (.re true)] })).map (fun t => (t.re, t.undef)) = some (true, []) := by
  decide

theorem witness_ForeignWritesAreRecorded :
    { ready with script := [.foreign (.udbuf 0x55)] }.script = .foreign (.udbuf 0x55) :: [] ∧ ready.txBusy = false
      ∧ (next? (step { ready with script := [.foreign (.arm false)] })).map (fun t => (t.arm, t.undef)) = some (true, [.u12])
      ∧ { sending with script := [.foreign (.udbuf 0x55)] }.script = .foreign (.udbuf 0x55) :: [] ∧ sending.txBusy = true := by
  decide

theorem witness_EnvironmentWrites_powerOn : { ready with powered := false, script := [.powerOn] }.script = .powerOn :: [] := rfl

theorem witness_EnvironmentWrites_storage :
    { sending with script := [.storage []] }.script = .storage [] :: [] ∧ armedPending.seq = .run .startTx 4
      ∧ ready.txState = .idle ∧ inStorage [⟨0x1000, 3⟩] armedPending.opBuf (armedPending.opLen.toNat + 1) = false
      ∧ inStorage [⟨0x1000, 4⟩] armedPending.opBuf (armedPending.opLen.toNat + 1) = true
      ∧ sending.seq = .idle ∧ sending.txState ≠ .idle ∧ sending.flight = some (0x1001, 3) ∧ ready.flight = none
      ∧ armedPending.flight = some (0x1000, 4)
      ∧ (next? (step { sending with script := [.storage []] })).map (fun t => t.undef) = some [.u7]
      ∧ (next? (step { sending with script := [.storage [⟨0x1001, 2⟩]] })).map (fun t => t.undef) = some [.u7]
      ∧ (next? (step { sending with script := [.storage [⟨0x1001, 3⟩]] })).map (fun t => t.undef) = some [] := by decide

theorem witness_ResetAbandonsEverything :
    { sending with script := [.reset Launch.zero] }.script = .reset Launch.zero :: [] := rfl

theorem witness_CanonicalMemoryIsExtensional :
    Memory.wf ready.mem = true ∧ ∀ a : Addr, Memory.read ready.mem a = Memory.read ready.mem a :=
  ⟨by decide, fun _ => rfl⟩

theorem witness_StepKeepsForm :
    ready.inv = true ∧ (next? (step { ready with script := [.command 0x60031000] })).isSome = true := by decide

theorem witness_ResetLeavesTheControlState : Params.sample.wf = true ∧ Memory.wf Launch.zero.mem = true := by decide

theorem ready_handshake : ready.Handshake where
  initOnce := by simp [ready, State.reset, State.ofLaunch]
  table := fun _ => rfl
  modeEn := fun _ => by decide
  desc := fun _ => ready_descFixed
  slot := fun _ => rfl
  partway := rfl
  memStored := fun _ _ _ h => by cases h
  slotStored := fun h => by cases h
  reading := fun _ h => by cases h
  noTxBeforeInit := by simp [ready]
  pending := by decide
  idle := fun _ => rfl
  armed := by decide
  transmitting := by decide
  txPosition := by simp [ready, State.reset, State.ofLaunch]
  txLen := by simp [ready, State.reset, State.ofLaunch]
  txLatched := by simp [ready, State.reset, State.ofLaunch]

theorem sending_handshake : sending.Handshake where
  initOnce := by simp [sending, ready, State.reset, State.ofLaunch]
  table := fun _ => rfl
  modeEn := fun _ => by decide
  desc := fun _ => ⟨by decide, by decide⟩
  slot := fun _ => rfl
  partway := rfl
  memStored := fun _ _ _ h => by cases h
  slotStored := fun h => by cases h
  reading := fun _ h => by cases h
  noTxBeforeInit := by simp [sending, ready]
  pending := by decide
  idle := by decide
  armed := by decide
  transmitting := fun _ => by decide
  txPosition := by simp [sending, ready, State.reset, State.ofLaunch]
  txLen := by simp [sending, ready, State.reset, State.ofLaunch]
  txLatched := by simp [sending, ready, State.reset, State.ofLaunch]

theorem witness_StepKeepsHandshake :
    ready.par.wf = true ∧ ready.Protected ∧ sending.Protected ∧ (next? (step ready)).isSome = true
      ∧ (next? (step sending)).isSome = true :=
  ⟨by decide, fun _ => ready_handshake, fun _ => sending_handshake, by decide, by decide⟩

/-- A second START_TX while the first is in flight meets U1 and U13 together; one before INIT meets U4, U22 and U23. -/
theorem witness_HandshakePreventsCollisions :
    sending.par.wf = true ∧ sending.clean ∧ sending.Handshake
      ∧ (next? (exec (.startTx 0x1000 3) sending)).map (fun t => t.undef) = some [.u1, .u13]
      ∧ (next? (exec (.startTx 0x1000 3) fresh)).map (fun t => t.undef) = some [.u4, .u22, .u23] :=
  ⟨by decide, rfl, sending_handshake, by decide, by decide⟩

theorem witness_TxStateTransitions :
    ready.par.wf = true ∧ ready.Protected ∧ sending.Protected
      ∧ (next? (step { ready with script := [.command 0x60031000] })).map (fun t => (t.txState, t.undef))
        = some (.transmitting, [])
      ∧ (next? (step { lastFrame with script := [] })).map (fun t => (t.txState, t.undef)) = some (.idle, []) :=
  ⟨by decide, fun _ => ready_handshake, fun _ => sending_handshake, by decide, by decide⟩

theorem witness_UndefIsSticky : (next? (step ready)).isSome = true ∧ ready.script = [] := by decide
theorem witness_ParametersAreConstant : (next? (step ready)).isSome = true := by decide

theorem witness_BlockNeverDisables :
    (next? (step { ready with gie := true, rxIe := true, ucsr := 0x40 })).isSome = true ∧ ready.script = []
      ∧ ready.modeEn = true := by decide

theorem witness_TracesOnlyGrow : (next? (step sending)).isSome = true ∧ sending.script = [] ∧ sending.txBusy = true := by
  decide

theorem witness_ReceptionDoesNotReachTransmission :
    (next? (step { armedPending with script := [.latch] })).isSome = true
      ∧ (next? (step { armedPending with script := [.latchByte] })).isSome = true
      ∧ (next? (step { descSrcNext with script := [.store] })).isSome = true ∧ descSrcNext.seq = .run .startTx 1
      ∧ (next? (step { sending with script := [.frameEnd] })).isSome = true
      ∧ (next? (step { armedLatched with script := [.uop] })).isSome = true ∧ armedLatched.seq = .run .startTx 5 := by decide

/-- The moves of a whole transfer of four bytes and nothing of consequence after it. -/
def fairMove : Nat → Move
  | 0 => .command 0x60031000
  | 1 | 2 | 3 | 4 => .frameEnd
  | _ => .tableInstall

/-- The run those moves make of `ready`. -/
def fairRun : Nat → State
  | 0 => ready
  | n + 1 => (next? (step { fairRun n with script := [fairMove n] })).getD ready

theorem fairRun_stays (n : Nat) : fairRun (n + 5) = fairRun 5 := by
  induction n with
  | zero => rfl
  | succ n ih =>
    have h : fairRun (n + 5 + 1) = (next? (step { fairRun 5 with script := [.tableInstall] })).getD ready := by
      rw [← ih]; rfl
    rw [show n + 1 + 5 = n + 5 + 1 by omega, h]; decide

theorem fairRun_all {P : State → Nat → Prop} (h : ∀ n < 5, P (fairRun n) n) (h5 : ∀ n, P (fairRun 5) (n + 5)) (n : Nat) :
    P (fairRun n) n := by
  by_cases hn : n < 5
  · exact h n hn
  · have h' := h5 (n - 5)
    rw [← fairRun_stays (n - 5)] at h'
    rwa [show n - 5 + 5 = n by omega] at h'

theorem fairRun_fair {e : State → Prop} (h : ¬e (fairRun 5)) (t : Nat → Prop) : WeaklyFair fairRun e t := fun n hn =>
  absurd (fairRun_stays n ▸ hn (n + 5) (by omega)) h

theorem eq_next_of_isSome {o : Host.Outcome State Fault Refusal} (d : State) (h : (next? o).isSome = true) :
    o = .next ((next? o).getD d) := by cases o <;> first | rfl | cases h

theorem fairRun_isRun : IsRun fairRun fairMove where
  follows n := by
    refine eq_next_of_isSome ready ?_
    by_cases hn : n < 5
    · have h : ∀ n < 5, (next? (step { fairRun n with script := [fairMove n] })).isSome = true := by decide
      exact h n hn
    · obtain ⟨k, rfl⟩ : ∃ k, n = k + 5 := ⟨n - 5, by omega⟩
      rw [fairRun_stays]
      show (next? (step { fairRun 5 with script := [.tableInstall] })).isSome = true
      decide
  port n w hw := by
    rcases n with - | n
    · rfl
    · have h : fairMove (n + 1) = .frameEnd ∨ fairMove (n + 1) = .tableInstall := by unfold fairMove; split <;> simp_all
      rcases h with h | h <;> rw [h] at hw <;> simp at hw

theorem witness_FairRunsDeliverTheBuffer :
    IsRun fairRun fairMove ∧ Progress fairRun fairMove ∧ (∀ n l, fairMove n ≠ .reset l) ∧ (∀ n, (fairRun n).clean)
      ∧ (fairRun 0).par.wf = true ∧ (fairRun 0).Handshake ∧ fairMove 0 = .command 0x60031000
      ∧ (fairRun 1).txState ≠ .idle :=
  ⟨fairRun_isRun, ⟨fairRun_fair (by decide) _, fairRun_fair (by decide) _, fairRun_fair (by decide) _⟩,
    fun n l => by unfold fairMove; split <;> simp,
    fairRun_all (P := fun s _ => s.undef = []) (by decide) (fun _ => by decide), by decide, ready_handshake, rfl, by decide⟩

end Sys2Proof.Tests
end

/-! Every step keeps the build-time parameters and the form of the state. -/

section
namespace Sys2Proof.Machine

/-! ### The position of the sequencer -/

/-- `t` has `SEQ` where `s` has it, with as much done of its uop, and the same uop lists: `seqLegal` and `storedLegal` read
no other element. -/
structure State.SamePosition (s t : State) : Prop where
  seq : t.seq = s.seq
  stored : t.stored = s.stored
  opCfg : t.opCfg = s.opCfg
  par : t.par = s.par

theorem State.nextUop_of_run {s : State} {c : Cmd} {k : Nat} (h : s.seq = .run c (k + 1)) :
    s.nextUop = (uopsOf s c)[k]? := by
  simp [State.nextUop, h]

theorem State.nextUop_congr {s t : State} (hs : t.seq = s.seq) (hc : t.opCfg = s.opCfg) (hp : t.par = s.par) :
    t.nextUop = s.nextUop := by
  simp only [State.nextUop, hs, uopsOf_congr hp hc]

theorem State.seqLegal_congr {s t : State} (hs : t.seq = s.seq) (hc : t.opCfg = s.opCfg) (hp : t.par = s.par) :
    t.seqLegal = s.seqLegal := by
  simp only [State.seqLegal, hs, uopsOf_congr hp hc]

theorem State.SamePosition.seqLegal {s t : State} (h : s.SamePosition t) : t.seqLegal = s.seqLegal :=
  State.seqLegal_congr h.seq h.opCfg h.par

theorem State.SamePosition.storedLegal {s t : State} (h : s.SamePosition t) : t.storedLegal = s.storedLegal := by
  simp only [State.storedLegal, h.stored, State.nextUop_congr h.seq h.opCfg h.par]

theorem State.frameEnd_samePosition (s : State) : s.SamePosition s.frameEnd :=
  ⟨by simp, by simp, by simp, by simp⟩

theorem State.latchStep_samePosition (s : State) : s.SamePosition s.latchStep :=
  ⟨by simp, by simp, by simp, by simp⟩

theorem State.callerWrite_samePosition (a : Addr) (b : Byte) (s : State) : s.SamePosition (s.callerWrite a b) := by
  unfold State.callerWrite
  split <;> exact ⟨rfl, rfl, rfl, rfl⟩

theorem State.sharedWrite_samePosition (w : SharedWrite) (s : State) : s.SamePosition (s.sharedWrite w) := by
  cases w <;> exact ⟨rfl, rfl, rfl, rfl⟩

theorem State.foreignWrite_samePosition (w : ForeignWrite) (s : State) : s.SamePosition (s.foreignWrite w) := by
  cases w with
  | arm b => cases b <;> exact ⟨rfl, rfl, rfl, rfl⟩
  | _ => exact ⟨rfl, rfl, rfl, rfl⟩

/-- Only the sequencer and the reset input move the position. -/
theorem State.agentMove_samePosition {m : Move} {s s' : State} (h : State.agentMove m s = .next s') (hu : m ≠ .uop)
    (hs : m ≠ .store) (hr : ∀ l, m ≠ .reset l) : s.SamePosition s' := by
  cases m with
  | command _ => cases h
  | present _ => cases h
  | uop => exact absurd rfl hu
  | store => exact absurd rfl hs
  | reset l => exact absurd rfl (hr l)
  | latchByte => obtain ⟨-, rfl⟩ := whenEnabled_next.1 h; exact s.latchStep_samePosition
  | frameEnd => obtain ⟨-, rfl⟩ := whenEnabled_next.1 h; exact s.frameEnd_samePosition
  | latch => obtain ⟨-, rfl⟩ := whenEnabled_next.1 h; exact ⟨rfl, rfl, rfl, rfl⟩
  | rxByte _ => obtain ⟨-, rfl⟩ := whenEnabled_next.1 h; exact ⟨rfl, rfl, rfl, rfl⟩
  | rxHandler => obtain ⟨-, rfl⟩ := whenEnabled_next.1 h; exact ⟨rfl, rfl, rfl, rfl⟩
  | callerWrite a b => cases h; exact s.callerWrite_samePosition a b
  | shared w => cases h; exact s.sharedWrite_samePosition w
  | foreign w => cases h; exact s.foreignWrite_samePosition w
  | tableInstall => cases h; exact ⟨rfl, rfl, rfl, rfl⟩
  | powerOn => cases h; exact ⟨rfl, rfl, rfl, rfl⟩
  | storage _ => cases h; exact ⟨rfl, rfl, rfl, rfl⟩

/-! ### The build-time parameters -/

theorem State.agentMove_par {m : Move} {s s' : State} (h : State.agentMove m s = .next s') (hu : m ≠ .uop)
    (hs : m ≠ .store) : s'.par = s.par := by
  by_cases hr : ∃ l, m = .reset l
  · obtain ⟨l, rfl⟩ := hr
    cases h
    rfl
  · exact (State.agentMove_samePosition h hu hs fun l hl => hr ⟨l, hl⟩).par

theorem par_kept : Kept fun s t => t.par = s.par where
  refl _ := rfl
  trans _ _ _ hab hbc := hbc.trans hab
  script _ _ := rfl
  issue := issue_par
  storeNext := storeNext_par
  latch := State.latch_par
  readDescByte := State.readDescByte_par
  advance := State.advance_par
  finish := State.finish_par
  acceptInit _ := rfl
  acceptSetMode _ _ := rfl
  acceptStartTx _ _ _ := rfl
  acceptRdReg _ _ := rfl

/-- Settles O56: every part of a step keeps the parameters, and so do FRAME_END and the moves of the environment. -/
theorem parametersAreConstant : Obligations.ParametersAreConstant := fun s s' h =>
  par_kept.step h
    (fun t ht _ he => by
      rw [he, State.frameEnd_par]
      rcases ht with rfl | ⟨ms, rfl⟩ <;> rfl)
    fun _ ms _ hm hu hs _ _ _ => State.agentMove_par (s := { s with script := ms }) hm hu hs

/-! ### The form of the data -/

/-- The conjuncts of `State.inv` that do not speak of the sequencer's position. -/
structure State.DataForm (s : State) : Prop where
  par : s.par.wf = true
  mem : Memory.wf s.mem = true
  ugcr : s.ugcr &&& 0xC0 = 0
  ucsr : s.ucsr &&& 0xBF = 0
  latching : ∀ r ∈ s.latching, s.loadPending = true ∧ r.bytes.length < 8
  undef : undefSorted s.undef = true

theorem State.latchingLegal_iff (s : State) :
    s.latchingLegal = true ↔ ∀ r ∈ s.latching, s.loadPending = true ∧ r.bytes.length < 8 := by
  cases hl : s.latching <;> simp [State.latchingLegal, hl]

theorem State.inv_iff (s : State) :
    s.inv = true ↔ s.DataForm ∧ s.seqLegal = true ∧ s.storedLegal = true := by
  simp only [State.inv, Bool.and_eq_true, decide_eq_true_eq, State.latchingLegal_iff]
  constructor
  · rintro ⟨⟨⟨⟨⟨⟨⟨hpar, hmem⟩, hugcr⟩, hucsr⟩, hseq⟩, hstored⟩, hlatching⟩, hundef⟩
    exact ⟨⟨hpar, hmem, hugcr, hucsr, hlatching, hundef⟩, hseq, hstored⟩
  · rintro ⟨⟨hpar, hmem, hugcr, hucsr, hlatching, hundef⟩, hseq, hstored⟩
    exact ⟨⟨⟨⟨⟨⟨⟨hpar, hmem⟩, hugcr⟩, hucsr⟩, hseq⟩, hstored⟩, hlatching⟩, hundef⟩

/-- A masked write that does not reach the reserved bits `r` leaves them zero (R14, R16, R76). -/
theorem maskedWrite_reserved {old mask r : Byte} (v : Byte) (h : old &&& r = 0) (hm : mask &&& r = 0) :
    maskedWrite old mask v &&& r = 0 := by
  apply BitVec.eq_of_getLsbD_eq
  intro i hi
  have ho := congrArg (·.getLsbD i) h
  have hm := congrArg (·.getLsbD i) hm
  simp only [BitVec.getLsbD_and, getLsbD_maskedWrite] at *
  cases hmi : mask.getLsbD i <;> simp_all

theorem zeroExtend_reserved (v : BitVec 6) : v.zeroExtend 8 &&& 0xC0#8 = 0 := by
  revert v
  decide

section
variable {s : State} (h : s.DataForm)
include h

theorem State.DataForm.recordIf (c : Bool) (u : Undef) : (s.recordIf c u).DataForm :=
  { h with undef := undefSorted_addUndef c u h.undef }

theorem State.DataForm.storeBytes (a : Addr) (bs : List Byte) : (s.storeBytes a bs).DataForm :=
  { h with mem := Memory.wf_writeList _ _ h.mem }

theorem State.DataForm.scheduleLatch : s.scheduleLatch.DataForm :=
  { h with latching := by simp }

theorem State.DataForm.armChannel : s.armChannel.DataForm :=
  { h.scheduleLatch with }

theorem State.DataForm.frameStart (b : Byte) : (s.frameStart b).DataForm :=
  { h with undef := undefSorted_addUndef _ _ (undefSorted_addUndef _ _ (undefSorted_addUndef _ _ h.undef)) }

theorem State.DataForm.latch : s.latch.DataForm :=
  { h with
    latching := by simp
    undef := undefSorted_addUndef _ _ (undefSorted_addUndef _ _ h.undef) }

/-- One of the first seven reads of a pending LATCH leaves it short of its eighth (R150). -/
theorem State.DataForm.readDescByte (hp : s.loadPending = true) (hc : s.latchCount < 7) : s.readDescByte.DataForm :=
  { h with
    latching := by
      have hc : s.latchRead.bytes.length < 7 := hc
      simp [hp]
      omega
    undef := undefSorted_addUndef _ _ h.undef }

theorem State.DataForm.latchStep (hp : s.loadPending = true) : s.latchStep.DataForm := by
  unfold State.latchStep
  split
  · exact h.readDescByte hp ‹_›
  · exact h.latch

/-! ### The data after FRAME_END (R151 to R156) -/

theorem State.DataForm.transfer : s.transfer.DataForm :=
  { h.frameStart (s.mem.read s.wSrc) with }

theorem State.DataForm.openTrigger : s.openTrigger.DataForm := by
  unfold State.openTrigger
  split
  · refine State.DataForm.frameStart ?_ _
    exact { h with }
  · exact { h with }

theorem State.DataForm.answerTrigger : s.answerTrigger.DataForm := by
  unfold State.answerTrigger
  split
  · exact { h with }
  · exact h.transfer
  · split
    · exact (h.recordIf true .u8).openTrigger
    · exact (h.recordIf true .u8).transfer
  · exact (h.recordIf true .u10).openTrigger

theorem State.DataForm.frameEnd : s.frameEnd.DataForm :=
  State.DataForm.answerTrigger (s := s.completeFrame) { h with }

/-! ### The data after a uop, a store or an acceptance -/

theorem State.DataForm.issue (u : Uop) : (issue u s).DataForm := by
  cases u with
  | baudE => exact { h with ugcr := maskedWrite_reserved _ h.ugcr (by decide) }
  | orderWr _ => exact { h with ugcr := maskedWrite_reserved _ h.ugcr (by decide) }
  | reSet => exact { h with ucsr := maskedWrite_reserved _ h.ucsr (by decide) }
  | descInit => exact h.storeBytes _ _
  | descSrc => exact (h.recordIf _ .u1).storeBytes _ _
  | descLen => exact h.storeBytes _ _
  | arm => exact h.armChannel
  | armTx => exact { (h.recordIf _ .u1).armChannel with }
  | txd => exact { State.DataForm.frameStart { h with } (s.mem.read s.opBuf) with }
  | _ => exact { h with }

theorem State.DataForm.storeNext (u : Uop) : (storeNext u s).DataForm := by
  unfold Sys2Proof.Machine.storeNext
  split
  · exact { h with
      mem := Memory.wf_writeList _ _ h.mem
      undef := undefSorted_addUndef _ _ h.undef }
  · exact { h with }

theorem State.DataForm.advance (c : Cmd) (k : Nat) : (s.advance c k).DataForm := by
  unfold State.advance
  split <;> exact { h with }

theorem State.DataForm.accept (c : Cmd) : (s.accept c).DataForm :=
  { h.recordIf _ .u11 with }

theorem State.DataForm.acceptInit : s.acceptInit.DataForm :=
  ((h.recordIf _ .u5).recordIf _ .u9).accept .init

theorem State.DataForm.acceptSetMode (cfg : Byte) : (s.acceptSetMode cfg).DataForm :=
  have hl : State.DataForm { s with opCfg := cfg } := { h with }
  hl.accept .setMode

theorem State.DataForm.acceptStartTx (buf : Addr) (len : Count) : (s.acceptStartTx buf len).DataForm :=
  have hl : State.DataForm { s with opBuf := buf, opLen := len } := { h with }
  ((((hl.recordIf _ .u4).recordIf _ .u1).recordIf _ .u2).recordIf _ .u3).accept .startTx

theorem State.DataForm.acceptRdReg (reg : BitVec 4) : (s.acceptRdReg reg).DataForm :=
  have hl : State.DataForm { s with opReg := reg } := { h with }
  hl.accept .rdReg

theorem State.DataForm.issueSettled (u : Uop) : (s.issueSettled u).DataForm := by
  unfold State.issueSettled
  split
  · exact h.issue u
  · exact h.latch.issue u

omit h in
theorem State.DataForm.runUops {s : State} (h : s.DataForm) (us : List Uop) : (s.runUops us).DataForm := by
  induction us generalizing s with
  | nil => exact h
  | cons u us ih => exact ih (h.issueSettled u)

theorem State.DataForm.perform (c : Cmd) : (s.perform c).DataForm :=
  { h.runUops (uopsOf s c) with }

/-! ### The data after a move of the environment -/

theorem State.DataForm.callerWrite (a : Addr) (b : Byte) : (s.callerWrite a b).DataForm := by
  unfold State.callerWrite
  split
  · exact (h.recordIf true .u12).frameStart b
  · exact { (h.recordIf _ .u12).recordIf _ .u7 with mem := Memory.wf_write a b h.mem }

theorem State.DataForm.sharedWrite (w : SharedWrite) : (s.sharedWrite w).DataForm := by
  have hr := h.recordIf (w.onlyIdle && decide (s.seq ≠ .idle)) .u12
  cases w with
  | re _ => exact { hr with ucsr := maskedWrite_reserved _ h.ucsr (by decide) }
  | _ => exact { hr with }

theorem State.DataForm.foreignWrite (w : ForeignWrite) : (s.foreignWrite w).DataForm := by
  have hr := h.recordIf true .u12
  cases w with
  | arm b =>
    cases b
    · exact hr
    · exact hr.scheduleLatch
  | ugcr v => exact { hr with ugcr := zeroExtend_reserved v }
  | udbuf b => exact hr.frameStart b
  | _ => exact { hr with }

theorem State.DataForm.resetInput (l : Launch) : (s.resetInput l).DataForm where
  par := h.par
  mem := Memory.wf_ofCells l.mem
  ugcr := zeroExtend_reserved l.ugcr
  ucsr := by cases hr : l.re <;> simp [State.resetInput, State.ofLaunch, hr]
  latching := by simp [State.resetInput, State.ofLaunch]
  undef := rfl

end

/-! ### The form of the position -/

theorem State.storedLegal_iff (s : State) :
    s.storedLegal = true ↔ s.stored = 0 ∨ ∃ u, s.nextUop = some u ∧ s.stored < storeCount u := by
  simp [State.storedLegal, Option.any_eq_true]

theorem State.storedLegal_of_start {s : State} (h : s.stored = 0) : s.storedLegal = true :=
  s.storedLegal_iff.2 (.inl h)

theorem State.seqLegal_of_idle {s : State} (h : s.seq = .idle) : s.seqLegal = true := by
  simp [State.seqLegal, h]

theorem uopsOf_length_pos (s : State) (c : Cmd) : 0 < (uopsOf s c).length := by
  cases c <;> simp [uopsOf, initUops, modeUops, startTxUops]

/-- A uop that may have stores made ends with none of the next one made (R44). -/
theorem issue_stored {u : Uop} {s : State} (h : s.stored = 0 ∨ s.stored < storeCount u) : (issue u s).stored = 0 := by
  rcases h with h | h
  · exact issue_stored_of_start h u
  · cases u with
    | descInit => rfl
    | slot => rfl
    | descSrc => rfl
    | descLen => rfl
    | _ => exact issue_stored_of_start (Nat.lt_one_iff.1 h) _

theorem State.issueSettled_stored {s : State} (h : s.stored = 0) (u : Uop) : (s.issueSettled u).stored = 0 := by
  unfold State.issueSettled
  split
  · exact issue_stored_of_start h u
  · exact issue_stored_of_start (s := s.latch) h u

theorem State.runUops_stored {s : State} (h : s.stored = 0) (us : List Uop) : (s.runUops us).stored = 0 := by
  induction us generalizing s with
  | nil => exact h
  | cons u us ih => exact ih (State.issueSettled_stored h u)

/-- After uop `k + 1` of the list, `SEQ` is at the next one or Idle (R12). -/
theorem State.seqLegal_advance {c : Cmd} {k : Nat} {s : State} (h : k < (uopsOf s c).length) :
    (s.advance c k).seqLegal = true := by
  unfold State.advance
  split
  · exact State.seqLegal_of_idle rfl
  · have hc : uopsOf { s with seq := .run c (k + 2) } c = uopsOf s c := uopsOf_congr rfl rfl c
    simp only [State.seqLegal, hc, Bool.and_eq_true, decide_eq_true_eq]
    omega

/-! ### Every part of a step keeps the form -/

theorem State.inv_of_samePosition {s t : State} (h : s.inv = true) (hd : t.DataForm) (hp : s.SamePosition t) :
    t.inv = true := by
  obtain ⟨-, hseq, hstored⟩ := s.inv_iff.1 h
  exact t.inv_iff.2 ⟨hd, hp.seqLegal.trans hseq, hp.storedLegal.trans hstored⟩

theorem State.inv_of_idle {s : State} (hd : s.DataForm) (hs : s.seq = .idle) (h0 : s.stored = 0) : s.inv = true :=
  s.inv_iff.2 ⟨hd, State.seqLegal_of_idle hs, State.storedLegal_of_start h0⟩

theorem State.inv_of_accepted {s : State} {c : Cmd} (hd : s.DataForm) (hs : s.seq = .run c 1) (h0 : s.stored = 0) :
    s.inv = true := by
  have hpos := uopsOf_length_pos s c
  refine s.inv_iff.2 ⟨hd, ?_, State.storedLegal_of_start h0⟩
  simp only [State.seqLegal, hs, Bool.and_eq_true, decide_eq_true_eq]
  omega

theorem State.inv_perform {s : State} (hd : s.DataForm) (h0 : s.stored = 0) (c : Cmd) : (s.perform c).inv = true :=
  State.inv_of_idle (hd.perform c) rfl (State.runUops_stored h0 _)

theorem State.inv_uopStep {s s' : State} (h : s.inv = true) (hs : s.uopStep = .next s') : s'.inv = true := by
  obtain ⟨hd, -, hstored⟩ := s.inv_iff.1 h
  obtain ⟨c, k, u, hseq, hu, -, -, rfl⟩ := State.uopStep_next hs
  have hnext : s.nextUop = some u := (State.nextUop_of_run hseq).trans hu
  have hdone : s.stored = 0 ∨ s.stored < storeCount u := by simpa [hnext] using s.storedLegal_iff.1 hstored
  refine (State.inv_iff _).2 ⟨(hd.issue u).advance c k, State.seqLegal_advance ?_, State.storedLegal_of_start ?_⟩
  · rw [uopsOf_issue]
    exact (List.getElem?_eq_some_iff.1 hu).1
  · rw [State.advance_stored, issue_stored hdone]

theorem State.inv_storeStep {s s' : State} (h : s.inv = true) (hs : s.storeStep = .next s') : s'.inv = true := by
  obtain ⟨hd, hseq, -⟩ := s.inv_iff.1 h
  obtain ⟨u, hu, hlt, rfl⟩ := State.storeStep_next hs
  have hnext : (storeNext u s).nextUop = some u := (State.nextUop_congr (by simp) (by simp) (by simp)).trans hu
  refine (State.inv_iff _).2 ⟨hd.storeNext u, ?_, (State.storedLegal_iff _).2 (.inr ⟨u, hnext, ?_⟩)⟩
  · rwa [State.seqLegal_congr (s := s) (by simp) (by simp) (by simp)]
  · rwa [storeNext_stored]

theorem State.inv_latch {s : State} (h : s.inv = true) : s.latch.inv = true :=
  State.inv_of_samePosition h (s.inv_iff.1 h).1.latch ⟨rfl, rfl, rfl, rfl⟩

theorem State.inv_frameEnd {s : State} (h : s.inv = true) : s.frameEnd.inv = true :=
  State.inv_of_samePosition h (s.inv_iff.1 h).1.frameEnd s.frameEnd_samePosition

theorem State.inv_progress {s s' : State} (h : s.inv = true) (hs : s.progress = .next s') : s'.inv = true := by
  rcases State.progress_next hs with hs | ⟨-, -, rfl⟩ | ⟨-, -, rfl⟩ | ⟨-, -, -, rfl⟩ | ⟨-, -, -, rfl⟩
  · exact State.inv_uopStep h hs
  · exact State.inv_latch h
  · exact State.inv_latch h
  · exact State.inv_frameEnd h
  · exact h

theorem inv_exec {i : Instr} {s s' : State} (h : s.inv = true) (hi : s.seq = .idle) (hs : exec i s = .next s') :
    s'.inv = true := by
  have hd := (s.inv_iff.1 h).1
  rcases exec_next hi hs with ⟨-, rfl⟩ | ⟨cfg, -, rfl⟩ | ⟨buf, len, -, rfl⟩ | ⟨reg, -, -, rfl⟩
  · exact State.inv_perform hd.acceptInit rfl _
  · exact State.inv_perform (hd.acceptSetMode cfg) rfl _
  · exact State.inv_perform (hd.acceptStartTx buf len) rfl _
  · exact State.inv_perform (hd.acceptRdReg reg) rfl _

theorem inv_acceptCommand {i : Instr} {s s' : State} (h : s.inv = true) (hs : acceptCommand i s = .next s') :
    s'.inv = true := by
  have hd := (s.inv_iff.1 h).1
  cases i with
  | init => cases hs; exact State.inv_of_accepted hd.acceptInit rfl rfl
  | setMode cfg => cases hs; exact State.inv_of_accepted (hd.acceptSetMode cfg) rfl rfl
  | startTx buf len => cases hs; exact State.inv_of_accepted (hd.acceptStartTx buf len) rfl rfl
  | rdReg reg =>
    simp only [acceptCommand] at hs
    split at hs
    · cases hs
    · cases hs; exact State.inv_of_accepted (hd.acceptRdReg reg) rfl rfl

/-- The data after any move but the sequencer's own. -/
theorem State.DataForm.agentMove {m : Move} {s s' : State} (hd : s.DataForm) (hs : State.agentMove m s = .next s')
    (hu : m ≠ .uop) (hst : m ≠ .store) : s'.DataForm := by
  cases m with
  | command _ => cases hs
  | present _ => cases hs
  | uop => exact absurd rfl hu
  | store => exact absurd rfl hst
  | latch => obtain ⟨-, rfl⟩ := whenEnabled_next.1 hs; exact hd.latch
  | latchByte => obtain ⟨hp, rfl⟩ := whenEnabled_next.1 hs; exact hd.latchStep hp
  | frameEnd => obtain ⟨-, rfl⟩ := whenEnabled_next.1 hs; exact hd.frameEnd
  | rxByte _ => obtain ⟨-, rfl⟩ := whenEnabled_next.1 hs; exact { hd with }
  | rxHandler => obtain ⟨-, rfl⟩ := whenEnabled_next.1 hs; exact { hd with }
  | callerWrite a b => cases hs; exact hd.callerWrite a b
  | shared w => cases hs; exact hd.sharedWrite w
  | foreign w => cases hs; exact hd.foreignWrite w
  | tableInstall => cases hs; exact { hd with }
  | powerOn => cases hs; exact { hd with }
  | storage _ => cases hs; exact { hd.recordIf _ .u7 with }
  | reset l => cases hs; exact hd.resetInput l

theorem State.inv_agentMove {m : Move} {s s' : State} (h : s.inv = true) (hs : State.agentMove m s = .next s') :
    s'.inv = true := by
  have hd := (s.inv_iff.1 h).1
  by_cases hu : m = .uop
  · subst hu; exact State.inv_uopStep h hs
  by_cases hst : m = .store
  · subst hst; exact State.inv_storeStep h hs
  by_cases hr : ∃ l, m = .reset l
  · obtain ⟨l, rfl⟩ := hr
    cases hs
    exact State.inv_of_idle (hd.resetInput l) rfl rfl
  · exact State.inv_of_samePosition h (hd.agentMove hs hu hst)
      (State.agentMove_samePosition hs hu hst fun l hl => hr ⟨l, hl⟩)

/-- Settles O50: whatever the head of the script makes a step do keeps the form. -/
theorem stepKeepsForm : Obligations.StepKeepsForm := by
  intro s s' h hs
  have hms : ∀ ms, State.inv { s with script := ms } = true := fun _ => h
  rcases step_next hs with ⟨-, hp⟩ | ⟨w, ms, -, hi, i, -, he⟩ | ⟨w, ms, -, -, i, -, ha⟩ | ⟨-, hp⟩ | ⟨m, ms, -, hm⟩
  · exact State.inv_progress h hp
  · exact inv_exec (hms ms) hi he
  · exact inv_acceptCommand (hms ms) ha
  · exact State.inv_progress h hp
  · exact State.inv_agentMove (hms ms) hm

end Sys2Proof.Machine
end

/-! The sequencer's moves, acceptance, and a command as the run of its uops. -/

section
namespace Sys2Proof.Machine

/-! ### The step by the head of the script -/

theorem step_of_nil {s : State} (h : s.script = []) : step s = s.progress := by
  simp [step, h]

/-- With nothing asked for, a command in progress goes on (R169). -/
theorem step_of_running {s : State} {c : Cmd} {k : Nat} (hsc : s.script = []) (hseq : s.seq = .run c k) :
    step s = s.sequencerStep := by
  simp [step_of_nil hsc, State.progress, hseq]

/-- A word on the port waits: the step is the sequencer's (R12; log 18). -/
theorem step_of_waiting {s : State} {w : CmdWord} {ms : List Move} (hi : s.seq ≠ .idle)
    (hsc : s.script = .command w :: ms ∨ s.script = .present w :: ms) : step s = s.progress := by
  rcases hsc with h | h <;> simp [step, h, hi]

/-- A presented word on a free port is accepted (R65). -/
theorem step_of_present {s : State} {w : CmdWord} {ms : List Move} {i : Instr} (hi : s.seq = .idle)
    (hsc : s.script = .present w :: ms) (hw : decode w = .ok i) : step s = acceptCommand i { s with script := ms } := by
  simp [step, hsc, hi, onCommand, hw]

/-- Every other move is its agent's. -/
theorem step_of_move {s : State} {m : Move} {ms : List Move} (hc : ∀ w, m ≠ .command w) (hp : ∀ w, m ≠ .present w)
    (hsc : s.script = m :: ms) : step s = State.agentMove m { s with script := ms } := by
  cases m with
  | command w => exact absurd rfl (hc w)
  | present w => exact absurd rfl (hp w)
  | _ => simp [step, hsc]

/-! ### Uop moves (R12, R48) -/

/-- `SEQ` and `INIT_DONE` are all that the end of a uop moves (R12). -/
theorem State.advance_eq (c : Cmd) (k : Nat) (s : State) :
    s.advance c k = { s with
      seq := if k + 1 = (uopsOf s c).length then .idle else .run c (k + 2)
      initDone := s.initDone || (decide (c = .init) && decide (k + 1 = (uopsOf s c).length)) } := by
  unfold State.advance
  split
  case isTrue h => simp [State.finish, h]
  case isFalse h => simp [h]

/-- SETTLE alone waits, and only for a pending LATCH (R110). -/
theorem State.uopEnabled_eq_false_iff (s : State) (u : Uop) :
    s.uopEnabled u = false ↔ u = .settle ∧ s.loadPending = true := by
  simp [State.uopEnabled]

theorem State.uopEnabled_of_not_waiting {s : State} {u : Uop} (h : ¬ (u = .settle ∧ s.loadPending = true)) :
    s.uopEnabled u = true := by
  rwa [← Bool.not_eq_false, State.uopEnabled_eq_false_iff]

theorem State.uopRefused_eq_false_iff (s : State) (u : Uop) :
    s.uopRefused u = false ↔ (u = .readReg → ∃ v, s.regval s.opReg = some v) := by
  by_cases h : u = .readReg <;> simp [State.uopRefused, h, Option.isSome_iff_exists]

/-- Settles O8: a uop that is not refused is issued, or is SETTLE and waits. -/
theorem uopMoveIssuesOneUop : Obligations.UopMoveIssuesOneUop := by
  intro s ms c k u hsc hseq hu hreg
  have hstep : step s = State.uopStep { s with script := ms } := step_of_move (by simp) (by simp) hsc
  have hr : State.uopRefused { s with script := ms } u = false := (State.uopRefused_eq_false_iff _ u).2 hreg
  rw [hstep, State.uopStep_eq (s := { s with script := ms }) hseq hu, hr]
  split
  case isTrue hw =>
    have he : State.uopEnabled { s with script := ms } u = false := (State.uopEnabled_eq_false_iff _ u).2 hw
    rw [he]
    rfl
  case isFalse hw =>
    have he : State.uopEnabled { s with script := ms } u = true := State.uopEnabled_of_not_waiting hw
    refine ⟨(issue u { s with script := ms }).advance c k, by rw [he]; rfl, ?_⟩
    rw [State.advance_eq, uopsOf_issue, issue_initDone]
    rfl

/-! ### A word waits for the port (R12) -/

theorem exec_of_busy {s : State} (h : s.seq ≠ .idle) (i : Instr) : exec i s = .next s := by
  cases i <;> simp [exec, execInit, execSetMode, execStartTx, execRdReg, h]

/-- `t` has the script and the operand latches of `s`. -/
structure State.SameOperands (s t : State) : Prop where
  script : t.script = s.script
  opCfg : t.opCfg = s.opCfg
  opBuf : t.opBuf = s.opBuf
  opLen : t.opLen = s.opLen
  opReg : t.opReg = s.opReg

/-- Neither the sequencer nor the channel nor the transmitter takes a move from the script or loads an operand latch. -/
theorem State.progress_sameOperands {s s' : State} (h : s.progress = .next s') : s.SameOperands s' := by
  rcases State.progress_next h with hu | ⟨-, -, rfl⟩ | ⟨-, -, rfl⟩ | ⟨-, -, -, rfl⟩ | ⟨-, -, -, rfl⟩
  · obtain ⟨c, k, u, -, -, -, -, rfl⟩ := State.uopStep_next hu
    constructor <;> simp
  · constructor <;> simp
  · constructor <;> simp
  · constructor <;> simp
  · exact ⟨rfl, rfl, rfl, rfl, rfl⟩

/-- Settles O10: on a busy port exec does nothing and a step is the sequencer's. -/
theorem commandWaitsForIdle : Obligations.CommandWaitsForIdle := by
  refine ⟨fun _ i h => exec_of_busy h i, fun s s' w ms hi hsc h => ?_⟩
  obtain ⟨hscript, hcfg, hbuf, hlen, hreg⟩ := State.progress_sameOperands ((step_of_waiting hi hsc).symm.trans h)
  exact ⟨hscript, hcfg, hbuf, hlen, hreg⟩

/-! ### What acceptance changes (R65): the latches, `SEQ` and the reasons that join `UNDEF` -/

theorem State.acceptInit_eq (s : State) :
    ∃ us, s.acceptInit = { s with seq := .run .init 1, stored := 0, undef := us } ∧ s.undef ⊆ us :=
  ⟨s.acceptInit.undef, by simp only [State.acceptInit, State.accept, State.recordIf],
    fun u hu => by simp [State.acceptInit, hu]⟩

theorem State.acceptSetMode_eq (cfg : Byte) (s : State) :
    ∃ us, s.acceptSetMode cfg = { s with opCfg := cfg, seq := .run .setMode 1, stored := 0, undef := us } ∧ s.undef ⊆ us :=
  ⟨(s.acceptSetMode cfg).undef, rfl, fun u hu => by simp [State.acceptSetMode, hu]⟩

theorem State.acceptStartTx_eq (buf : Addr) (len : Count) (s : State) :
    ∃ us, s.acceptStartTx buf len
        = { s with opBuf := buf, opLen := len, seq := .run .startTx 1, stored := 0, undef := us } ∧ s.undef ⊆ us :=
  ⟨(s.acceptStartTx buf len).undef, by simp only [State.acceptStartTx, State.accept, State.recordIf],
    fun u hu => by simp [State.acceptStartTx, hu]⟩

theorem State.acceptRdReg_eq (reg : BitVec 4) (s : State) :
    ∃ us, s.acceptRdReg reg = { s with opReg := reg, seq := .run .rdReg 1, stored := 0, undef := us } ∧ s.undef ⊆ us :=
  ⟨(s.acceptRdReg reg).undef, rfl, fun u hu => by simp [State.acceptRdReg, hu]⟩

/-- Settles O7: what each command's acceptance changes, and the index map's refusals. -/
theorem stepAcceptsPresentedCommand : Obligations.StepAcceptsPresentedCommand := by
  intro s w ms hi hsc
  refine ⟨fun hw => ?_, fun cfg hw => ?_, fun buf len hw => ?_, fun reg hw => ?_⟩ <;> rw [step_of_present hi hsc hw]
  · obtain ⟨us, he, hus⟩ := State.acceptInit_eq { s with script := ms }
    exact ⟨us, by rw [acceptCommand, he], hus⟩
  · obtain ⟨us, he, hus⟩ := State.acceptSetMode_eq cfg { s with script := ms }
    exact ⟨us, by rw [acceptCommand, he], hus⟩
  · obtain ⟨us, he, hus⟩ := State.acceptStartTx_eq buf len { s with script := ms }
    exact ⟨us, by rw [acceptCommand, he], hus⟩
  · have hr := regval_isNone { s with script := ms } reg
    split
    case isTrue h => simp [acceptCommand, hr.2 h]
    case isFalse h =>
      rw [← hr, Bool.not_eq_true] at h
      obtain ⟨us, he, hus⟩ := State.acceptRdReg_eq reg { s with script := ms }
      exact ⟨us, by simp only [acceptCommand, h, he, Bool.false_eq_true, ↓reduceIte], hus⟩

/-! ### A command is its uops, one step each (R12, R48, R110) -/

/-- The state with `SEQ` at uop `k + 1` of `c`. -/
def State.atUop (c : Cmd) (k : Nat) (s : State) : State := { s with seq := .run c (k + 1) }

/-- How many of the uops wait for a LATCH in an uninterrupted run (R110). -/
def State.settleWaits (s : State) : List Uop → Nat
  | [] => 0
  | u :: us => (if s.uopEnabled u then 0 else 1) + (s.issueSettled u).settleWaits us

/-- No uop reads `SEQ`. -/
theorem issue_atUop (u : Uop) (c : Cmd) (k : Nat) (s : State) : issue u (s.atUop c k) = (issue u s).atUop c k := by
  cases u <;> rfl

/-- An enabled uop taken as a step of its own. -/
theorem step_atUop {s : State} {c : Cmd} {k : Nat} {u : Uop} (hsc : s.script = []) (hu : (uopsOf s c)[k]? = some u)
    (hr : u ≠ .readReg) (he : s.uopEnabled u = true) :
    step (s.atUop c k) = .next (((issue u s).atUop c k).advance c k) := by
  have hu' : (uopsOf (s.atUop c k) c)[k]? = some u := hu
  have he' : (s.atUop c k).uopEnabled u = true := he
  have hn : (s.atUop c k).nextUop = some u := (State.nextUop_of_run rfl).trans hu'
  have hr' : (s.atUop c k).uopRefused u = false := (State.uopRefused_eq_false_iff _ u).2 fun h => absurd h hr
  rw [step_of_running (s := s.atUop c k) hsc rfl, ← issue_atUop]
  simp only [State.sequencerStep, hn, he', ↓reduceIte]
  rw [State.uopStep_eq (s := s.atUop c k) rfl hu', hr', he']
  rfl

/-- A uop that is not enabled waits for the LATCH, a step of its own. -/
theorem step_atUop_waiting {s : State} {c : Cmd} {k : Nat} {u : Uop} (hsc : s.script = [])
    (hu : (uopsOf s c)[k]? = some u) (he : s.uopEnabled u = false) : step (s.atUop c k) = .next (s.latch.atUop c k) := by
  have he' : (s.atUop c k).uopEnabled u = false := he
  have hn : (s.atUop c k).nextUop = some u := (State.nextUop_of_run rfl).trans hu
  rw [step_of_running (s := s.atUop c k) hsc rfl]
  simp only [State.sequencerStep, hn, he', Bool.false_eq_true, ↓reduceIte]
  rfl

/-- A uop of an uninterrupted run taken as steps of its own: the LATCH it waits for, then the uop. -/
theorem run_atUop {s : State} {c : Cmd} {k n : Nat} {u : Uop} (hsc : s.script = []) (hu : (uopsOf s c)[k]? = some u)
    (hr : u ≠ .readReg) :
    core.run (n + 1 + (if s.uopEnabled u then 0 else 1)) (s.atUop c k)
      = core.run n (((s.issueSettled u).atUop c k).advance c k) := by
  unfold State.issueSettled
  cases he : s.uopEnabled u
  case true => exact run_succ n (step_atUop hsc hu hr he)
  case false =>
    have hl : s.latch.uopEnabled u = true := by simp [State.uopEnabled]
    have hu' : (uopsOf s.latch c)[k]? = some u := by rwa [uopsOf_latch]
    exact (run_succ (n + 1) (step_atUop_waiting hsc hu he)).trans (run_succ n (step_atUop hsc hu' hr hl))

@[simp] theorem uopsOf_issueSettled (s : State) (u : Uop) (c : Cmd) : uopsOf (s.issueSettled u) c = uopsOf s c :=
  uopsOf_congr (State.issueSettled_par s u) (State.issueSettled_opCfg s u) c

/-- The uops from `k + 1` on, each a step of its own, end as the uops run at once: by induction on how many are left. -/
theorem run_uops {c : Cmd} {us : List Uop} {s : State} {k : Nat} (hsc : s.script = [])
    (hk : (uopsOf s c).drop k = us) (hne : us ≠ []) (hr : .readReg ∉ us) :
    core.run (us.length + s.settleWaits us) (s.atUop c k) = .next ((s.runUops us).finish c) := by
  induction us generalizing s k with
  | nil => exact absurd rfl hne
  | cons u us ih =>
    have hu : (uopsOf s c)[k]? = some u := by
      rw [← List.head?_drop, hk, List.head?_cons]
    have htail : (uopsOf (s.issueSettled u) c).drop (k + 1) = us := by
      rw [uopsOf_issueSettled, ← List.tail_drop, hk, List.tail_cons]
    have hlen : (uopsOf (s.issueSettled u) c).length = k + 1 + us.length := by
      have hlt := (List.getElem?_eq_some_iff.1 hu).1
      have := congrArg List.length htail
      rw [List.length_drop, uopsOf_issueSettled] at this
      rw [uopsOf_issueSettled]
      omega
    have hfuel : (u :: us).length + s.settleWaits (u :: us)
        = us.length + (s.issueSettled u).settleWaits us + 1 + (if s.uopEnabled u then 0 else 1) := by
      simp only [List.length_cons, State.settleWaits]
      omega
    rw [hfuel, run_atUop hsc hu fun h => hr (h ▸ List.mem_cons_self)]
    unfold State.advance
    split
    case isTrue h =>
      have hlen' : k + 1 = k + 1 + us.length := h.trans hlen
      obtain rfl : us = [] := List.eq_nil_of_length_eq_zero (by omega)
      rfl
    case isFalse h =>
      have hne : us ≠ [] := fun he => h (hlen.trans (by simp [he])).symm
      exact ih ((State.issueSettled_script s u).trans hsc) htail hne fun hm => hr (List.mem_cons_of_mem u hm)

@[simp] theorem State.settleWaits_append (s : State) (us vs : List Uop) :
    s.settleWaits (us ++ vs) = s.settleWaits us + (s.runUops us).settleWaits vs := by
  induction us generalizing s with
  | nil => simp [State.settleWaits, State.runUops]
  | cons u us ih =>
    rw [List.cons_append, State.settleWaits, State.settleWaits, ih, Nat.add_assoc]
    rfl

/-- Uops without SETTLE never wait (R110). -/
theorem State.settleWaits_eq_zero (s : State) {us : List Uop} (h : .settle ∉ us) : s.settleWaits us = 0 := by
  induction us generalizing s with
  | nil => rfl
  | cons u us ih =>
    have he : s.uopEnabled u = true := State.uopEnabled_of_not_waiting fun hw => h (hw.1 ▸ List.mem_cons_self)
    simp [State.settleWaits, he, ih _ fun hm => h (List.mem_cons_of_mem u hm)]

/-- A SETTLE that follows the arming of the channel waits once (R109, R110, R134). -/
theorem State.settleWaits_arm (s : State) : s.settleWaits [.arm, .settle] = 1 := rfl

theorem State.settleWaits_armTx (s : State) : s.settleWaits [.armTx, .settle] = 1 := rfl

theorem State.settleWaits_startTx (s : State) : s.settleWaits startTxUops = 1 := by
  rw [show startTxUops = [.descSrc, .descLen] ++ [.armTx, .settle] ++ [.txd] from rfl, State.settleWaits_append,
    State.settleWaits_append, State.settleWaits_armTx, State.settleWaits_eq_zero _ (by simp),
    State.settleWaits_eq_zero _ (by simp)]

theorem State.settleWaits_init (s : State) (p : Params) : s.settleWaits (initUops p) = 1 := by
  have hpre : .settle ∉ initPinUops p ++ initBaudUops ++ modeUops (preset p) ++ [.descInit, .slot] := by
    cases h : p.pTelemetryRx <;> simp [initPinUops, initBaudUops, modeUops, h]
  have hpost : .settle ∉ initRxUops p := by
    cases h : p.pTelemetryRx <;> simp [initRxUops, h]
  have hsplit : initUops p = initPinUops p ++ initBaudUops ++ modeUops (preset p) ++ [.descInit, .slot]
      ++ [.arm, .settle] ++ initRxUops p := by
    simp [initUops, initDmaUops]
  rw [hsplit, State.settleWaits_append, State.settleWaits_append, State.settleWaits_arm,
    State.settleWaits_eq_zero _ hpre, State.settleWaits_eq_zero _ hpost]

theorem readReg_not_mem_initUops (p : Params) : .readReg ∉ initUops p := by
  cases h : p.pTelemetryRx <;> simp [initUops, initPinUops, initRxUops, initBaudUops, modeUops, initDmaUops, h]

/-- A command without a read-back, run from its acceptance. -/
theorem run_accepted {a : State} {c : Cmd} (hsc : a.script = []) (hseq : a.seq = .run c 1) (hr : .readReg ∉ uopsOf a c) :
    core.run ((uopsOf a c).length + a.settleWaits (uopsOf a c)) a = .next (a.perform c) := by
  have hat : a.atUop c 0 = a := by simp only [State.atUop, ← hseq]
  have hne : uopsOf a c ≠ [] := List.ne_nil_of_length_pos (uopsOf_length_pos a c)
  have h := run_uops (k := 0) hsc (List.drop_zero) hne hr
  rwa [hat] at h

/-- RD_REG, run from its acceptance. -/
theorem run_acceptedRdReg {a : State} (hsc : a.script = []) (hseq : a.seq = .run .rdReg 1)
    (hr : (a.regval a.opReg).isNone = false) : core.run 1 a = .next (a.perform .rdReg) := by
  refine run_succ 0 ?_
  have hu : (uopsOf a .rdReg)[0]? = some .readReg := rfl
  have hn := (State.nextUop_of_run hseq).trans hu
  have hd : a.uopRefused .readReg = false := by simp [State.uopRefused, hr]
  have he : a.uopEnabled .readReg = true := rfl
  rw [step_of_running hsc hseq]
  simp only [State.sequencerStep, hn, he, ↓reduceIte]
  rw [State.uopStep_eq hseq hu, hd, he]
  rfl

/-- Settles O11: each command's uops, and the one LATCH that INIT and START_TX wait for. -/
theorem commandIsItsUops : Obligations.CommandIsItsUops := by
  intro s a i hi hsc ha
  cases i with
  | init =>
    cases ha
    refine ⟨.init, rfl, ?_⟩
    have h := run_accepted (a := s.acceptInit) (c := .init) hsc rfl (readReg_not_mem_initUops _)
    rw [show uopsOf s.acceptInit .init = initUops s.acceptInit.par from rfl, State.settleWaits_init] at h
    exact h.trans (exec_init hi).symm
  | setMode cfg =>
    cases ha
    have h := run_accepted (a := s.acceptSetMode cfg) (c := .setMode) hsc rfl (by simp [uopsOf, modeUops])
    exact ⟨.setMode, rfl, h.trans (exec_setMode cfg hi).symm⟩
  | startTx buf len =>
    cases ha
    refine ⟨.startTx, rfl, ?_⟩
    have h := run_accepted (a := s.acceptStartTx buf len) (c := .startTx) hsc rfl (by simp [uopsOf, startTxUops])
    rw [show uopsOf (s.acceptStartTx buf len) .startTx = startTxUops from rfl, State.settleWaits_startTx] at h
    exact h.trans (exec_startTx buf len hi).symm
  | rdReg reg =>
    cases hr : (s.regval reg).isNone <;> simp only [acceptCommand, hr] at ha
    · cases ha
      have h := run_acceptedRdReg (a := s.acceptRdReg reg) hsc rfl hr
      exact ⟨.rdReg, rfl, h.trans (exec_rdReg reg hi hr).symm⟩
    · cases ha

end Sys2Proof.Machine
end

/-! What no step takes away, what only grows, canonical memories, and the state after a reset. -/

section
namespace Sys2Proof.Machine

/-! ### What no step takes away (R30, R17, R28) -/

theorem undef_kept : Kept fun s t => s.undef ⊆ t.undef where
  refl _ := List.Subset.refl _
  trans _ _ _ := List.Subset.trans
  script _ _ := List.Subset.refl _
  issue := undef_subset_issue
  storeNext := undef_subset_storeNext
  latch := undef_subset_latch
  readDescByte s := fun u hu => by simp [hu]
  advance c k s := by simp
  finish _ _ := List.Subset.refl _
  acceptInit s := by obtain ⟨us, he, hus⟩ := s.acceptInit_eq; rwa [he]
  acceptSetMode cfg s := by obtain ⟨us, he, hus⟩ := s.acceptSetMode_eq cfg; rwa [he]
  acceptStartTx buf len s := by obtain ⟨us, he, hus⟩ := s.acceptStartTx_eq buf len; rwa [he]
  acceptRdReg reg s := by obtain ⟨us, he, hus⟩ := s.acceptRdReg_eq reg; rwa [he]

/-- No move of another agent than the sequencer but the reset input takes a reason out of `UNDEF`. -/
theorem undef_subset_agentMove {m : Move} {s s' : State} (h : State.agentMove m s = .next s') (hu : m ≠ .uop)
    (hst : m ≠ .store) (hr : ∀ l, m ≠ .reset l) : s.undef ⊆ s'.undef := by
  cases m with
  | command _ => cases h
  | present _ => cases h
  | uop => exact absurd rfl hu
  | store => exact absurd rfl hst
  | reset l => exact absurd rfl (hr l)
  | latch => obtain ⟨-, rfl⟩ := whenEnabled_next.1 h; exact undef_subset_latch s
  | latchByte => obtain ⟨-, rfl⟩ := whenEnabled_next.1 h; exact undef_subset_latchStep s
  | frameEnd => obtain ⟨-, rfl⟩ := whenEnabled_next.1 h; exact undef_subset_frameEnd s
  | rxByte _ => obtain ⟨-, rfl⟩ := whenEnabled_next.1 h; exact List.Subset.refl _
  | rxHandler => obtain ⟨-, rfl⟩ := whenEnabled_next.1 h; exact List.Subset.refl _
  | tableInstall => cases h; exact List.Subset.refl _
  | callerWrite a b => cases h; exact undef_subset_callerWrite a b s
  | shared w => cases h; exact undef_subset_sharedWrite w s
  | foreign w => cases h; exact undef_subset_foreignWrite w s
  | powerOn => cases h; exact List.Subset.refl _
  | storage rs => cases h; exact undef_subset_setStorage rs s

/-- Settles O55: every part of a step, FRAME_END and every move but the reset input only add reasons. -/
theorem undefIsSticky : Obligations.UndefIsSticky := by
  intro s s' h hr
  refine undef_kept.step h (fun t ht _ he => ?_) fun m ms hsc hm hu hst _ _ _ =>
    undef_subset_agentMove (s := { s with script := ms }) hm hu hst fun l hl => hr l ms (hl ▸ hsc)
  have hs : s.undef = t.undef := by rcases ht with rfl | ⟨ms, rfl⟩ <;> rfl
  rw [he, hs]
  exact undef_subset_frameEnd t

/-- The enables the block sets stay set from `s` to `t`. -/
structure State.EnablesKept (s t : State) : Prop where
  gie : s.gie = true → t.gie = true
  rxIe : s.rxIe = true → t.rxIe = true
  re : s.re = true → t.re = true
  modeEn : s.modeEn = true → t.modeEn = true

/-- Where the four registers are as they were, so are the enables. -/
theorem State.EnablesKept.of_eq {s t : State} (hg : t.gie = s.gie) (hi : t.rxIe = s.rxIe) (hc : t.ucsr = s.ucsr)
    (hf : t.ufmt = s.ufmt) : s.EnablesKept t :=
  ⟨fun h => hg ▸ h, fun h => hi ▸ h, fun h => by rwa [State.re, hc], fun h => by rwa [State.modeEn, hf]⟩

/-- A masked write keeps a bit at 1 that it does not reach or writes 1. -/
theorem getLsbD_maskedWrite_of_set {old mask v : Byte} {i : Nat} (h : old.getLsbD i = true)
    (hm : mask.getLsbD i = true → v.getLsbD i = true) : (maskedWrite old mask v).getLsbD i = true := by
  rw [getLsbD_maskedWrite]
  split
  · exact hm ‹_›
  · exact h

/-- The uops that write one of the four registers set its enable or leave it alone (R104, R112 to R114, R116). -/
theorem issue_enablesKept (u : Uop) (s : State) : s.EnablesKept (issue u s) := by
  have hs : s.EnablesKept s := .of_eq rfl rfl rfl rfl
  cases u with
  | modeEn => exact { hs with modeEn := fun h => getLsbD_maskedWrite_of_set h fun _ => by decide }
  | ufmtWr cfg => exact { hs with modeEn := fun h => getLsbD_maskedWrite_of_set h fun hm => absurd hm (by decide) }
  | reSet => exact { hs with re := fun h => getLsbD_maskedWrite_of_set h fun _ => by decide }
  | rxIeSet => exact { hs with rxIe := fun _ => rfl }
  | gieSet => exact { hs with gie := fun _ => rfl }
  | txd => apply State.EnablesKept.of_eq <;> simp [issue, uopTxd]
  | armTx => apply State.EnablesKept.of_eq <;> simp [issue, uopArmTx, State.recordInFlight]
  | descSrc => apply State.EnablesKept.of_eq <;> simp [issue, uopDescSrc, State.recordInFlight]
  | _ => exact .of_eq rfl rfl rfl rfl

theorem enables_kept : Kept State.EnablesKept where
  refl _ := .of_eq rfl rfl rfl rfl
  trans _ _ _ hab hbc := ⟨hbc.gie ∘ hab.gie, hbc.rxIe ∘ hab.rxIe, hbc.re ∘ hab.re, hbc.modeEn ∘ hab.modeEn⟩
  script _ _ := .of_eq rfl rfl rfl rfl
  issue := issue_enablesKept
  storeNext u s := .of_eq (by simp) (by simp) (by simp) (by simp)
  latch _ := .of_eq rfl rfl rfl rfl
  readDescByte _ := .of_eq rfl rfl rfl rfl
  advance c k s := .of_eq (by simp) (by simp) (by simp) (by simp)
  finish _ _ := .of_eq rfl rfl rfl rfl
  acceptInit _ := .of_eq rfl rfl rfl rfl
  acceptSetMode _ _ := .of_eq rfl rfl rfl rfl
  acceptStartTx _ _ _ := .of_eq rfl rfl rfl rfl
  acceptRdReg _ _ := .of_eq rfl rfl rfl rfl

theorem State.callerWrite_enablesKept (a : Addr) (b : Byte) (s : State) : s.EnablesKept (s.callerWrite a b) := by
  unfold State.callerWrite
  split <;> exact .of_eq rfl rfl rfl rfl

/-- Settles O57: only uops write the four registers, and FRAME_END and the environment's other moves leave them alone. -/
theorem blockNeverDisables : Obligations.BlockNeverDisables := by
  intro s s' h hr hsh hfo
  suffices hk : s.EnablesKept s' from ⟨hk.gie, hk.rxIe, hk.re, hk.modeEn⟩
  refine enables_kept.step h (fun t ht _ he => ?_) fun m ms hsc hm hu hst hl hlb hf => ?_
  · subst he
    rcases ht with rfl | ⟨ms, rfl⟩ <;> exact .of_eq (by simp) (by simp) (by simp) (by simp)
  · have hs : s.EnablesKept { s with script := ms } := enables_kept.script s ms
    cases m with
    | command _ => cases hm
    | present _ => cases hm
    | uop => exact absurd rfl hu
    | store => exact absurd rfl hst
    | latch => exact absurd rfl hl
    | latchByte => exact absurd rfl hlb
    | frameEnd => exact absurd rfl hf
    | reset l => exact absurd hsc (hr l ms)
    | shared w => exact absurd hsc (hsh w ms)
    | foreign w => exact absurd hsc (hfo w ms)
    | rxByte _ => obtain ⟨-, rfl⟩ := whenEnabled_next.1 hm; exact .of_eq rfl rfl rfl rfl
    | rxHandler => obtain ⟨-, rfl⟩ := whenEnabled_next.1 hm; exact .of_eq rfl rfl rfl rfl
    | callerWrite a b => cases hm; exact enables_kept.trans _ _ _ hs (State.callerWrite_enablesKept a b _)
    | tableInstall => cases hm; exact .of_eq rfl rfl rfl rfl
    | powerOn => cases hm; exact .of_eq rfl rfl rfl rfl
    | storage _ => cases hm; exact .of_eq rfl rfl rfl rfl

/-! ### The traces (R28, R29) -/

/-- A uop appends its events, and no other part of a step writes `EFFECTS` (R8, R28). -/
theorem effects_prefix_issue (u : Uop) (s : State) : s.effects <+: (issue u s).effects := by
  cases u with
  | readReg => exact List.prefix_rfl
  | armTx => simp [issue, uopArmTx, State.recordInFlight, State.armChannel]
  | txd => simp [issue, uopTxd]
  | _ => exact List.prefix_append _ _

theorem effects_kept : Kept fun s t => s.effects <+: t.effects where
  refl _ := List.prefix_rfl
  trans _ _ _ := List.IsPrefix.trans
  script _ _ := List.prefix_rfl
  issue := effects_prefix_issue
  storeNext u s := by simp
  latch _ := List.prefix_rfl
  readDescByte _ := List.prefix_rfl
  advance c k s := by simp
  finish _ _ := List.prefix_rfl
  acceptInit _ := List.prefix_rfl
  acceptSetMode _ _ := List.prefix_rfl
  acceptStartTx _ _ _ := List.prefix_rfl
  acceptRdReg _ _ := List.prefix_rfl

theorem wire_kept : Kept fun s t => t.wire = s.wire where
  refl _ := rfl
  trans _ _ _ hab hbc := hbc.trans hab
  script _ _ := rfl
  issue := issue_wire
  storeNext := storeNext_wire
  latch := State.latch_wire
  readDescByte := State.readDescByte_wire
  advance := State.advance_wire
  finish := State.finish_wire
  acceptInit _ := rfl
  acceptSetMode _ _ := rfl
  acceptStartTx _ _ _ := rfl
  acceptRdReg _ _ := rfl

/-- `t` has both traces as `s` has them. -/
structure State.SameTraces (s t : State) : Prop where
  effects : t.effects = s.effects
  wire : t.wire = s.wire

theorem State.callerWrite_sameTraces (a : Addr) (b : Byte) (s : State) : s.SameTraces (s.callerWrite a b) := by
  unfold State.callerWrite
  split <;> exact ⟨rfl, rfl⟩

theorem State.sharedWrite_sameTraces (w : SharedWrite) (s : State) : s.SameTraces (s.sharedWrite w) := by
  cases w <;> exact ⟨rfl, rfl⟩

theorem State.foreignWrite_sameTraces (w : ForeignWrite) (s : State) : s.SameTraces (s.foreignWrite w) := by
  cases w with
  | arm b => cases b <;> exact ⟨rfl, rfl⟩
  | _ => exact ⟨rfl, rfl⟩

/-- Only the sequencer, FRAME_END and the reset input write a trace. -/
theorem State.agentMove_sameTraces {m : Move} {s s' : State} (h : State.agentMove m s = .next s') (hu : m ≠ .uop)
    (hf : m ≠ .frameEnd) (hr : ∀ l, m ≠ .reset l) : s.SameTraces s' := by
  cases m with
  | command _ => cases h
  | present _ => cases h
  | uop => exact absurd rfl hu
  | frameEnd => exact absurd rfl hf
  | reset l => exact absurd rfl (hr l)
  | store => obtain ⟨u, -, -, rfl⟩ := State.storeStep_next h; exact ⟨by simp, by simp⟩
  | latch => obtain ⟨-, rfl⟩ := whenEnabled_next.1 h; exact ⟨rfl, rfl⟩
  | latchByte => obtain ⟨-, rfl⟩ := whenEnabled_next.1 h; exact ⟨by simp, by simp⟩
  | rxByte _ => obtain ⟨-, rfl⟩ := whenEnabled_next.1 h; exact ⟨rfl, rfl⟩
  | rxHandler => obtain ⟨-, rfl⟩ := whenEnabled_next.1 h; exact ⟨rfl, rfl⟩
  | callerWrite a b => cases h; exact s.callerWrite_sameTraces a b
  | shared w => cases h; exact s.sharedWrite_sameTraces w
  | foreign w => cases h; exact s.foreignWrite_sameTraces w
  | tableInstall => cases h; exact ⟨rfl, rfl⟩
  | powerOn => cases h; exact ⟨rfl, rfl⟩
  | storage _ => cases h; exact ⟨rfl, rfl⟩

/-- With the port free no step without a command appends to `EFFECTS`. -/
theorem State.progress_effects_of_idle {s s' : State} (hi : s.seq = .idle) (h : s.progress = .next s') :
    s'.effects = s.effects := by
  rcases State.progress_next h with hu | ⟨hn, -, -⟩ | ⟨-, -, rfl⟩ | ⟨-, -, -, rfl⟩ | ⟨-, -, -, rfl⟩
  · obtain ⟨c, k, u, hseq, -⟩ := State.uopStep_next hu
    simp [hi] at hseq
  · simp [State.nextUop, hi] at hn
  · rfl
  · exact State.frameEnd_effects s
  · rfl

theorem acceptCommand_effects {i : Instr} {s s' : State} (h : acceptCommand i s = .next s') : s'.effects = s.effects := by
  cases i <;> simp only [acceptCommand] at h
  case rdReg reg => split at h <;> cases h; rfl
  all_goals cases h; rfl

/-- What a step does to `WIRE`: nothing, or FRAME_END appends the frame on the wire (R29, R156). -/
theorem step_wire {s s' : State} (h : step s = .next s') (hr : ∀ l ms, s.script ≠ .reset l :: ms) :
    s'.wire = s.wire ∨ (s.txBusy = true ∧ s'.effects = s.effects
      ∧ s'.wire = s.wire ++ [(s.txShift, frame s.txFmt s.txShift)]) := by
  by_cases hend : s.txBusy = true ∧ ∃ t, (t = s ∨ ∃ ms, t = { s with script := ms }) ∧ s' = t.frameEnd
  · obtain ⟨hb, t, ht, rfl⟩ := hend
    refine .inr ⟨hb, ?_, ?_⟩ <;> rcases ht with rfl | ⟨ms, rfl⟩ <;> simp
  · refine .inl (wire_kept.step h (fun t ht hb he => absurd ⟨hb, t, ht, he⟩ hend) ?_)
    intro m ms hsc hm hu _ _ _ hf
    exact (State.agentMove_sameTraces (s := { s with script := ms }) hm hu hf fun l hl => hr l ms (hl ▸ hsc)).wire

theorem step_effects_prefix {s s' : State} (h : step s = .next s') (hr : ∀ l ms, s.script ≠ .reset l :: ms) :
    s.effects <+: s'.effects := by
  refine effects_kept.step h (fun t ht _ he => ?_) fun m ms hsc hm hu _ _ _ hf => ?_
  · subst he
    rcases ht with rfl | ⟨ms, rfl⟩ <;> simp
  · have ht := State.agentMove_sameTraces (s := { s with script := ms }) hm hu hf fun l hl => hr l ms (hl ▸ hsc)
    exact ht.effects ▸ List.prefix_rfl

/-- A presented word on a free port appends nothing: acceptance issues no uop (R65). -/
theorem step_effects_of_present {s s' : State} {w : CmdWord} {ms : List Move} (h : step s = .next s')
    (hi : s.seq = .idle) (hsc : s.script = .present w :: ms) : s'.effects = s.effects := by
  cases hw : decode w with
  | ok i =>
    rw [step_of_present hi hsc hw] at h
    exact acceptCommand_effects (s := { s with script := ms }) h
  | error r => simp [step, hsc, hi, onCommand, hw] at h

/-- A move of an agent, the reset input apart, appends only as a uop of the command in progress. -/
theorem State.agentMove_effects {m : Move} {s s' : State} (h : State.agentMove m s = .next s') (hr : ∀ l, m ≠ .reset l) :
    s'.effects = s.effects ∨ (s.seq ≠ .idle ∧ m = .uop) := by
  by_cases hu : m = .uop
  · subst hu
    obtain ⟨c, k, u, hseq, -⟩ := State.uopStep_next h
    exact .inr ⟨by simp [hseq], rfl⟩
  by_cases hf : m = .frameEnd
  · subst hf
    obtain ⟨-, rfl⟩ := whenEnabled_next.1 h
    exact .inl (State.frameEnd_effects s)
  · exact .inl (State.agentMove_sameTraces h hu hf hr).effects

/-- Which steps append to `EFFECTS`: those that run a command, or in which the sequencer goes on with one (R12, R28). -/
theorem step_effects {s s' : State} (h : step s = .next s') (hr : ∀ l ms, s.script ≠ .reset l :: ms) :
    s'.effects = s.effects ∨ (s.seq = .idle ∧ ∃ w ms, s.script = .command w :: ms)
      ∨ (s.seq ≠ .idle ∧ (s.script = [] ∨ (∃ ms, s.script = .uop :: ms)
        ∨ ∃ w ms, s.script = .command w :: ms ∨ s.script = .present w :: ms)) := by
  by_cases hc : ∃ w ms, s.script = .command w :: ms
  · obtain ⟨w, ms, hsc⟩ := hc
    by_cases hi : s.seq = .idle
    · exact .inr (.inl ⟨hi, w, ms, hsc⟩)
    · exact .inr (.inr ⟨hi, .inr (.inr ⟨w, ms, .inl hsc⟩)⟩)
  by_cases hp : ∃ w ms, s.script = .present w :: ms
  · obtain ⟨w, ms, hsc⟩ := hp
    by_cases hi : s.seq = .idle
    · exact .inl (step_effects_of_present h hi hsc)
    · exact .inr (.inr ⟨hi, .inr (.inr ⟨w, ms, .inr hsc⟩)⟩)
  cases hsc : s.script with
  | nil =>
    by_cases hi : s.seq = .idle
    · exact .inl (State.progress_effects_of_idle hi ((step_of_nil hsc).symm.trans h))
    · exact .inr (.inr ⟨hi, .inl rfl⟩)
  | cons m ms =>
    rw [step_of_move (fun w hm => hc ⟨w, ms, hm ▸ hsc⟩) (fun w hm => hp ⟨w, ms, hm ▸ hsc⟩) hsc] at h
    rcases State.agentMove_effects h fun l hl => hr l ms (hl ▸ hsc) with he | ⟨hi, rfl⟩
    · exact .inl he
    · exact .inr (.inr ⟨hi, .inr (.inl ⟨ms, rfl⟩)⟩)

/-- Settles O58: the three facts about the traces, over every step but a reset. -/
theorem tracesOnlyGrow : Obligations.TracesOnlyGrow := fun _ _ h hr =>
  ⟨step_effects_prefix h hr, step_wire h hr, step_effects h hr⟩

/-! ### Canonical memories (R31; log 5) -/

/-- Nothing is listed below the bound of the form. -/
theorem Memory.read_of_lt {lo : Nat} {m : Memory} {a : Addr} (hw : Memory.wfFrom lo m = true) (ha : a.toNat < lo) :
    m.read a = Memory.unlisted := by
  induction m generalizing lo with
  | nil => rfl
  | cons c m ih =>
    obtain ⟨k, v⟩ := c
    simp only [Memory.wfFrom, Bool.and_eq_true, decide_eq_true_eq] at hw
    obtain ⟨⟨⟨hlo, -⟩, -⟩, htail⟩ := hw
    rw [Memory.read_cons, if_neg (by omega)]
    exact ih htail (by omega)

/-- The first entry of a canonical memory is read at its own address, which lies in memory, and is no unlisted byte. -/
theorem Memory.read_head {lo k : Nat} {v : Byte} {m : Memory} (hw : Memory.wfFrom lo ((k, v) :: m) = true) :
    ∃ a : Addr, a.toNat = k ∧ Memory.read ((k, v) :: m) a = v ∧ v ≠ Memory.unlisted := by
  simp only [Memory.wfFrom, Bool.and_eq_true, decide_eq_true_eq] at hw
  obtain ⟨⟨⟨-, hk⟩, hv⟩, -⟩ := hw
  have ha : (BitVec.ofNat 16 k).toNat = k := by
    rw [BitVec.toNat_ofNat]
    omega
  exact ⟨BitVec.ofNat 16 k, ha, by rw [Memory.read_cons, if_pos ha.symm], hv⟩

/-- A memory that reads as one whose first entry is at `k` lists nothing only from above `k` on. -/
theorem Memory.bound_le_of_read_eq {lo lo' k : Nat} {v : Byte} {m n : Memory}
    (hm : Memory.wfFrom lo ((k, v) :: m) = true) (hn : Memory.wfFrom lo' n = true)
    (h : ∀ a, Memory.read ((k, v) :: m) a = Memory.read n a) : lo' ≤ k := by
  obtain ⟨a, ha, hread, hv⟩ := Memory.read_head hm
  by_contra hlt
  exact hv (hread.symm.trans ((h a).trans (Memory.read_of_lt hn (by omega))))

/-- The bound of a canonical memory may be taken to be its first key. -/
theorem Memory.wfFrom_head {lo k : Nat} {v : Byte} {m : Memory} (hw : Memory.wfFrom lo ((k, v) :: m) = true) :
    Memory.wfFrom k ((k, v) :: m) = true ∧ Memory.wfFrom (k + 1) m = true := by
  simp only [Memory.wfFrom, Bool.and_eq_true, decide_eq_true_eq, Nat.le_refl, true_and] at hw ⊢
  obtain ⟨⟨⟨-, hk⟩, hv⟩, htail⟩ := hw
  exact ⟨⟨⟨hk, hv⟩, htail⟩, htail⟩

/-- Canonical memories that read alike begin with the same entry, and their rests read alike. -/
theorem Memory.eq_of_read_eq {lo lo' : Nat} {m n : Memory} (hm : Memory.wfFrom lo m = true)
    (hn : Memory.wfFrom lo' n = true) (h : ∀ a, Memory.read m a = Memory.read n a) : m = n := by
  induction m generalizing lo lo' n with
  | nil =>
    cases n with
    | nil => rfl
    | cons c n =>
      have := Memory.bound_le_of_read_eq (lo' := c.1 + 1) hn rfl fun a => (h a).symm
      omega
  | cons c m ih =>
    obtain ⟨k, v⟩ := c
    cases n with
    | nil =>
      have := Memory.bound_le_of_read_eq (lo' := k + 1) hm rfl h
      omega
    | cons d n =>
      obtain ⟨j, w⟩ := d
      obtain ⟨hmk, hmt⟩ := Memory.wfFrom_head hm
      obtain ⟨hnj, hnt⟩ := Memory.wfFrom_head hn
      obtain rfl : j = k := Nat.le_antisymm (Memory.bound_le_of_read_eq hm hnj h)
        (Memory.bound_le_of_read_eq hn hmk fun a => (h a).symm)
      obtain ⟨a, ha, hread, -⟩ := Memory.read_head hm
      obtain rfl : w = v := by rw [← hread, h a, Memory.read_cons, if_pos ha.symm]
      refine congrArg _ (ih hmt hnt fun b => ?_)
      by_cases hb : j = b.toNat
      · rw [Memory.read_of_lt hmt (by omega), Memory.read_of_lt hnt (by omega)]
      · simpa [Memory.read_cons, hb] using h b

/-- Settles O49, by induction on the lists: they begin alike and their rests read alike. -/
theorem canonicalMemoryIsExtensional : Obligations.CanonicalMemoryIsExtensional :=
  fun _ _ hm hn h => Memory.eq_of_read_eq hm hn h

/-! ### Right after reset (R33) -/

theorem State.ofLaunch_handshake (p : Params) (l : Launch) (n : Nat) (ms : List Move) :
    (State.ofLaunch p l n ms).Handshake where
  initOnce _ h := by cases h
  table h := by simp [State.ofLaunch] at h
  modeEn h := by cases h
  desc h := by cases h
  slot h := by cases h
  partway := rfl
  memStored _ _ _ h := by cases h
  slotStored h := by cases h
  noTxBeforeInit _ := ⟨rfl, fun _ h => by cases h⟩
  pending h := by cases h
  reading _ h := by cases h
  idle _ := rfl
  armed h := by cases h
  transmitting h := by cases h
  txPosition _ h := by cases h
  txLen _ h := by cases h
  txLatched _ h := by cases h

theorem State.ofLaunch_inv {p : Params} {l : Launch} (hp : p.wf = true) (hm : Memory.wf l.mem = true) (n : Nat)
    (ms : List Move) : (State.ofLaunch p l n ms).inv = true := by
  have hd : (State.ofLaunch p l n ms).DataForm :=
    { par := hp
      mem := hm
      ugcr := zeroExtend_reserved l.ugcr
      ucsr := by cases hr : l.re <;> simp [State.ofLaunch, hr]
      latching := by simp [State.ofLaunch]
      undef := rfl }
  exact State.inv_of_idle hd rfl rfl

/-- Settles O51: the table of R33, and every launch's form and handshake. -/
theorem resetLeavesTheControlState : Obligations.ResetLeavesTheControlState := by
  refine ⟨fun p l n ms => ?_, fun p l n ms hp hm => State.ofLaunch_inv hp hm n ms, by decide,
    State.ofLaunch_handshake⟩
  have hugcr : (l.ugcr.zeroExtend 8).extractLsb' 6 2 = 0#2 := by
    generalize l.ugcr = v
    revert v
    decide
  have hucsr : (if l.re then 0x40#8 else 0x00#8) &&& 0xBF#8 = 0 := by cases l.re <;> rfl
  exact ⟨rfl, rfl, rfl, rfl, rfl, rfl, rfl, rfl, rfl, rfl, rfl, rfl, hugcr, hucsr, rfl⟩

end Sys2Proof.Machine
end

/-! What external owners, the environment and non-owners write. -/

section
namespace Sys2Proof.Machine

/-! ### Writes of external owners and the environment (R17, R34, R232, R53) -/

/-- A write of a shared element that only the idle sequencer allows is U12 while a command runs (R17; log 20). -/
theorem addUndef_busy (s : State) :
    addUndef (decide (s.seq ≠ .idle)) .u12 s.undef = if s.seq = .idle then s.undef else insertUndef .u12 s.undef := by
  by_cases h : s.seq = .idle <;> simp [h]

/-- `UCSR.RE` is bit 6, and the masked write of it keeps the others (R8, R16). -/
theorem maskedWrite_re (v : Byte) (b : Bool) :
    maskedWrite v 0x40 (if b then 0x40 else 0x00)
      = (v.extractLsb' 7 1 ++ BitVec.ofBool b ++ v.extractLsb' 0 6 : BitVec 8) := by
  revert v b
  decide

theorem getLsbD_putBit_fin {n : Nat} (v : BitVec n) (i : Fin n) (b : Bool) (j : Fin n) :
    (putBit v i.val b).getLsbD j = if j = i then b else v.getLsbD j := by
  simp only [getLsbD_putBit v i.val b j.isLt, Fin.ext_iff]

theorem step_shared {s : State} {w : SharedWrite} {ms : List Move} (hsc : s.script = .shared w :: ms) :
    step s = .next (State.sharedWrite w { s with script := ms }) :=
  step_of_move (by simp) (by simp) hsc

theorem step_foreign {s : State} {w : ForeignWrite} {ms : List Move} (hsc : s.script = .foreign w :: ms) :
    step s = .next (State.foreignWrite w { s with script := ms }) :=
  step_of_move (by simp) (by simp) hsc

/-- The buffer that a storage no longer holds is U7 (R53, R237; log 17). -/
theorem State.mem_setStorage_undef (rs : List Region) (s : State) (u : Undef) :
    u ∈ (s.setStorage rs).undef
      ↔ u ∈ s.undef ∨ (u = .u7 ∧ ∃ r, s.flight = some r ∧ inStorage rs r.1 r.2 = false) := by
  cases hf : s.flight <;> simp [State.setStorage, hf, or_comm, and_comm]

theorem State.setStorage_undef_of_kept {rs : List Region} {s : State}
    (h : ∀ r, s.flight = some r → inStorage rs r.1 r.2 = true) : (s.setStorage rs).undef = s.undef := by
  cases hf : s.flight with
  | none => simp [State.setStorage, hf]
  | some r => simp [State.setStorage, hf, h r hf]

/-- While START_TX runs the operands name the buffer (R53; log 15). -/
theorem State.flight_of_startTx {s : State} {k : Nat} (h : s.seq = .run .startTx k) :
    s.flight = some (s.opBuf, s.opLen.toNat + 1) := by
  simp [State.flight, h]

/-- Outside START_TX no buffer is in flight in `Idle`, and else the descriptor names it (R237; log 15). -/
theorem State.flight_of_not_startTx {s : State} (h : ∀ k, s.seq ≠ .run .startTx k) :
    s.flight = if s.txState = .idle then none
      else some (joinBytes (s.mem.read s.par.descAddr) (s.mem.read (s.par.descAddr + 1)),
        (lenOfBytes (s.mem.read (s.par.descAddr + 4)) (s.mem.read (s.par.descAddr + 5))).toNat) := by
  unfold State.flight
  split
  · exact absurd ‹_› (h _)
  · rfl

theorem inStorage_iff (rs : List Region) (lo : Addr) (n : Nat) :
    inStorage rs lo n = true ↔ ∃ g ∈ rs, g.base.toNat ≤ lo.toNat ∧ lo.toNat + n ≤ g.base.toNat + g.size := by
  simp [inStorage]

/-- A powered peripheral runs SET_MODE without U11 (R27, R215). -/
theorem exec_setMode_powered {s : State} (hi : s.seq = .idle) (hp : s.powered = true) (cfg : Byte) :
    ∃ r, exec (.setMode cfg) s = .next r ∧ r.undef = s.undef := by
  refine ⟨_, exec_setMode cfg hi, ?_⟩
  show addUndef (!s.powered) .u11 s.undef = s.undef
  simp [hp]

/-- Settles O46: each move is one record update. -/
theorem environmentWritesChangeOneElement : Obligations.EnvironmentWritesChangeOneElement := by
  refine ⟨fun s ms us hus => ?_, fun s ms hsc => ?_, fun s rs ms hsc => ?_⟩
  · rw [← addUndef_busy] at hus
    subst hus
    refine ⟨fun b hsc => ?_, fun b hsc => ?_, fun v hsc => ?_, fun b hsc => ?_, fun i b hsc => ?_, fun p b hsc => ?_,
      fun p b hsc => ?_⟩ <;> rw [step_shared hsc]
    · rfl
    · rfl
    · rfl
    · rw [← maskedWrite_re]
      rfl
    · exact ⟨putBit s.pmLoc i.val b, rfl, getLsbD_putBit_fin s.pmLoc i b⟩
    · exact ⟨putBit s.pmFunc p.val b, rfl, getLsbD_putBit_fin s.pmFunc p b⟩
    · exact ⟨putBit s.pmDir p.val b, rfl, getLsbD_putBit_fin s.pmDir p b⟩
  · have hstep : step s = .next (State.powerOn { s with script := ms }) := step_of_move (by simp) (by simp) hsc
    exact ⟨_, hstep, rfl, fun hi cfg => exec_setMode_powered (s := State.powerOn { s with script := ms }) hi rfl cfg⟩
  · have hstep : step s = .next (State.setStorage rs { s with script := ms }) := step_of_move (by simp) (by simp) hsc
    refine ⟨(State.setStorage rs { s with script := ms }).undef, hstep, State.mem_setStorage_undef rs { s with script := ms },
      State.setStorage_undef_of_kept (s := { s with script := ms }), fun k => State.flight_of_startTx, fun hseq htx => ?_,
      fun hseq htx => ?_, inStorage_iff rs⟩
    · rw [State.flight_of_not_startTx hseq, if_pos htx]
    · rw [State.flight_of_not_startTx hseq, if_neg htx]
      rfl

/-! ### Writes of non-owners (R34, R210) -/

theorem zeroExtend_eq_append (v : BitVec 6) : v.zeroExtend 8 = (0#2 ++ v : BitVec 8) := by
  revert v
  decide

/-- The format in force has `UFMT.FLOW_EN` (R24). -/
theorem State.flowEn_format (s : State) : flowEn s.format = s.ufmt.getLsbD 6 := by
  simp only [flowEn, State.format, BitVec.getLsbD_append]
  simp

/-- Which reasons a write of `UDBUF` adds (R155, R164). -/
theorem State.mem_frameStart_undef (b : Byte) (s : State) (u : Undef) :
    u ∈ (s.frameStart b).undef ↔ u ∈ s.undef ∨ (u = .u13 ∧ s.txBusy = true) ∨ (u = .u23 ∧ s.modeEn = false)
      ∨ (u = .u15 ∧ s.ufmt.getLsbD 6 = true) := by
  simp only [State.frameStart_undef, mem_addUndef, State.flowEn_format, Bool.not_eq_true']
  tauto

/-- On a free transmitter the byte and the format in force are sampled (R155). -/
theorem State.frameStart_of_free {s : State} (h : s.txBusy = false) (b : Byte) :
    ∃ vs, s.frameStart b = { s with txShift := b, txFmt := s.format, txBusy := true, undef := vs }
      ∧ ∀ u, u ∈ vs ↔ u ∈ s.undef ∨ (u = .u23 ∧ s.modeEn = false) ∨ (u = .u15 ∧ s.ufmt.getLsbD 6 = true) := by
  refine ⟨(s.frameStart b).undef, by simp [State.frameStart, h], fun u => ?_⟩
  rw [State.mem_frameStart_undef]
  simp [h]

/-- On a busy transmitter the byte with the format in force replaces the old or is lost (U13; log 14). -/
theorem State.frameStart_of_busy {s : State} (h : s.txBusy = true) (b : Byte) :
    ∃ sh fm fr vs, s.frameStart b = { s with txShift := sh, txFmt := fm, free := fr, undef := vs }
      ∧ (sh = b ∧ fm = s.format ∨ sh = s.txShift ∧ fm = s.txFmt)
      ∧ ∀ u, u ∈ vs ↔ u ∈ s.undef ∨ u = .u13 ∨ (u = .u23 ∧ s.modeEn = false) ∨ (u = .u15 ∧ s.ufmt.getLsbD 6 = true) := by
  refine ⟨(s.frameStart b).txShift, (s.frameStart b).txFmt, (s.frameStart b).free, (s.frameStart b).undef, ?_, ?_,
    fun u => ?_⟩
  · simp only [State.frameStart, ← h]
  · cases hl : s.writeLost <;> simp [hl]
  · rw [State.mem_frameStart_undef]
    simp [h]

/-- Settles O47: each write is one record update; that of `UDBUF` is FRAME_START. -/
theorem foreignWritesAreRecorded : Obligations.ForeignWritesAreRecorded := by
  rintro s ms us rfl
  refine ⟨fun a hsc => ?_, fun hsc => ?_, fun hsc => ?_, fun v hsc => ?_, fun v hsc => ?_, fun v hsc => ?_, fun b hsc => ?_,
    fun b hsc hb => ?_, fun b hsc hb => ?_⟩ <;> rw [step_foreign hsc]
  · rfl
  · rfl
  · rfl
  · rfl
  · rw [← zeroExtend_eq_append]
    rfl
  · rfl
  · rfl
  · obtain ⟨vs, he, hvs⟩ := State.frameStart_of_free (s := State.recordIf true .u12 { s with script := ms }) hb b
    exact ⟨vs, congrArg _ he, hvs⟩
  · obtain ⟨sh, fm, fr, vs, he, hsh, hvs⟩ :=
      State.frameStart_of_busy (s := State.recordIf true .u12 { s with script := ms }) hb b
    exact ⟨sh, fm, fr, vs, congrArg _ he, hsh, hvs⟩

end Sys2Proof.Machine
end

/-! Moves of one byte: the sequencer's stores and the channel's reads, and that those made one at a time end as those made
at once (R44). -/

section
namespace Sys2Proof.Machine

theorem run_one (s : State) : core.run 1 s = step s := by
  have key : ∀ (M : Host.Core) (a : M.State), M.run 1 a = M.step a := by
    intro M a
    simp only [Host.Core.run]
    cases M.step a <;> rfl
  exact key core s

/-! ### Store moves (R44; log 19) -/

theorem step_store {s : State} {ms : List Move} {u : Uop} (hsc : s.script = .store :: ms) (hu : s.nextUop = some u) :
    step s
      = if s.stored + 1 < storeCount u then .next (storeNext u { s with script := ms }) else .fault .stepNotEnabled := by
  have hu' : State.nextUop { s with script := ms } = some u := hu
  rw [step_of_move (by simp) (by simp) hsc]
  simp only [State.agentMove, State.storeStep, hu']

/-- The next byte of a uop that stores in `MEM`, with U1 for DESC_SRC while a transfer is in flight (log 11). -/
theorem storeNext_of_memStores {u : Uop} {s : State} {a : Addr} {bs : List Byte} {b : Byte}
    (hm : memStores u s = some (a, bs)) (hb : bs[s.stored]? = some b) :
    storeNext u s = { s with
      mem := s.mem.write (a + BitVec.ofNat 16 s.stored) b
      undef := addUndef (decide (u = .descSrc) && decide (s.txState ≠ .idle)) .u1 s.undef
      stored := s.stored + 1 } := by
  have hbyte : (bs.drop s.stored).take 1 = [b] := by
    rw [List.take_one, List.head?_drop, hb]
    rfl
  simp only [storeNext, hm, hbyte, Memory.writeList_cons, Memory.writeList_nil]

/-- Of the uops with several stores SLOT alone stores none of them in `MEM` (R108). -/
theorem eq_slot_of_memStores_none {u : Uop} {s : State} (hm : memStores u s = none) (hc : 1 < storeCount u) :
    u = .slot := by
  cases u with
  | slot => rfl
  | descInit => cases hm
  | descSrc => cases hm
  | descLen => cases hm
  | _ => exact absurd hc (lt_irrefl 1)

theorem storeCount_pos (u : Uop) : 0 < storeCount u := by
  cases u <;> simp [storeCount]

@[simp] theorem uopsOf_storeNext (u : Uop) (s : State) (c : Cmd) : uopsOf (storeNext u s) c = uopsOf s c :=
  uopsOf_congr (storeNext_par u s) (storeNext_opCfg u s) c

/-- No store reads the script. -/
theorem storeNext_withScript (u : Uop) (s : State) (ms : List Move) :
    storeNext u { s with script := ms } = { storeNext u s with script := ms } := by
  cases u <;> rfl

/-- A uop with several stores is no read-back, so it is not refused (R182). -/
theorem State.uopRefused_of_storing {u : Uop} (s : State) (hc : 1 < storeCount u) : s.uopRefused u = false := by
  rw [State.uopRefused_eq_false_iff]
  rintro rfl
  exact absurd hc (lt_irrefl 1)

/-- One more of its stores made, a uop move ends as it would have ended (R44). -/
theorem State.uopStep_storeNext {s : State} {c : Cmd} {k : Nat} {u : Uop} (hs : s.seq = .run c (k + 1))
    (hu : (uopsOf s c)[k]? = some u) (hc : s.stored + 1 < storeCount u) : (storeNext u s).uopStep = s.uopStep := by
  have hs' : (storeNext u s).seq = .run c (k + 1) := (storeNext_seq u s).trans hs
  have hu' : (uopsOf (storeNext u s) c)[k]? = some u := by rwa [uopsOf_storeNext]
  have he : (storeNext u s).uopEnabled u = s.uopEnabled u := by
    simp only [State.uopEnabled, storeNext_loadPending]
  have h1 : 1 < storeCount u := by omega
  rw [State.uopStep_eq hs' hu', State.uopStep_eq hs hu, he, issue_storeNext hc, State.uopRefused_of_storing _ h1,
    State.uopRefused_of_storing _ h1]

/-- The stores that are left of a uop, one move each, and then the uop move: by induction on how many are left (R44). -/
theorem run_stores {s : State} {ms : List Move} {c : Cmd} {k n : Nat} {u : Uop} (hs : s.seq = .run c (k + 1))
    (hu : (uopsOf s c)[k]? = some u) (hn : s.stored + n + 1 = storeCount u)
    (hsc : s.script = List.replicate n .store ++ .uop :: ms) :
    core.run (n + 1) s = State.uopStep { s with script := ms } := by
  induction n generalizing s with
  | zero => exact (run_one s).trans (step_of_move (by simp) (by simp) hsc)
  | succ n ih =>
    have hc : s.stored + 1 < storeCount u := by omega
    have hstep := (step_store hsc ((State.nextUop_of_run hs).trans hu)).trans (if_pos hc)
    have hrest := State.uopStep_storeNext (s := { s with script := ms }) hs hu hc
    rw [storeNext_withScript] at hstep hrest
    refine (run_succ _ hstep).trans ((ih (s := { storeNext u s with script := _ }) ?_ ?_ ?_ rfl).trans hrest)
    · rwa [storeNext_seq]
    · rwa [← uopsOf_storeNext u] at hu
    · rw [storeNext_stored]
      omega

/-- Settles O9: a store move is one record update, and the stores made one at a time end as those made at once. -/
theorem storeMoveStoresOneByte : Obligations.StoreMoveStoresOneByte := by
  refine ⟨fun s ms u hsc hu => ⟨fun hc => ?_, fun hc => ?_⟩, fun s ms c k u hs hu h0 hsc => ?_⟩
  · rw [step_store hsc hu, if_neg (Nat.not_lt.2 hc)]
  · rw [step_store hsc hu, if_pos hc]
    refine ⟨fun a bs hm => ?_, fun hm => ?_⟩
    · have hlt : s.stored < bs.length := by rw [memStores_length hm]; omega
      have hb : bs[s.stored]? = some bs[s.stored] := List.getElem?_eq_getElem hlt
      refine ⟨_, _, hb, congrArg _ (storeNext_of_memStores (s := { s with script := ms }) hm hb), fun v hv => ?_,
        fun h => ?_, fun hu htx => ?_⟩
      · simp [hv]
      · rcases h with h | h <;> simp [h]
      · simp [hu, htx]
    · obtain rfl := eq_slot_of_memStores_none hm (by omega)
      exact ⟨rfl, rfl⟩
  · have hpos := storeCount_pos u
    have hrun := run_stores hs hu (by omega) hsc
    rw [Nat.sub_add_cancel hpos] at hrun
    have huop := step_of_move (s := { s with script := .uop :: ms }) (by simp) (by simp) rfl
    exact hrun.trans huop.symm

/-! ### Read moves (R44, R150; log 32) -/

theorem step_latch {s : State} {ms : List Move} (hsc : s.script = .latch :: ms) (hp : s.loadPending = true) :
    step s = .next (State.latch { s with script := ms }) :=
  (step_of_move (by simp) (by simp) hsc).trans (if_pos hp)

theorem step_latchByte {s : State} {ms : List Move} (hsc : s.script = .latchByte :: ms) (hp : s.loadPending = true) :
    step s = .next (State.latchStep { s with script := ms }) :=
  (step_of_move (by simp) (by simp) hsc).trans (if_pos hp)

/-- Without `LOAD_PENDING` no read is enabled (log 9). -/
theorem step_latchByte_of_not_pending {s : State} {ms : List Move} (hsc : s.script = .latchByte :: ms)
    (hp : s.loadPending = false) : step s = .fault .stepNotEnabled :=
  (step_of_move (by simp) (by simp) hsc).trans (if_neg (ne_true_of_eq_false hp))

theorem State.latchStep_of_lt {s : State} (h : s.latchCount < 7) : s.latchStep = s.readDescByte := if_pos h

/-- The eighth read is LATCH's last (R150). -/
theorem State.latchStep_of_eighth {s : State} (h : s.latchCount = 7) : s.latchStep = s.latch :=
  if_neg (by omega)

/-- With the place known, each of the first seven reads takes the byte `MEM` holds now (R150). -/
theorem State.latchStep_of_place {s : State} {a : Addr} {bs : List Byte} (h : s.latchRead = ⟨some a, bs⟩)
    (hlen : bs.length < 7) :
    s.latchStep = { s with latching := some ⟨some a, bs ++ [s.mem.read (a + BitVec.ofNat 16 bs.length)]⟩ } := by
  have hl : s.latchLost = false := by simp [State.latchLost, h]
  have hc : s.latchCount = bs.length := by simp [State.latchCount, h]
  have hb : s.latchByte bs.length = s.mem.read (a + BitVec.ofNat 16 bs.length) := by simp [State.latchByte, h]
  simp only [State.latchStep, State.readDescByte, hl, hc, hlen, hb, h, addUndef_false, Bool.false_eq_true, ↓reduceIte]

/-- What LATCH reads is foreign, U22, unless control fields and destination are the block's (R73). -/
theorem State.addUndef_latchForeign (s : State) (us : List Undef) :
    addUndef s.latchForeign .u22 us
      = if s.latchCtl = blockCtl s.par ∧ s.latchDst = udbufAddr s.par then us else insertUndef .u22 us := by
  by_cases hc : s.latchCtl = blockCtl s.par <;> by_cases hd : s.latchDst = udbufAddr s.par <;>
    simp [State.latchForeign, hc, hd]

/-- With seven bytes taken from a known place, LATCH loads them and the byte `MEM` holds now (R150, R73). -/
theorem State.latch_of_seven {s : State} {a : Addr} {d0 d1 d2 d3 d4 d5 d6 : Byte}
    (h : s.latching = some ⟨some a, [d0, d1, d2, d3, d4, d5, d6]⟩) :
    s.latch = { s with
      wSrc := joinBytes d0 d1
      wDst := joinBytes d2 d3
      wCnt := lenOfBytes d4 d5
      wCtl := ctlOfBytes d4 d6 (s.mem.read (a + 7))
      loadPending := false
      latching := none
      undef := if ctlOfBytes d4 d6 (s.mem.read (a + 7)) = blockCtl s.par ∧ joinBytes d2 d3 = udbufAddr s.par
        then s.undef else insertUndef .u22 s.undef } := by
  have hl : s.latchLost = false := by simp [State.latchLost, State.latchRead_of_reading h]
  have hread : ∀ k : Fin 7, s.latchByte k = [d0, d1, d2, d3, d4, d5, d6][k] := fun k => State.latchByte_of_read h k.isLt
  have h7 : s.latchByte 7 = s.mem.read (a + 7) := State.latchByte_of_unread h rfl (le_refl 7)
  have hdst : s.latchDst = joinBytes d2 d3 := congrArg₂ joinBytes (hread 2) (hread 3)
  have hctl : s.latchCtl = ctlOfBytes d4 d6 (s.mem.read (a + 7)) := by
    rw [← h7]
    exact congrArg₂ (ctlOfBytes · · _) (hread 4) (hread 6)
  have hsrc : joinBytes (s.latchByte 0) (s.latchByte 1) = joinBytes d0 d1 := congrArg₂ joinBytes (hread 0) (hread 1)
  have hcnt : lenOfBytes (s.latchByte 4) (s.latchByte 5) = lenOfBytes d4 d5 := congrArg₂ lenOfBytes (hread 4) (hread 5)
  simp only [State.latch, State.addUndef_latchForeign, hl, hdst, hctl, hsrc, hcnt, addUndef_false, Bool.false_eq_true,
    ↓reduceIte]

/-- The reads that are left of a LATCH, one move each: by induction on how many are left (R44). -/
theorem run_latchBytes {s : State} {ms : List Move} {n : Nat} (hp : s.loadPending = true)
    (hn : s.latchCount + n + 1 = 8) (hsc : s.script = List.replicate (n + 1) .latchByte ++ ms) :
    core.run (n + 1) s = .next (State.latch { s with script := ms }) := by
  induction n generalizing s with
  | zero =>
    have hlast := State.latchStep_of_eighth (s := { s with script := ms }) (show s.latchCount = 7 by omega)
    exact (run_one s).trans ((step_latchByte hsc hp).trans (congrArg _ hlast))
  | succ n ih =>
    have hread := State.latchStep_of_lt (s := { s with script := List.replicate (n + 1) .latchByte ++ ms })
      (show s.latchCount < 7 by omega)
    have hstep := (step_latchByte hsc hp).trans (congrArg _ hread)
    have hrest := State.latch_readDescByte (s := { s with script := ms }) (show s.latchCount < 8 by omega)
    refine (run_succ _ hstep).trans ((ih ?_ ?_ ?_).trans (congrArg _ hrest))
    · exact hp
    · rw [State.readDescByte_latchCount]
      change s.latchCount + 1 + n + 1 = 8
      omega
    · rfl

/-- Settles O31: a read move is one record update, and the reads made one at a time end as the LATCH made at once. -/
theorem latchReadsByteByByte : Obligations.LatchReadsByteByByte := by
  refine ⟨fun s ms hsc => ⟨fun hp => step_latchByte_of_not_pending hsc hp, fun hp hl ht => ?_, fun a bs hp hl hlen => ?_,
    fun a d0 d1 d2 d3 d4 d5 d6 hp hl => ?_⟩, fun s ms hp hc hsc => ?_⟩
  · have hr : State.latchRead { s with script := ms } = ⟨some s.dmaSlot, []⟩ := by
      simp [State.latchRead, hl, ht]
    rw [step_latchByte hsc hp, State.latchStep_of_place hr (by simp)]
    simp
  · have hr := State.latchRead_of_reading (s := { s with script := ms }) hl
    rw [step_latchByte hsc hp, State.latchStep_of_place hr hlen]
  · have hc : State.latchCount { s with script := ms } = 7 := by simp [State.latchCount, State.latchRead, hl]
    rw [step_latchByte hsc hp, State.latchStep_of_eighth hc, State.latch_of_seven (s := { s with script := ms }) hl]
    rfl
  · obtain ⟨n, hn⟩ : ∃ n, 8 - s.latchCount = n + 1 := ⟨7 - s.latchCount, by omega⟩
    rw [hn] at hsc ⊢
    have hlatch := step_latch (s := { s with script := .latch :: ms }) rfl hp
    exact (run_latchBytes hp (by omega) hsc).trans hlatch.symm

end Sys2Proof.Machine
end

/-! Command words and the commands they stand for, descriptor bytes and their fields, and what the two presets leave. -/

section
namespace Sys2Proof

/-! ### Concatenations -/

/-- A word is put together from two fields exactly when these are its fields. -/
theorem append_eq_iff {m n : Nat} (a : BitVec m) (b : BitVec n) {x : BitVec (m + n)} :
    a ++ b = x ↔ x.extractLsb' n m = a ∧ x.extractLsb' 0 n = b := by
  constructor
  · rintro rfl
    exact ⟨BitVec.extractLsb'_append_eq_left, BitVec.extractLsb'_append_eq_right⟩
  · rintro ⟨rfl, rfl⟩
    exact BitVec.extractLsb'_append_extractLsb'

/-- A field of a field. -/
theorem extractLsb'_extractLsb' {w : Nat} (x : BitVec w) (start len start' len' : Nat) (h : start' + len' ≤ len) :
    (x.extractLsb' start len).extractLsb' start' len' = x.extractLsb' (start + start') len' := by
  apply BitVec.eq_of_getLsbD_eq
  intro i hi
  have hlt : start' + i < len := by omega
  simp [hi, hlt, Nat.add_assoc]

/-- Two fields put together are one field exactly when they are its parts. -/
theorem append_eq_extractLsb'_iff {w m n : Nat} (a : BitVec m) (b : BitVec n) (x : BitVec w) (start : Nat) :
    a ++ b = x.extractLsb' start (m + n) ↔ x.extractLsb' (start + n) m = a ∧ x.extractLsb' start n = b := by
  rw [append_eq_iff, extractLsb'_extractLsb' _ _ _ _ _ (by omega), extractLsb'_extractLsb' _ _ _ _ _ (by omega),
    Nat.add_zero]

/-- A word is put together from three fields exactly when these are its fields. -/
theorem append_append_eq_iff {k m n : Nat} (a : BitVec k) (b : BitVec m) (c : BitVec n) {x : BitVec (k + m + n)} :
    a ++ b ++ c = x ↔ x.extractLsb' (n + m) k = a ∧ x.extractLsb' n m = b ∧ x.extractLsb' 0 n = c := by
  rw [append_eq_iff, @eq_comm _ _ (a ++ b), append_eq_extractLsb'_iff, and_assoc]

/-- Masking the operand away compares the two fields above it: the form of every row of the opcode table (R65). -/
theorem and_rowMask_eq_iff {k m n : Nat} (x : BitVec (k + m + n)) (op : BitVec k) (mid : BitVec m) :
    x &&& (BitVec.allOnes (k + m) ++ 0#n) = op ++ mid ++ 0#n
      ↔ x.extractLsb' (n + m) k = op ∧ x.extractLsb' n m = mid := by
  conv_lhs => rw [← (append_eq_iff _ _ (x := x)).2 ⟨rfl, rfl⟩]
  rw [BitVec.and_append, BitVec.and_allOnes, BitVec.and_zero, BitVec.append_left_inj, eq_comm, append_eq_extractLsb'_iff]

/-! ### The rows of the opcode table (R61 to R65) -/

theorem rowInit_matchesWord_iff (w : CmdWord) :
    rowInit.matchesWord w = true ↔ opField w = 1 ∧ w.extractLsb' 0 29 = 0 :=
  beq_iff_eq.trans (and_rowMask_eq_iff (k := 3) (m := 29) (n := 0) w 1 0)

theorem rowSetMode_matchesWord_iff (w : CmdWord) :
    rowSetMode.matchesWord w = true ↔ opField w = 2 ∧ w.extractLsb' 8 21 = 0 :=
  beq_iff_eq.trans (and_rowMask_eq_iff (k := 3) (m := 21) (n := 8) w 2 0)

/-- Every bit below `OP` is an operand bit of START_TX (R63). -/
theorem rowStartTx_matchesWord_iff (w : CmdWord) : rowStartTx.matchesWord w = true ↔ opField w = 3 := by
  refine (beq_iff_eq.trans (and_rowMask_eq_iff (k := 3) (m := 0) (n := 29) w 3 0)).trans (and_iff_left ?_)
  exact BitVec.of_length_zero

theorem rowRdReg_matchesWord_iff (w : CmdWord) :
    rowRdReg.matchesWord w = true ↔ opField w = 4 ∧ w.extractLsb' 4 25 = 0 :=
  beq_iff_eq.trans (and_rowMask_eq_iff (k := 3) (m := 25) (n := 4) w 4 0)

/-! ### The decoder by the fields of the word (R65) -/

theorem decode_init {w : CmdWord} (hop : opField w = 1) (hz : w.extractLsb' 0 29 = 0) : decode w = .ok .init := by
  simp [decode, rowInit_matchesWord_iff, hop, hz]

theorem decode_setMode {w : CmdWord} (hop : opField w = 2) (hz : w.extractLsb' 8 21 = 0) :
    decode w = .ok (.setMode (w.extractLsb' 0 8)) := by
  simp [decode, rowInit_matchesWord_iff, rowSetMode_matchesWord_iff, hop, hz]

theorem decode_startTx {w : CmdWord} (hop : opField w = 3) :
    decode w = .ok (.startTx (w.extractLsb' 0 16) (w.extractLsb' 16 13)) := by
  simp [decode, rowInit_matchesWord_iff, rowSetMode_matchesWord_iff, rowStartTx_matchesWord_iff, hop]

theorem decode_rdReg {w : CmdWord} (hop : opField w = 4) (hz : w.extractLsb' 4 25 = 0) :
    decode w = .ok (.rdReg (w.extractLsb' 0 4)) := by
  simp [decode, rowInit_matchesWord_iff, rowSetMode_matchesWord_iff, rowStartTx_matchesWord_iff, rowRdReg_matchesWord_iff,
    hop, hz]

/-- What the decoder can answer with a command: which row matched, and its operands. -/
theorem decode_ok {w : CmdWord} {i : Instr} (h : decode w = .ok i) :
    (rowInit.matchesWord w = true ∧ i = .init)
      ∨ (rowSetMode.matchesWord w = true ∧ i = .setMode (w.extractLsb' 0 8))
      ∨ (rowStartTx.matchesWord w = true ∧ i = .startTx (w.extractLsb' 0 16) (w.extractLsb' 16 13))
      ∨ (rowRdReg.matchesWord w = true ∧ i = .rdReg (w.extractLsb' 0 4)) := by
  unfold decode at h
  split at h
  · exact .inl ⟨‹_›, (Except.ok.inj h).symm⟩
  split at h
  · exact .inr (.inl ⟨‹_›, (Except.ok.inj h).symm⟩)
  split at h
  · exact .inr (.inr (.inl ⟨‹_›, (Except.ok.inj h).symm⟩))
  split at h
  · exact .inr (.inr (.inr ⟨‹_›, (Except.ok.inj h).symm⟩))
  · cases h

/-- A word is reserved exactly when it matches no row (R76). -/
theorem decode_error_iff (w : CmdWord) :
    (∃ r, decode w = .error r) ↔ ¬ rowInit.matchesWord w = true ∧ ¬ rowSetMode.matchesWord w = true
      ∧ ¬ rowStartTx.matchesWord w = true ∧ ¬ rowRdReg.matchesWord w = true := by
  unfold decode
  split
  · simp [*]
  split
  · simp [*]
  split
  · simp [*]
  split <;> simp [*]

/-! ### Decoding and encoding are inverse (R61 to R65, R80) -/

/-- Settles O1: the encoding has the command's `OP` field, zero or the length below it, and the low operand. -/
theorem decodeOfEncode : Obligations.DecodeOfEncode := by
  intro i
  cases i with
  | init => rfl
  | setMode cfg =>
    obtain ⟨hop, hz, hcfg⟩ := (append_append_eq_iff 2#3 0#21 cfg).1 rfl
    exact (decode_setMode hop hz).trans (congrArg (Except.ok ∘ Instr.setMode) hcfg)
  | startTx buf len =>
    obtain ⟨hop, hlen, hbuf⟩ := (append_append_eq_iff 3#3 len buf).1 rfl
    exact (decode_startTx hop).trans (congrArg Except.ok (congrArg₂ Instr.startTx hbuf hlen))
  | rdReg reg =>
    obtain ⟨hop, hz, hreg⟩ := (append_append_eq_iff 4#3 0#25 reg).1 rfl
    exact (decode_rdReg hop hz).trans (congrArg (Except.ok ∘ Instr.rdReg) hreg)

/-- Settles O2: a word that matches a row has the fields the encoding puts together. -/
theorem encodeOfDecode : Obligations.EncodeOfDecode := by
  intro w i h
  rcases decode_ok h with ⟨hm, rfl⟩ | ⟨hm, rfl⟩ | ⟨hm, rfl⟩ | ⟨hm, rfl⟩
  · obtain ⟨hop, hz⟩ := (rowInit_matchesWord_iff w).1 hm
    exact (append_append_eq_iff 1#3 0#29 0#0).2 ⟨hop, hz, BitVec.of_length_zero⟩
  · obtain ⟨hop, hz⟩ := (rowSetMode_matchesWord_iff w).1 hm
    exact (append_append_eq_iff 2#3 0#21 _).2 ⟨hop, hz, rfl⟩
  · have hop := (rowStartTx_matchesWord_iff w).1 hm
    exact (append_append_eq_iff 3#3 _ _).2 ⟨hop, rfl, rfl⟩
  · obtain ⟨hop, hz⟩ := (rowRdReg_matchesWord_iff w).1 hm
    exact (append_append_eq_iff 4#3 0#25 _).2 ⟨hop, hz, rfl⟩

end Sys2Proof

namespace Sys2Proof.Machine

/-- A command word on a free port is run (R65). -/
theorem step_of_command {s : State} {w : CmdWord} {ms : List Move} {i : Instr} (hi : s.seq = .idle)
    (hsc : s.script = .command w :: ms) (hw : decode w = .ok i) : step s = exec i { s with script := ms } := by
  simp [step, hsc, hi, onCommand, hw]

/-- A reserved word on a free port is refused, run whole or accepted only (R76, U14). -/
theorem step_of_reserved {s : State} {w : CmdWord} {ms : List Move} {r : Reserved} (hi : s.seq = .idle)
    (hsc : s.script = .command w :: ms ∨ s.script = .present w :: ms) (hw : decode w = .error r) :
    step s = .refused .reservedCommandWord := by
  rcases hsc with hsc | hsc <;> simp [step, hsc, hi, onCommand, hw]

/-- Settles O3: the words that match no row are those whose `OP` has no row or whose fixed bits are not zero. -/
theorem reservedWordsAreRefused : Obligations.ReservedWordsAreRefused := by
  refine fun w => ⟨?_, fun s ms hi ⟨r, hr⟩ =>
    ⟨fun hsc => step_of_reserved hi (.inl hsc) hr, fun hsc => step_of_reserved hi (.inr hsc) hr⟩⟩
  have hops : ∀ op : BitVec 3, op = 0 ∨ op = 1 ∨ op = 2 ∨ op = 3 ∨ op = 4 ∨ op = 5 ∨ op = 6 ∨ op = 7 := by decide
  rw [decode_error_iff, rowInit_matchesWord_iff, rowSetMode_matchesWord_iff, rowStartTx_matchesWord_iff,
    rowRdReg_matchesWord_iff, opField]
  rcases hops (w.extractLsb' 29 3) with h | h | h | h | h | h | h | h <;> simp [h]

/-- Settles O6: it is the rule of a command word on a free port. -/
theorem stepRunsDecodedCommand : Obligations.StepRunsDecodedCommand := fun _ _ _ _ => step_of_command

/-- Settles O4, by evaluating the decoder on the five words. -/
theorem sampleWordsDecode : Obligations.SampleWordsDecode := by
  unfold Obligations.SampleWordsDecode
  decide

/-! ### Descriptor bytes (R72, R73) -/

theorem descByte4_eq_iff (vlen : BitVec 3) (n : Count) (d : Byte) :
    descByte4 vlen n = d ↔ d.extractLsb' 5 3 = vlen ∧ d.extractLsb' 0 5 = n.extractLsb' 8 5 :=
  append_eq_iff vlen (n.extractLsb' 8 5)

theorem lenOfBytes_eq_iff (d4 d5 : Byte) (n : Count) :
    lenOfBytes d4 d5 = n ↔ n.extractLsb' 8 5 = d4.extractLsb' 0 5 ∧ descByte5 n = d5 :=
  append_eq_iff (d4.extractLsb' 0 5) d5

theorem descByte6_eq_iff (c : DescCtl) (d : Byte) :
    descByte6 c = d ↔ d.extractLsb' 7 1 = c.wordsize ∧ d.extractLsb' 5 2 = c.tmode ∧ d.extractLsb' 0 5 = c.trig :=
  append_append_eq_iff c.wordsize c.tmode c.trig

theorem descByte7_eq_iff (c : DescCtl) (d : Byte) :
    descByte7 c = d ↔ d.extractLsb' 6 2 = c.srcinc ∧ d.extractLsb' 4 2 = c.dstinc ∧ d.extractLsb' 3 1 = c.irqmask
      ∧ d.extractLsb' 2 1 = c.m8 ∧ d.extractLsb' 0 2 = c.priority := by
  refine (append_append_eq_iff (c.srcinc ++ c.dstinc ++ c.irqmask) c.m8 c.priority).trans ?_
  rw [@eq_comm _ _ (c.srcinc ++ c.dstinc ++ c.irqmask), append_eq_extractLsb'_iff, @eq_comm _ _ (c.srcinc ++ c.dstinc),
    append_eq_extractLsb'_iff, and_assoc, and_assoc]

/-- Fields and length are those of the four bytes exactly when the bytes are those of the fields and length. -/
theorem ofBytes_eq_iff (c : DescCtl) (n : Count) (d4 d5 d6 d7 : Byte) :
    (ctlOfBytes d4 d6 d7 = c ∧ lenOfBytes d4 d5 = n)
      ↔ descByte4 c.vlen n = d4 ∧ descByte5 n = d5 ∧ descByte6 c = d6 ∧ descByte7 c = d7 := by
  rw [descByte4_eq_iff, lenOfBytes_eq_iff, descByte6_eq_iff, descByte7_eq_iff, @eq_comm _ (n.extractLsb' 8 5)]
  cases c
  simp only [ctlOfBytes, DescCtl.mk.injEq]
  tauto

/-- Settles O5: the two directions of one equivalence. -/
theorem descriptorFieldsRoundTrip : Obligations.DescriptorFieldsRoundTrip :=
  ⟨fun c n => (ofBytes_eq_iff c n _ _ _ _).2 ⟨rfl, rfl, rfl, rfl⟩,
    fun d4 d5 d6 d7 => (ofBytes_eq_iff _ _ d4 d5 d6 d7).1 ⟨rfl, rfl⟩⟩

/-! ### The format a mode leaves (R24, R120) -/

theorem getLsbD_orderValue (cfg : Byte) : (orderValue cfg).getLsbD 5 = cfg.getLsbD 7 := by
  revert cfg
  decide

theorem bit_append_rest (f : Byte) : bit (f.getLsbD 7) ++ f.extractLsb' 0 7 = f := by
  revert f
  decide

/-- The mode-application routine puts its configuration in force, whatever the format was (R116, R117). -/
theorem applyMode_format (cfg : Byte) (s : State) : (applyMode cfg s).format = cfg := by
  have horder : (applyMode cfg s).orderBit = cfg.getLsbD 7 := by
    show (maskedWrite s.ugcr 0x20 (orderValue cfg)).getLsbD 5 = _
    rw [getLsbD_maskedWrite, if_pos (by decide), getLsbD_orderValue]
  have hrest : (applyMode cfg s).ufmt.extractLsb' 0 7 = cfg.extractLsb' 0 7 := by
    apply BitVec.eq_of_getLsbD_eq
    intro i hi
    have hmask : ∀ k : Fin 7, (0x7F : Byte).getLsbD k = true := by decide
    show ((maskedWrite s.ufmt 0x7F cfg).extractLsb' 0 7).getLsbD i = _
    rw [BitVec.getLsbD_extractLsb', BitVec.getLsbD_extractLsb', getLsbD_maskedWrite, Nat.zero_add, if_pos (hmask ⟨i, hi⟩)]
  rw [State.format, horder, hrest, bit_append_rest]

/-- SET_MODE leaves its operand as the format in force. -/
theorem exec_setMode_format {s : State} (hi : s.seq = .idle) (cfg : Byte) :
    ∃ t, exec (.setMode cfg) s = .next t ∧ t.format = cfg :=
  ⟨_, exec_setMode cfg hi, applyMode_format cfg (s.acceptSetMode cfg)⟩

/-- Settles O15: the formats left are the presets themselves, and of those each field is fixed. -/
theorem presetsDifferInThreeFields : Obligations.PresetsDifferInThreeFields := by
  intro s hi
  obtain ⟨a, ha, hfa⟩ := exec_setMode_format hi presetStandard
  obtain ⟨b, hb, hfb⟩ := exec_setMode_format hi presetInverted
  refine ⟨a, b, ha, hb, ?_⟩
  rw [hfa, hfb]
  decide

end Sys2Proof.Machine
end

/-! SET_MODE and INIT: their next states, what they write and what they leave. -/

section
namespace Sys2Proof.Machine

/-! ### Register fields under a masked write (R8) -/

/-- A field that lies wholly under the mask is the value's, one that lies wholly outside it is as it was. -/
theorem extractLsb'_maskedWrite (old mask v : Byte) (start len : Nat) (b : Bool)
    (h : ∀ i < len, mask.getLsbD (start + i) = b) :
    (maskedWrite old mask v).extractLsb' start len = (if b then v else old).extractLsb' start len := by
  apply BitVec.eq_of_getLsbD_eq
  intro i hi
  rw [BitVec.getLsbD_extractLsb', BitVec.getLsbD_extractLsb', getLsbD_maskedWrite, h i hi]
  cases b <;> rfl

/-- UFMT_WR field by field: `MODE_EN` as it was, the rest the configuration's (R116). -/
theorem maskedWrite_ufmt (u cfg : Byte) :
    maskedWrite u 0x7F cfg = (u.extractLsb' 7 1 ++ cfg.extractLsb' 0 7 : BitVec 8) :=
  ((append_eq_iff _ _).2 ⟨extractLsb'_maskedWrite u 0x7F cfg 7 1 false (by decide),
    extractLsb'_maskedWrite u 0x7F cfg 0 7 true (by decide)⟩).symm

theorem extractLsb'_orderValue (cfg : Byte) : (orderValue cfg).extractLsb' 5 1 = cfg.extractLsb' 7 1 := by
  revert cfg
  decide

theorem orderValue_eq_shift (cfg : Byte) : orderValue cfg = (cfg >>> 7) <<< 5 := by
  revert cfg
  decide

/-- ORDER_WR field by field: `ORDER` the configuration's bit 7, the reserved bits and `BAUD_E` as they were (R117). -/
theorem maskedWrite_order (g cfg : Byte) :
    maskedWrite g 0x20 (orderValue cfg)
      = (g.extractLsb' 6 2 ++ cfg.extractLsb' 7 1 ++ g.extractLsb' 0 5 : BitVec 8) :=
  ((append_append_eq_iff _ _ _).2 ⟨extractLsb'_maskedWrite g 0x20 _ 6 2 false (by decide),
    (extractLsb'_maskedWrite g 0x20 _ 5 1 true (by decide)).trans (extractLsb'_orderValue cfg),
    extractLsb'_maskedWrite g 0x20 _ 0 5 false (by decide)⟩).symm

/-! ### SET_MODE (R115 to R118) -/

/-- Settles O12: the two masked writes field by field. -/
theorem modeUopsWriteNamedBits : Obligations.ModeUopsWriteNamedBits := by
  intro s cfg
  rw [← maskedWrite_ufmt, ← maskedWrite_order, ← orderValue_eq_shift]
  exact ⟨rfl, rfl, rfl⟩

/-- SET_MODE's next state, the registers as masked writes. -/
theorem exec_setMode_eq {s : State} (cfg : Byte) (hi : s.seq = .idle) :
    exec (.setMode cfg) s = .next { s with
      opCfg := cfg
      stored := 0
      ufmt := maskedWrite s.ufmt 0x7F cfg
      ugcr := maskedWrite s.ugcr 0x20 (orderValue cfg)
      prio := s.par.uartIrqPrio
      effects := s.effects ++ [.reg .ufmt 0x7F (cfg &&& 0x7F), .reg .ugcr 0x20 (orderValue cfg),
        .irq .prio s.par.uartIrqPrio]
      undef := addUndef (!s.powered) .u11 s.undef } := by
  have hinit : (s.initDone || decide (Cmd.setMode = .init)) = s.initDone := Bool.or_false _
  rw [exec_setMode cfg hi, State.perform_setMode]
  simp only [State.acceptSetMode, State.accept, State.recordIf, applyMode, uopUfmtWr, uopOrderWr, uopPrioWr, State.finish,
    List.append_assoc, List.cons_append, List.nil_append, hinit, hi]

theorem addUndef_unpowered (s : State) :
    addUndef (!s.powered) .u11 s.undef = if s.powered then s.undef else insertUndef .u11 s.undef := by
  cases s.powered <;> rfl

/-- Settles O13: the next state with the masked writes field by field. -/
theorem setModeCompletes : Obligations.SetModeCompletes := by
  intro s cfg hi
  rw [exec_setMode_eq cfg hi, maskedWrite_ufmt, maskedWrite_order, orderValue_eq_shift, addUndef_unpowered]


/-! ### INIT in three parts (R100) -/

/-- The pin uops of INIT step 1; the receive pin only with telemetry (R100 to R103). -/
def initPins (s : State) : State :=
  uopPmDir (if s.par.pTelemetryRx then uopPmFunc (rxPin s.par) (uopPmFunc (txPin s.par) (uopPmLoc s))
    else uopPmFunc (txPin s.par) (uopPmLoc s))

/-- Steps 1 to 3 of INIT: pins, mode, baud rate and the preset's format. -/
def configure (s : State) : State := applyMode (preset s.par) (uopBaudE (uopBaudM (uopModeEn (initPins s))))

/-- Step 6 of INIT, only with telemetry (R111 to R114). -/
def enableRx (s : State) : State :=
  if s.par.pTelemetryRx then uopGieSet (uopRxIeSet (uopReSet (uopRxIfClr s))) else s

/-- The events of steps 1 to 3. -/
def configureEffects (p : Params) : List Effect :=
  [.pmLoc (selInst p) (selLoc p), .pmFunc (txPin p) true]
    ++ (if p.pTelemetryRx then [.pmFunc (rxPin p) true] else [])
    ++ [.pmDir (txPin p) true, .reg .ufmt 0x80 0x80, .reg .ubaud 0xFF p.baudM, .reg .ugcr 0x1F (p.baudE.zeroExtend 8),
      .reg .ufmt 0x7F (preset p &&& 0x7F), .reg .ugcr 0x20 (orderValue (preset p)), .irq .prio p.uartIrqPrio]

/-- The `E_MEM` events of DESC_INIT (R107). -/
def descInitEffects (p : Params) : List Effect :=
  (List.range (descInitBytes p).length).zipWith (fun k b => .mem (p.descAddr + BitVec.ofNat 16 k) b) (descInitBytes p)

/-- The events of step 6 (R111 to R114). -/
def enableRxEffects (p : Params) : List Effect :=
  if p.pTelemetryRx then [.irq .rxIf 0, .reg .ucsr 0x40 0x40, .irq .rxIe 1, .irq .gie 1] else []

/-- `PM_FUNC` after step 1: the receive pin is selected only with telemetry (R100, R102). -/
def initPmFunc (p : Params) (v : BitVec 8) : BitVec 8 :=
  if p.pTelemetryRx then putBit (putBit v (txPin p).val true) (rxPin p).val true else putBit v (txPin p).val true

theorem configure_eq (s : State) :
    configure s = { s with
      ufmt := maskedWrite (maskedWrite s.ufmt 0x80 0x80) 0x7F (preset s.par)
      ugcr := maskedWrite (maskedWrite s.ugcr 0x1F (s.par.baudE.zeroExtend 8)) 0x20 (orderValue (preset s.par))
      ubaud := s.par.baudM
      prio := s.par.uartIrqPrio
      pmLoc := putBit s.pmLoc (selInst s.par).val (selLoc s.par)
      pmFunc := initPmFunc s.par s.pmFunc
      pmDir := putBit s.pmDir (txPin s.par).val true
      effects := s.effects ++ configureEffects s.par } := by
  cases ht : s.par.pTelemetryRx <;>
    simp [configure, initPins, configureEffects, initPmFunc, ht, applyMode, uopUfmtWr, uopOrderWr, uopPrioWr, uopBaudE,
      uopBaudM, uopModeEn, uopPmDir, uopPmFunc, uopPmLoc]

@[simp] theorem configure_par (s : State) : (configure s).par = s.par := by rw [configure_eq]
@[simp] theorem configure_stored (s : State) : (configure s).stored = s.stored := by rw [configure_eq]
@[simp] theorem configure_dmaTableValid (s : State) : (configure s).dmaTableValid = s.dmaTableValid := by
  rw [configure_eq]
@[simp] theorem configure_undef (s : State) : (configure s).undef = s.undef := by rw [configure_eq]
@[simp] theorem configure_free (s : State) : (configure s).free = s.free := by rw [configure_eq]

theorem enableRx_eq (s : State) :
    enableRx s = { s with
      ucsr := if s.par.pTelemetryRx then maskedWrite s.ucsr 0x40 0x40 else s.ucsr
      rxIf := !s.par.pTelemetryRx && s.rxIf
      rxIe := s.par.pTelemetryRx || s.rxIe
      gie := s.par.pTelemetryRx || s.gie
      effects := s.effects ++ enableRxEffects s.par } := by
  cases ht : s.par.pTelemetryRx <;>
    simp [enableRx, enableRxEffects, ht, uopGieSet, uopRxIeSet, uopReSet, uopRxIfClr]

/-- No uop of steps 4 and 5, and no LATCH, writes the parameters. -/
theorem installChannel_par (s : State) : (installChannel s).par = s.par := rfl

/-- INIT is its three parts, the second the same with telemetry and without (R100). -/
theorem State.perform_init (s : State) :
    s.perform .init = (enableRx (installChannel (configure s))).finish .init := by
  have hp : (installChannel (configure s)).par = s.par := by rw [installChannel_par, configure_par]
  cases ht : s.par.pTelemetryRx
  case false =>
    rw [State.perform_init_off ht, enableRx, hp, ht, configure, initPins, ht]
    rfl
  case true =>
    rw [State.perform_init_on ht, enableRx, hp, ht, configure, initPins, ht]
    rfl

/-- What the LATCH of step 5 finds: the descriptor and the slot as INIT wrote them, the channel armed (R107 to R109). -/
theorem armChannel_of_start {s : State} (h : s.stored = 0) :
    (uopSlot (uopDescInit s)).armChannel = { s with
      mem := Memory.writeList s.mem s.par.descAddr (descInitBytes s.par)
      dmaSlot := s.par.descAddr
      arm := true
      loadPending := true
      latching := none
      effects := s.effects ++ descInitEffects s.par ++ [.slot s.par.descAddr] ++ [.arm] } := by
  have hd : uopDescInit s = _ := State.storeBytes_of_start h _ _
  have hs : (uopDescInit s).stored = 0 := rfl
  rw [uopSlot_of_start hs, hd]
  rfl

/-- Steps 4 and 5 of INIT with nothing of them done: the working registers, `UNDEF` and the free values are as LATCH
leaves them (R107 to R110, R150). -/
theorem installChannel_eq {s : State} (h : s.stored = 0) :
    installChannel s = { s with
      mem := Memory.writeList s.mem s.par.descAddr (descInitBytes s.par)
      dmaSlot := s.par.descAddr
      arm := true
      loadPending := false
      latching := none
      wSrc := (installChannel s).wSrc
      wDst := (installChannel s).wDst
      wCnt := (installChannel s).wCnt
      wCtl := (installChannel s).wCtl
      undef := (installChannel s).undef
      free := (installChannel s).free
      effects := s.effects ++ descInitEffects s.par ++ [.slot s.par.descAddr] ++ [.arm]
        ++ [.settle s.par.settleCycles] } := by
  rw [installChannel, armChannel_of_start h]
  rfl

/-- The state in which INIT has installed its channel (steps 1 to 5). -/
def State.initChannel (s : State) : State := installChannel (configure s.acceptInit)

/-- INIT's next state: the working registers, `UNDEF` and the free values are as the LATCH of step 5 leaves them, and each
other element holds what the uops wrote to it. -/
theorem exec_init_eq {s : State} (hi : s.seq = .idle) :
    exec .init s = .next { s with
      stored := 0
      ufmt := maskedWrite (maskedWrite s.ufmt 0x80 0x80) 0x7F (preset s.par)
      ugcr := maskedWrite (maskedWrite s.ugcr 0x1F (s.par.baudE.zeroExtend 8)) 0x20 (orderValue (preset s.par))
      ubaud := s.par.baudM
      ucsr := if s.par.pTelemetryRx then maskedWrite s.ucsr 0x40 0x40 else s.ucsr
      rxIf := !s.par.pTelemetryRx && s.rxIf
      rxIe := s.par.pTelemetryRx || s.rxIe
      gie := s.par.pTelemetryRx || s.gie
      prio := s.par.uartIrqPrio
      pmLoc := putBit s.pmLoc (selInst s.par).val (selLoc s.par)
      pmFunc := initPmFunc s.par s.pmFunc
      pmDir := putBit s.pmDir (txPin s.par).val true
      dmaSlot := s.par.descAddr
      arm := true
      loadPending := false
      latching := none
      wSrc := s.initChannel.wSrc
      wDst := s.initChannel.wDst
      wCnt := s.initChannel.wCnt
      wCtl := s.initChannel.wCtl
      mem := Memory.writeList s.mem s.par.descAddr (descInitBytes s.par)
      initDone := true
      effects := s.effects ++ configureEffects s.par ++ descInitEffects s.par
        ++ [.slot s.par.descAddr, .arm, .settle s.par.settleCycles] ++ enableRxEffects s.par
      undef := s.initChannel.undef
      free := s.initChannel.free } := by
  obtain ⟨c, hc⟩ : ∃ c, s.initChannel = c := ⟨_, rfl⟩
  have heq := installChannel_eq (s := configure s.acceptInit) (configure_stored _)
  rw [exec_init hi, State.perform_init, enableRx_eq]
  rw [← State.initChannel, hc] at heq ⊢
  obtain ⟨us, ha, -⟩ := s.acceptInit_eq
  rw [heq, configure_eq, ha]
  simp only [State.finish, List.append_assoc, List.cons_append, List.nil_append, decide_true, Bool.or_true, hi]

/-! ### The registers after INIT (R101 to R106, R116 to R119) -/

theorem preset_eq (p : Params) : preset p = if p.pInverted then 0x3D else 0x1E := rfl

/-- Both presets send the least significant bit first (R68). -/
theorem orderValue_preset (p : Params) : orderValue (preset p) = 0x00 := by
  rw [preset_eq]
  cases p.pInverted <;> rfl

theorem preset_and_rest (p : Params) : preset p &&& 0x7F = preset p := by
  rw [preset_eq]
  cases p.pInverted <;> rfl

/-- `UFMT` after MODE_EN and UFMT_WR of a preset, whatever it was (R104, R116, R119). -/
theorem maskedWrite_modeEn_preset (u : Byte) (p : Params) :
    maskedWrite (maskedWrite u 0x80 0x80) 0x7F (preset p) = 0x80 ||| preset p := by
  rw [preset_eq]
  cases p.pInverted <;> revert u <;> decide

/-- BAUD_E and an ORDER_WR of 0 leave the reserved bits alone (R14, R106, R117). -/
theorem maskedWrite_baudE_order (g : Byte) (e : BitVec 5) :
    maskedWrite (maskedWrite g 0x1F (e.zeroExtend 8)) 0x20 0x00 = (g.extractLsb' 6 2 ++ 0#1 ++ e : BitVec 8) := by
  have he : (e.zeroExtend 8).extractLsb' 0 5 = e := by
    revert e
    decide
  refine ((append_append_eq_iff (g.extractLsb' 6 2) 0#1 e).2 ⟨?_, ?_, ?_⟩).symm
  · exact (extractLsb'_maskedWrite _ 0x20 _ 6 2 false (by decide)).trans
      (extractLsb'_maskedWrite g 0x1F _ 6 2 false (by decide))
  · exact (extractLsb'_maskedWrite _ 0x20 0x00 5 1 true (by decide)).trans (by simp)
  · exact ((extractLsb'_maskedWrite _ 0x20 _ 0 5 false (by decide)).trans
      (extractLsb'_maskedWrite g 0x1F _ 0 5 true (by decide))).trans he

/-- RE_SET sets bit 6 (R112). -/
theorem maskedWrite_reSet (v : Byte) : maskedWrite v 0x40 0x40 = v ||| 0x40 := by
  revert v
  decide

/-- RE_SET leaves every other bit of `UCSR` as it was (R8, R112). -/
theorem maskedWrite_reSet_rest (v : Byte) : maskedWrite v 0x40 0x40 &&& 0xBF = v &&& 0xBF := by
  revert v
  decide

/-- Setting one bit, bit by bit. -/
theorem getLsbD_putBit_true {n : Nat} (v : BitVec n) (i j : Fin n) :
    (putBit v i.val true).getLsbD j = (decide (j = i) || v.getLsbD j) := by
  rw [getLsbD_putBit_fin]
  by_cases h : j = i <;> simp [h]

/-- The pins INIT selects as UART pins, one by one (R102). -/
theorem getLsbD_initPmFunc (par : Params) (v : BitVec 8) (p : Fin 8) :
    (initPmFunc par v).getLsbD p
      = (decide (p = txPin par) || (decide (p = rxPin par) && par.pTelemetryRx) || v.getLsbD p) := by
  cases ht : par.pTelemetryRx <;>
    simp only [initPmFunc, ht, Bool.false_eq_true, ↓reduceIte, getLsbD_putBit_true, Bool.and_false, Bool.or_false,
      Bool.and_true, Bool.or_left_comm, Bool.or_assoc]

/-- Settles O16: each register of INIT's next state. -/
theorem initCompletes : Obligations.InitCompletes := by
  intro s hi
  refine ⟨_, exec_init_eq hi, hi, rfl, maskedWrite_modeEn_preset s.ufmt s.par, ?_, rfl, rfl,
    getLsbD_putBit_fin s.pmLoc (selInst s.par) (selLoc s.par), getLsbD_initPmFunc s.par s.pmFunc,
    getLsbD_putBit_true s.pmDir (txPin s.par), rfl, rfl, rfl⟩
  simp only [orderValue_preset, maskedWrite_baudE_order]

/-! ### The descriptor INIT writes (R107, R74) -/

/-- The bytes of the block's descriptor as literals, but for the data register's address and the trigger code (R74). -/
theorem descInitBytes_eq (p : Params) :
    descInitBytes p = [0, 0, (udbufAddr p).extractLsb' 8 8, (udbufAddr p).extractLsb' 0 8, 0, 0,
      (trigUtx p).zeroExtend 8, 0x40] := by
  have h6 : ∀ trig : BitVec 5, (0#1 ++ 0#2 ++ trig : BitVec 8) = trig.zeroExtend 8 := by decide
  have h4 : descByte4 0 0 = 0 := by decide
  have h5 : descByte5 0 = 0 := by decide
  have h7 : (1#2 ++ 0#2 ++ 0#1 ++ 0#1 ++ 0#2 : BitVec 8) = 0x40 := by decide
  simp only [descInitBytes, blockCtl, descByte6, descByte7, h4, h5]
  rw [← h6, ← h7]
  rfl

/-- Each descriptor byte after INIT's stores. -/
theorem read_descInit (m : Memory) (p : Params) (k : Fin 8) :
    some ((m.writeList p.descAddr (descInitBytes p)).read (p.descAddr + BitVec.ofNat 16 k))
      = (descInitBytes p)[k.val]? := by
  have hk : k.val < (descInitBytes p).length := k.isLt
  rw [Memory.read_writeList_at m p.descAddr (descInitBytes p) (by simp [descInitBytes]) hk, List.getElem?_eq_getElem hk]

/-- Settles O18: INIT's stores are the eight bytes at `DESC_ADDR`. -/
theorem initWritesDescriptorOnly : Obligations.InitWritesDescriptorOnly := by
  intro s hi
  have hread := read_descInit s.mem s.par
  have h0 := hread 0
  simp only [Fin.val_zero, BitVec.add_zero] at h0
  rw [descInitBytes_eq] at hread
  refine ⟨_, exec_init_eq hi, Option.some.inj h0, ?_⟩
  rw [descInitBytes_eq]
  exact ⟨Option.some.inj (hread 1), Option.some.inj (hread 2), Option.some.inj (hread 3), Option.some.inj (hread 4),
    Option.some.inj (hread 5), Option.some.inj (hread 6), Option.some.inj (hread 7),
    fun a ha => Memory.read_writeList_other _ _ _ fun k hk => ha ⟨k, hk⟩⟩

/-! ### What INIT's LATCH loads (R110, R150) -/

/-- With the table installed a fresh LATCH at the block's descriptor loads it, and nothing is recorded or drawn (R150). -/
theorem State.latch_of_block {s : State} (hl : s.latching = none) (ht : s.dmaTableValid = true)
    (hb : ∀ k : Fin 8, some (s.mem.read (s.dmaSlot + BitVec.ofNat 16 k)) = (descInitBytes s.par)[k.val]?) :
    s.latch = { s with
      wSrc := 0
      wDst := udbufAddr s.par
      wCnt := 0
      wCtl := blockCtl s.par
      loadPending := false } := by
  have hbyte : ∀ k : Fin 8, some (s.latchByte k) = (descInitBytes s.par)[k.val]? := fun k => by
    rw [State.latchByte_of_fresh hl ht, hb]
  obtain ⟨(hctl : s.latchCtl = blockCtl s.par), (hcnt : lenOfBytes (s.latchByte 4) (s.latchByte 5) = 0)⟩ :=
    (ofBytes_eq_iff (blockCtl s.par) 0 _ _ _ _).2
      ⟨(Option.some.inj (hbyte 4)).symm, (Option.some.inj (hbyte 5)).symm, (Option.some.inj (hbyte 6)).symm,
        (Option.some.inj (hbyte 7)).symm⟩
  have hdst : s.latchDst = udbufAddr s.par :=
    (congrArg₂ joinBytes (Option.some.inj (hbyte 2)) (Option.some.inj (hbyte 3))).trans (joinBytes_hiByte_loByte _)
  have hsrc : joinBytes (s.latchByte 0) (s.latchByte 1) = 0 :=
    congrArg₂ joinBytes (Option.some.inj (hbyte 0)) (Option.some.inj (hbyte 1))
  have hlost : s.latchLost = false := by rw [State.latchLost_of_fresh hl, ht]; rfl
  simp only [State.latch, State.addUndef_latchForeign, hctl, hdst, hsrc, hcnt, hlost, hl, and_self, addUndef_false,
    Bool.false_eq_true, ↓reduceIte]

/-- With the table installed the channel ends with the block's descriptor, whatever it held (R110, R150). -/
theorem installChannel_of_table {s : State} (h : s.stored = 0) (ht : s.dmaTableValid = true) :
    (installChannel s).wSrc = 0 ∧ (installChannel s).wCnt = 0 ∧ (installChannel s).wDst = udbufAddr s.par
      ∧ (installChannel s).wCtl = blockCtl s.par ∧ (installChannel s).free = s.free
      ∧ (installChannel s).undef = s.undef := by
  have ha := armChannel_of_start h
  have hl := State.latch_of_block (s := (uopSlot (uopDescInit s)).armChannel) rfl ht
    (by rw [ha]; exact read_descInit s.mem s.par)
  rw [installChannel, hl, ha]
  exact ⟨rfl, rfl, rfl, rfl, rfl, rfl⟩

/-- Which reasons acceptance of INIT records (R65, R100). -/
theorem State.acceptInit_undef (s : State) :
    s.acceptInit.undef
      = addUndef (!s.powered) .u11 (addUndef (!s.dmaTableValid) .u9 (addUndef s.initDone .u5 s.undef)) := rfl

/-- Settles O17: INIT's LATCH finds the block's descriptor. -/
theorem initLatchesItsDescriptor : Obligations.InitLatchesItsDescriptor := by
  intro s hi ht
  obtain ⟨hsrc, hcnt, hdst, hctl, hfree, hundef⟩ :=
    installChannel_of_table (s := configure s.acceptInit) (configure_stored _) ((configure_dmaTableValid _).trans ht)
  rw [configure_par] at hdst hctl
  rw [configure_free] at hfree
  refine ⟨_, exec_init_eq hi, hsrc, hcnt, hdst, hctl, rfl, hfree, fun hd hp => hundef.trans ?_⟩
  simp [State.acceptInit_undef, hd, hp, ht]

/-- Settles O19: the receive elements of INIT's next state, and its last four events. -/
theorem initTelemetry : Obligations.InitTelemetry := by
  intro s hi
  refine ⟨_, exec_init_eq hi, fun ht => ?_, fun ht => ?_⟩ <;> simp only [ht, enableRxEffects]
  · exact ⟨rfl, rfl, rfl, rfl⟩
  · exact ⟨maskedWrite_reSet _, rfl, rfl, rfl, _, rfl⟩

theorem descInitEffects_eq (p : Params) :
    descInitEffects p = [.mem p.descAddr 0, .mem (p.descAddr + 1) 0,
      .mem (p.descAddr + 2) ((udbufAddr p).extractLsb' 8 8), .mem (p.descAddr + 3) ((udbufAddr p).extractLsb' 0 8),
      .mem (p.descAddr + 4) 0, .mem (p.descAddr + 5) 0, .mem (p.descAddr + 6) ((trigUtx p).zeroExtend 8),
      .mem (p.descAddr + 7) 0x40] := by
  rw [descInitEffects, descInitBytes_eq]
  simp [List.range, List.range.loop]

/-- Settles O20: the events of INIT's three parts. -/
theorem initEffects : Obligations.InitEffects := by
  intro s hi
  refine ⟨_, exec_init_eq hi, ?_⟩
  simp only [configureEffects, enableRxEffects, descInitEffects_eq, preset_and_rest, orderValue_preset,
    List.append_assoc, List.cons_append, List.nil_append]
  rfl

/-- Settles O21: the elements no part of INIT writes. -/
theorem initFrame : Obligations.InitFrame := by
  intro s hi
  refine ⟨_, exec_init_eq hi, rfl, rfl, rfl, rfl, rfl, rfl, rfl, rfl, rfl, rfl, rfl, rfl, rfl, rfl, rfl, rfl, rfl, ?_,
    undef_kept.exec hi (exec_init_eq hi)⟩
  cases ht : s.par.pTelemetryRx
  · rfl
  · exact maskedWrite_reSet_rest s.ucsr

end Sys2Proof.Machine
end

/-! The read-back of a mode, SETTLE and ARM, and what a broken precondition records. -/

section
namespace Sys2Proof.Machine

/-! ### Read-back of a mode (R120, R180) -/

/-- RD_REG of an index the map has returns the register, and records no power as U11 (R180, R215). -/
theorem exec_rdReg_of_regval {s : State} {r : BitVec 4} {v : Byte} (hi : s.seq = .idle) (hv : s.regval r = some v) :
    ∃ t, exec (.rdReg r) s = .next t ∧ t.rdata = v ∧ t.undef = addUndef (!s.powered) .u11 s.undef := by
  refine ⟨_, exec_rdReg r hi (by rw [hv]; rfl), ?_, rfl⟩
  show (s.regval r).getD s.rdata = v
  rw [hv]
  rfl

/-- A second SET_MODE of the same byte writes what stands there already (R120 (a)). -/
theorem exec_setMode_twice {s t : State} {cfg : Byte} (hi : s.seq = .idle) (ht : exec (.setMode cfg) s = .next t) :
    exec (.setMode cfg) t = .next { t with
      effects := t.effects ++ [.reg .ufmt 0x7F (cfg &&& 0x7F), .reg .ugcr 0x20 (orderValue cfg),
        .irq .prio s.par.uartIrqPrio] } := by
  rw [exec_setMode_eq cfg hi] at ht
  have hseq : t.seq = .idle := by cases ht; exact hi
  rw [exec_setMode_eq cfg hseq]
  cases ht
  simp only [maskedWrite_maskedWrite, addUndef_addUndef]

/-- What RD_REG shows of `UGCR` after INIT is `BAUD_E` (R76, R181). -/
theorem ugcr_view (r : BitVec 2) (e : BitVec 5) : (r ++ 0#1 ++ e : BitVec 8) &&& 0x3F = e.zeroExtend 8 := by
  revert r e
  decide

/-- Settles O14: the second writes are those of the first, and INIT's registers are read back. -/
theorem setModeIsIdempotent : Obligations.SetModeIsIdempotent := by
  refine ⟨fun s cfg hi => ?_, fun s hi => ?_⟩
  · obtain ⟨t, ht, hformat⟩ := exec_setMode_format hi cfg
    exact ⟨t, ht, hformat, orderValue_eq_shift cfg ▸ exec_setMode_twice hi ht⟩
  · obtain ⟨t, ht, hseq, -, hufmt, hugcr, -⟩ := initCompletes s hi
    obtain ⟨a, ha, hra, -⟩ := exec_rdReg_of_regval (r := 0) hseq rfl
    obtain ⟨b, hb, hrb, -⟩ := exec_rdReg_of_regval (r := 1) hseq rfl
    refine ⟨t, a, b, ht, ha, hb, ?_, ?_⟩
    · rw [hra, hufmt, ← preset_eq, preset_and_rest]
    · rw [hrb, hugcr, ugcr_view]
      cases s.par.pInverted <;> exact (BitVec.zero_or).symm

/-! ### The ARM uop and SETTLE (R109, R110, R133) -/

/-- Settles O32: both uops are one record update, and START_TX's records U1 outside `Idle`. -/
theorem armSchedulesLatch : Obligations.ArmSchedulesLatch := by
  refine fun s => ⟨rfl, addUndef (decide (s.txState ≠ .idle)) .u1 s.undef, ?_, fun h => ?_,
    fun h => ⟨?_, fun u hu => ?_⟩⟩
  · simp only [issue, uopArmTx, State.recordInFlight, State.recordIf, State.armChannel, State.scheduleLatch, State.emit]
  · simp [h]
  · simp [h]
  · simp [hu]

/-- SETTLE as it completes, a step of its own (R110, R12). -/
theorem State.uopStep_settle {s : State} {c : Cmd} {k : Nat} (hseq : s.seq = .run c (k + 1))
    (hu : (uopsOf s c)[k]? = some .settle) (hp : s.loadPending = false) :
    s.uopStep = .next { s with
      effects := s.effects ++ [.settle s.par.settleCycles]
      seq := if k + 1 = (uopsOf s c).length then .idle else .run c (k + 2)
      initDone := s.initDone || (decide (c = .init) && decide (k + 1 = (uopsOf s c).length)) } := by
  have he : s.uopEnabled .settle = true := State.uopEnabled_of_not_waiting (by simp [hp])
  rw [State.uopStep_eq hseq hu, he, State.advance_eq, uopsOf_issue]
  rfl

/-- Where SETTLE is next, the step that comes of itself is the LATCH it waits for, or SETTLE (R110; log 8). -/
theorem State.sequencerStep_settle {s : State} (hn : s.nextUop = some .settle) :
    s.sequencerStep = if s.loadPending then .next s.latch else s.uopStep := by
  unfold State.sequencerStep
  rw [hn]
  cases hp : s.loadPending <;> simp [State.uopEnabled, hp]

/-- Settles O33: what SETTLE does by whether a latch is pending. -/
theorem settleWaitsForLatch : Obligations.SettleWaitsForLatch := by
  intro s ms c k hseq hu
  have hn : s.nextUop = some .settle := (State.nextUop_of_run hseq).trans hu
  refine ⟨fun hp hsc => ?_, fun hp hsc => ?_, fun hp hsc => ?_⟩
  · have h := uopMoveIssuesOneUop s ms c k .settle hsc hseq hu (by simp)
    rwa [if_pos ⟨rfl, hp⟩] at h
  · rw [step_of_running hsc hseq, State.sequencerStep_settle hn, hp, if_pos rfl]
  · have hstep : step s = State.uopStep { s with script := ms } := by
      rcases hsc with ⟨hsc, rfl⟩ | hsc
      · rw [step_of_running hsc hseq, State.sequencerStep_settle hn, if_neg (ne_true_of_eq_false hp), ← hsc]
      · exact step_of_move (by simp) (by simp) hsc
    exact hstep.trans (State.uopStep_settle (s := { s with script := ms }) hseq hu hp)

/-! ### Broken preconditions (R137, R100, R215) -/

/-- A valid buffer in natural numbers: in one piece of the storage, below 2^16, clear of the descriptor and of the data
register (R46, R137 (f), (g)). -/
theorem bufferValid_iff (p : Params) (rs : List Region) (buf : Addr) (len : Count) :
    bufferValid p rs buf len = true
      ↔ (∃ r ∈ rs, r.base.toNat ≤ buf.toNat ∧ buf.toNat + (len.toNat + 1) ≤ r.base.toNat + r.size)
        ∧ buf.toNat + len.toNat ≤ 0xFFFF
        ∧ (p.descAddr.toNat + 7 < buf.toNat ∨ buf.toNat + len.toNat < p.descAddr.toNat)
        ∧ ¬ (buf.toNat ≤ (udbufAddr p).toNat ∧ (udbufAddr p).toNat < buf.toNat + (len.toNat + 1)) := by
  simp only [bufferValid, bufferClear, inRange, Bool.and_eq_true, inStorage_iff, Bool.or_eq_true, decide_eq_true_eq,
    Bool.not_eq_true', Bool.and_eq_false_iff, decide_eq_false_iff_not, not_and_or, and_assoc]

theorem bufferValid_eq_false {p : Params} {rs : List Region} {buf : Addr} {len : Count}
    (h : 0xFFFF < buf.toNat + len.toNat ∨ (∃ k ≤ len.toNat, ∃ j < 8, buf.toNat + k = p.descAddr.toNat + j)
      ∨ (∃ k ≤ len.toNat, buf.toNat + k = (udbufAddr p).toNat)
      ∨ ∀ r ∈ rs, ¬(r.base.toNat ≤ buf.toNat ∧ buf.toNat + len.toNat < r.base.toNat + r.size)) :
    bufferValid p rs buf len = false := by
  rw [← Bool.not_eq_true, bufferValid_iff]
  rintro ⟨⟨r, hr, hlo, hhi⟩, hwrap, hdesc, hreg⟩
  rcases h with h | ⟨k, hk, j, hj, h⟩ | ⟨k, hk, h⟩ | h
  · omega
  · omega
  · omega
  · exact h r hr ⟨hlo, by omega⟩

/-- Which reasons TXD adds: those of FRAME_START (R135, R155, R164). -/
theorem mem_uopTxd_undef (s : State) (u : Undef) :
    u ∈ (uopTxd s).undef ↔ u ∈ s.undef ∨ (u = .u13 ∧ s.txBusy = true) ∨ (u = .u23 ∧ s.modeEn = false)
      ∨ (u = .u15 ∧ s.ufmt.getLsbD 6 = true) :=
  State.mem_frameStart_undef (Memory.read s.mem s.opBuf) (s.emit [.txd (Memory.read s.mem s.opBuf)]) u

/-- START_TX before its SETTLE: the descriptor stored and the channel armed (R131 to R133). -/
def State.startTxArmed (s : State) : State := uopArmTx (uopDescLen (uopDescSrc s))

/-- TXD is the last of START_TX's uops: its reasons join those recorded up to the LATCH (R130). -/
theorem State.mem_perform_startTx_undef (s : State) (u : Undef) :
    u ∈ (s.perform .startTx).undef ↔ u ∈ s.startTxArmed.latch.undef ∨ (u = .u13 ∧ s.txBusy = true)
      ∨ (u = .u23 ∧ s.modeEn = false) ∨ (u = .u15 ∧ s.ufmt.getLsbD 6 = true) :=
  mem_uopTxd_undef (uopSettle s.startTxArmed.latch) u

/-- The LATCH of START_TX is a fresh one: without a table it is U9 (R150). -/
theorem State.u9_mem_startTxArmed_latch {s : State} (h : s.dmaTableValid = false) : .u9 ∈ s.startTxArmed.latch.undef := by
  have hlost : s.startTxArmed.latchLost = true := by
    rw [State.latchLost_of_fresh rfl]
    exact congrArg not h
  simp [hlost]

/-- Settles O26: each reason is recorded at acceptance, by the LATCH or by FRAME_START, and none leaves `UNDEF`. -/
theorem brokenPreconditionsAreRecorded : Obligations.BrokenPreconditionsAreRecorded := by
  refine ⟨fun s buf len hi => ?_, fun s hi => ?_, fun s r v hi hp hv => ?_⟩
  · have hacc := undef_subset_perform .startTx (s.acceptStartTx buf len)
    have hmem := State.mem_perform_startTx_undef (s.acceptStartTx buf len)
    refine ⟨_, exec_startTx buf len hi, fun h => hacc ?_, fun h => hacc ?_, fun h => hacc ?_, fun h => hacc ?_,
      fun h => hacc ?_, fun h => (hmem _).2 ?_, fun h => (hmem _).2 ?_, fun h => (hmem _).2 ?_, fun h => (hmem _).2 ?_⟩
    · simp [State.acceptStartTx, h]
    · simp [State.acceptStartTx, h]
    · simp [State.acceptStartTx, h]
    · simp [State.acceptStartTx, bufferValid_eq_false h]
    · simp [State.acceptStartTx, h]
    · exact .inr (.inl ⟨rfl, h⟩)
    · exact .inr (.inr (.inl ⟨rfl, h⟩))
    · exact .inr (.inr (.inr ⟨rfl, s.flowEn_format ▸ h⟩))
    · exact .inl (State.u9_mem_startTxArmed_latch h)
  · have hacc := undef_subset_perform .init s.acceptInit
    refine ⟨_, exec_init hi, fun h => hacc ?_, fun h => hacc ?_, fun h => hacc ?_⟩ <;> simp [State.acceptInit_undef, h]
  · obtain ⟨t, ht, -, hundef⟩ := exec_rdReg_of_regval hi hv
    exact ⟨t, ht, by simp [hundef, hp]⟩

end Sys2Proof.Machine
end

/-! START_TX run whole: the descriptor stored, the channel armed and latched, the first byte in the transmitter. -/

section
namespace Sys2Proof.Machine

/-! ### START_TX in one record update (R130 to R135) -/

/-- The `E_MEM` events of t1 and t2 (R131, R132). -/
def startTxStoreEffects (p : Params) (buf : Addr) (len : Count) : List Effect :=
  [.mem p.descAddr ((buf + 1).extractLsb' 8 8), .mem (p.descAddr + 1) ((buf + 1).extractLsb' 0 8),
    .mem (p.descAddr + 4) (0#3 ++ len.extractLsb' 8 5 : BitVec 8), .mem (p.descAddr + 5) (len.extractLsb' 0 8)]

/-- What the LATCH of START_TX finds: the descriptor with the command's source and length, the channel armed (R131 to
R133). -/
theorem State.startTxArmed_eq {s : State} (h : s.stored = 0) :
    s.startTxArmed = { s with
      mem := startTxMem s s.opBuf s.opLen
      effects := s.effects ++ startTxStoreEffects s.par s.opBuf s.opLen ++ [.arm]
      undef := addUndef (decide (s.txState ≠ .idle)) .u1 s.undef
      arm := true
      loadPending := true
      latching := none
      txState := .armed } := by
  have hsrc : uopDescSrc s = _ := State.storeBytes_of_start (s := s.recordInFlight) h _ _
  have hlen : uopDescLen (uopDescSrc s) = _ := State.storeBytes_of_start (s := uopDescSrc s) rfl _ _
  rw [State.startTxArmed, uopArmTx, hlen, hsrc]
  simp [State.recordInFlight, State.recordIf, State.armChannel, State.scheduleLatch, State.emit, startTxStoreEffects,
    startTxMem, descSrcBytes, descLenBytes, hiByte, loByte, txSource, descByte4, descByte5, List.range, List.range.loop,
    BitVec.add_assoc]

/-- The state in which START_TX's LATCH is made (t1 to t4, R130, R150). -/
def State.startTxLatched (buf : Addr) (len : Count) (s : State) : State := (s.acceptStartTx buf len).startTxArmed.latch

/-- The state in which TXD has put the first byte into the transmitter (R135, R155). -/
def State.startTxLoaded (buf : Addr) (len : Count) (s : State) : State :=
  (s.startTxLatched buf len).frameStart ((startTxMem s buf len).read buf)

theorem State.startTxLatched_eq (buf : Addr) (len : Count) (s : State) :
    s.startTxLatched buf len = { s with
      opBuf := buf
      opLen := len
      seq := .run .startTx 1
      stored := 0
      mem := startTxMem s buf len
      effects := s.effects ++ startTxStoreEffects s.par buf len ++ [.arm]
      undef := (s.startTxLatched buf len).undef
      arm := true
      loadPending := false
      latching := none
      wSrc := (s.startTxLatched buf len).wSrc
      wDst := (s.startTxLatched buf len).wDst
      wCnt := (s.startTxLatched buf len).wCnt
      wCtl := (s.startTxLatched buf len).wCtl
      free := (s.startTxLatched buf len).free
      txState := .armed } := by
  rw [State.startTxLatched, State.startTxArmed_eq rfl]
  obtain ⟨us, ha, -⟩ := s.acceptStartTx_eq buf len
  rw [ha]
  rfl

/-- START_TX's next state: the working registers are as its LATCH leaves them, the transmitter, `UNDEF` and the free values
as FRAME_START does, and each other element holds what the uops wrote to it. -/
theorem exec_startTx_eq {s : State} (buf : Addr) (len : Count) (hi : s.seq = .idle) :
    exec (.startTx buf len) s = .next { s with
      opBuf := buf
      opLen := len
      stored := 0
      mem := startTxMem s buf len
      effects := s.effects ++ startTxStoreEffects s.par buf len
        ++ [.arm] ++ [.settle s.par.settleCycles] ++ [.txd ((startTxMem s buf len).read buf)]
      undef := (s.startTxLoaded buf len).undef
      arm := true
      loadPending := false
      latching := none
      wSrc := (s.startTxLatched buf len).wSrc
      wDst := (s.startTxLatched buf len).wDst
      wCnt := (s.startTxLatched buf len).wCnt
      wCtl := (s.startTxLatched buf len).wCtl
      txBusy := true
      txShift := (s.startTxLoaded buf len).txShift
      txFmt := (s.startTxLoaded buf len).txFmt
      free := (s.startTxLoaded buf len).free
      txState := .transmitting } := by
  have hp : (s.acceptStartTx buf len).perform .startTx = (uopTxd (uopSettle (s.startTxLatched buf len))).finish .startTx := rfl
  rw [exec_startTx buf len hi, hp, State.startTxLoaded]
  obtain ⟨c, hc⟩ : ∃ c, s.startTxLatched buf len = c := ⟨_, rfl⟩
  have heq := s.startTxLatched_eq buf len
  rw [hc] at heq ⊢
  rw [heq]
  have hinit : (s.initDone || decide (Cmd.startTx = .init)) = s.initDone := by simp
  simp only [State.finish, uopTxd, uopSettle, State.frameStart_initDone, State.emit_initDone, hinit, hi]
  rfl

/-- The bytes START_TX stores, and no other (R131, R132). -/
theorem read_startTxMem (s : State) (buf : Addr) (len : Count) (a : Addr) :
    (startTxMem s buf len).read a
      = if a = s.par.descAddr + 5 then len.extractLsb' 0 8
        else if a = s.par.descAddr + 4 then (0#3 ++ len.extractLsb' 8 5 : BitVec 8)
        else if a = s.par.descAddr + 1 then (buf + 1).extractLsb' 0 8
        else if a = s.par.descAddr then (buf + 1).extractLsb' 8 8
        else s.mem.read a := by
  simp only [startTxMem, Memory.writeList_cons, Memory.writeList_nil, Memory.read_write, BitVec.add_assoc]
  rfl

theorem read_startTxMem_other {s : State} {a : Addr} (buf : Addr) (len : Count) (h0 : a ≠ s.par.descAddr)
    (h1 : a ≠ s.par.descAddr + 1) (h4 : a ≠ s.par.descAddr + 4) (h5 : a ≠ s.par.descAddr + 5) :
    (startTxMem s buf len).read a = s.mem.read a := by
  rw [read_startTxMem, if_neg h5, if_neg h4, if_neg h1, if_neg h0]

/-- Settles O24: the four stores address by address. -/
theorem startTxStores : Obligations.StartTxStores := by
  intro s buf len hi
  refine ⟨_, exec_startTx_eq buf len hi, ?_, ?_, ?_, ?_, fun a => read_startTxMem_other buf len⟩ <;> simp [read_startTxMem]

/-- Settles O25: the elements no part of START_TX writes. -/
theorem startTxFrame : Obligations.StartTxFrame := by
  intro s buf len hi
  exact ⟨_, exec_startTx_eq buf len hi, rfl, rfl, rfl, rfl, rfl, rfl, rfl, rfl, rfl, rfl, rfl, rfl, rfl, rfl, rfl, rfl, rfl,
    rfl, rfl, rfl, rfl, rfl, rfl, rfl, rfl, undef_kept.exec hi (exec_startTx_eq buf len hi)⟩

/-! ### What START_TX's LATCH loads (R134, R150) -/

/-- With the table installed a fresh LATCH loads the fields of the descriptor at `DMA_SLOT`, and U22 is all it can record
(R73, R150). -/
theorem State.latch_of_table {s : State} (hl : s.latching = none) (ht : s.dmaTableValid = true) :
    s.latch = { s with
      wSrc := joinBytes (s.mem.read s.dmaSlot) (s.mem.read (s.dmaSlot + 1))
      wDst := joinBytes (s.mem.read (s.dmaSlot + 2)) (s.mem.read (s.dmaSlot + 3))
      wCnt := lenOfBytes (s.mem.read (s.dmaSlot + 4)) (s.mem.read (s.dmaSlot + 5))
      wCtl := ctlOfBytes (s.mem.read (s.dmaSlot + 4)) (s.mem.read (s.dmaSlot + 6)) (s.mem.read (s.dmaSlot + 7))
      loadPending := false
      undef := if ctlOfBytes (s.mem.read (s.dmaSlot + 4)) (s.mem.read (s.dmaSlot + 6)) (s.mem.read (s.dmaSlot + 7))
            = blockCtl s.par ∧ joinBytes (s.mem.read (s.dmaSlot + 2)) (s.mem.read (s.dmaSlot + 3)) = udbufAddr s.par
        then s.undef else insertUndef .u22 s.undef } := by
  have hlost : s.latchLost = false := by rw [State.latchLost_of_fresh hl, ht]; rfl
  have hbyte := State.latchByte_of_fresh hl ht
  have h0 : s.latchByte 0 = s.mem.read s.dmaSlot := by rw [hbyte, BitVec.add_zero]
  simp only [State.latch, State.addUndef_latchForeign, State.latchCtl, State.latchDst, hlost, hl, h0, hbyte, addUndef_false,
    Bool.false_eq_true, ↓reduceIte]
  rfl

/-- The source and the length START_TX stores are read back as they were stored (R41, R72). -/
theorem startTxMem_source (s : State) (buf : Addr) (len : Count) :
    joinBytes ((startTxMem s buf len).read s.par.descAddr) ((startTxMem s buf len).read (s.par.descAddr + 1)) = buf + 1 := by
  have h0 : (startTxMem s buf len).read s.par.descAddr = hiByte (buf + 1) := by simp [read_startTxMem, hiByte]
  have h1 : (startTxMem s buf len).read (s.par.descAddr + 1) = loByte (buf + 1) := by simp [read_startTxMem, loByte]
  rw [h0, h1, joinBytes_hiByte_loByte]

theorem startTxMem_length (s : State) (buf : Addr) (len : Count) :
    lenOfBytes ((startTxMem s buf len).read (s.par.descAddr + 4)) ((startTxMem s buf len).read (s.par.descAddr + 5)) = len := by
  have h4 : (startTxMem s buf len).read (s.par.descAddr + 4) = descByte4 0 len := by simp [read_startTxMem, descByte4]
  have h5 : (startTxMem s buf len).read (s.par.descAddr + 5) = descByte5 len := by simp [read_startTxMem, descByte5]
  rw [h4, h5]
  exact (descriptorFieldsRoundTrip.1 (blockCtl s.par) len).2

/-- With table and slot as INIT leaves them the channel holds the command's source and count, whatever else the descriptor
says (R134). -/
theorem State.startTxLatched_of_table {s : State} (buf : Addr) (len : Count) (ht : s.dmaTableValid = true)
    (hslot : s.dmaSlot = s.par.descAddr) :
    (s.startTxLatched buf len).wSrc = buf + 1 ∧ (s.startTxLatched buf len).wCnt = len := by
  have ha : (s.acceptStartTx buf len).startTxArmed = _ := State.startTxArmed_eq rfl
  have hl := State.latch_of_table (s := (s.acceptStartTx buf len).startTxArmed) rfl ht
  have hmem : (s.acceptStartTx buf len).startTxArmed.mem = startTxMem s buf len := by rw [ha]; rfl
  have hs : (s.acceptStartTx buf len).startTxArmed.dmaSlot = s.par.descAddr := hslot
  rw [hmem, hs] at hl
  rw [State.startTxLatched, hl]
  exact ⟨startTxMem_source s buf len, startTxMem_length s buf len⟩

/-- Settles O23: the uops are issued whatever the state, and what the working registers and the transmitter then hold. -/
theorem startTxAlwaysIssues : Obligations.StartTxAlwaysIssues := by
  intro s buf len hi
  refine ⟨_, _, exec_startTx_eq buf len hi, hi, rfl, rfl, rfl, rfl, rfl, rfl, rfl, ?_,
    fun ht hs => State.startTxLatched_of_table buf len ht hs, fun hb => ?_⟩
  · simp [startTxStoreEffects]
  · obtain ⟨vs, he, -⟩ := State.frameStart_of_free (s := s.startTxLatched buf len) hb ((startTxMem s buf len).read buf)
    rw [State.startTxLoaded, he]
    exact ⟨rfl, rfl⟩

/-- The format in force as the two registers have it (R24). -/
theorem State.format_eq (s : State) : s.format = (s.ugcr.extractLsb' 5 1 ++ s.ufmt.extractLsb' 0 7 : BitVec 8) := by
  have hbit : ∀ g : Byte, bit (g.getLsbD 5) = g.extractLsb' 5 1 := by decide
  rw [State.format, State.orderBit, hbit]

/-- Settles O37: TXD is FRAME_START through the host port, and `TXSTATE <- Transmitting`. -/
theorem firstByteStartsTheFrame : Obligations.FirstByteStartsTheFrame := by
  intro s
  have hmem := mem_uopTxd_undef s
  refine ⟨rfl, rfl, rfl, (hmem _).trans ?_, (hmem _).trans ?_, (hmem _).trans ?_, fun hb => ?_, rfl, rfl, rfl, rfl, rfl⟩
  · simp [or_comm]
  · simp [or_comm]
  · simp [or_comm]
  · obtain ⟨vs, he, -⟩ :=
      State.frameStart_of_free (s := s.emit [.txd (s.mem.read s.opBuf)]) hb (s.mem.read s.opBuf)
    rw [issue, uopTxd, he]
    exact ⟨rfl, s.format_eq, rfl⟩

/-! ### The descriptor's fixed fields byte by byte (R72, R74) -/

/-- What the block's own fields say of descriptor byte `j`: bytes 0, 1 and 5 and the low bits of byte 4 are START_TX's. -/
def fixedAt (p : Params) (j : Nat) (b : Byte) : Prop :=
  match j with
  | 2 => b = hiByte (udbufAddr p)
  | 3 => b = loByte (udbufAddr p)
  | 4 => b.extractLsb' 5 3 = (blockCtl p).vlen
  | 6 => b = descByte6 (blockCtl p)
  | 7 => b = descByte7 (blockCtl p)
  | _ => True

/-- The descriptor in memory `m` has the block's own fields. -/
def Memory.HasFixed (p : Params) (m : Memory) : Prop :=
  ∀ j < 8, fixedAt p j (m.read (p.descAddr + BitVec.ofNat 16 j))

theorem loByte_joinBytes (a b : Byte) : loByte (joinBytes a b) = b := by
  simp only [joinBytes, loByte]
  apply BitVec.eq_of_getLsbD_eq
  intro i hi
  rw [BitVec.getLsbD_extractLsb', BitVec.getLsbD_append]
  simp [hi]

theorem joinBytes_eq_iff (a b : Byte) (v : Addr) : joinBytes a b = v ↔ a = hiByte v ∧ b = loByte v := by
  constructor
  · rintro rfl
    exact ⟨(hiByte_joinBytes a b).symm, (loByte_joinBytes a b).symm⟩
  · rintro ⟨rfl, rfl⟩
    exact joinBytes_hiByte_loByte v

theorem ctlOfBytes_eq_iff (c : DescCtl) (d4 d6 d7 : Byte) :
    ctlOfBytes d4 d6 d7 = c ↔ d4.extractLsb' 5 3 = c.vlen ∧ d6 = descByte6 c ∧ d7 = descByte7 c := by
  rw [@eq_comm _ d6, @eq_comm _ d7, descByte6_eq_iff, descByte7_eq_iff]
  cases c
  simp only [ctlOfBytes, DescCtl.mk.injEq]
  tauto

theorem State.descFixed_iff (s : State) : s.descFixed ↔ Memory.HasFixed s.par s.mem := by
  rw [State.descFixed, joinBytes_eq_iff, ctlOfBytes_eq_iff]
  constructor
  · rintro ⟨⟨h2, h3⟩, h4, h6, h7⟩ j hj
    interval_cases j
    · trivial
    · trivial
    · exact h2
    · exact h3
    · exact h4
    · trivial
    · exact h6
    · exact h7
  · intro h
    exact ⟨⟨h 2 (by omega), h 3 (by omega)⟩, h 4 (by omega), h 6 (by omega), h 7 (by omega)⟩

/-! ### Stores into the descriptor -/

/-- Two bytes of one descriptor at one address are the same byte. -/
theorem descAddr_add_inj {d : Addr} {i j : Nat} (hi : i < 8) (hj : j < 8)
    (h : d + BitVec.ofNat 16 i = d + BitVec.ofNat 16 j) : i = j := by
  have := congrArg BitVec.toNat (add_left_cancel h)
  simp at this
  omega

/-- Consecutive stores into the descriptor: a byte of those stored. -/
theorem Memory.read_writeList_stored (m : Memory) (d : Addr) {o i : Nat} {bs : List Byte} (ho : o + bs.length ≤ 8)
    (hi : i < bs.length) : (m.writeList (d + BitVec.ofNat 16 o) bs).read (d + BitVec.ofNat 16 (o + i)) = bs[i] := by
  rw [← BitVec.ofNat_add_ofNat, ← BitVec.add_assoc]
  exact Memory.read_writeList_at m _ bs (by omega) hi

/-- Consecutive stores into the descriptor: a byte of it that is not among those stored. -/
theorem Memory.read_writeList_kept (m : Memory) (d : Addr) {o j : Nat} {bs : List Byte} (ho : o + bs.length ≤ 8) (hj : j < 8)
    (h : j < o ∨ o + bs.length ≤ j) :
    (m.writeList (d + BitVec.ofNat 16 o) bs).read (d + BitVec.ofNat 16 j) = m.read (d + BitVec.ofNat 16 j) := by
  refine Memory.read_writeList_other m _ bs fun k hk he => ?_
  rw [BitVec.add_assoc, BitVec.ofNat_add_ofNat] at he
  have := descAddr_add_inj hj (by omega) he
  omega

/-- Stores of bytes that the block's fields allow keep those fields. -/
theorem Memory.HasFixed.writeList {p : Params} {m : Memory} (h : Memory.HasFixed p m) {o : Nat} {bs : List Byte}
    (ho : o + bs.length ≤ 8) (hbs : ∀ i (hi : i < bs.length), fixedAt p (o + i) bs[i]) :
    Memory.HasFixed p (m.writeList (p.descAddr + BitVec.ofNat 16 o) bs) := by
  intro j hj
  by_cases hin : o ≤ j ∧ j < o + bs.length
  · obtain ⟨i, rfl⟩ := Nat.exists_eq_add_of_le hin.1
    rw [Memory.read_writeList_stored m _ ho (by omega)]
    exact hbs i (by omega)
  · rw [Memory.read_writeList_kept m _ ho hj (by omega)]
    exact h j hj

/-- A uop that stores in `MEM` stores descriptor bytes, and such as the block's own fields allow (R74, R107, R131, R132). -/
theorem fixedAt_memStores {u : Uop} {s : State} {a : Addr} {bs : List Byte} (h : memStores u s = some (a, bs)) :
    ∃ o, a = s.par.descAddr + BitVec.ofNat 16 o ∧ o + bs.length ≤ 8
      ∧ ∀ i (hi : i < bs.length), fixedAt s.par (o + i) bs[i] := by
  cases u with
  | descInit =>
    cases h
    refine ⟨0, (BitVec.add_zero _).symm, by simp [descInitBytes], fun i hi => ?_⟩
    have hi' : i < 8 := hi
    have h4 : (descByte4 0 0).extractLsb' 5 3 = 0 := by decide
    interval_cases i
    · trivial
    · trivial
    · rfl
    · rfl
    · exact h4
    · trivial
    · rfl
    · rfl
  | descSrc =>
    cases h
    refine ⟨0, (BitVec.add_zero _).symm, by simp [descSrcBytes], fun i hi => ?_⟩
    have hi' : i < 2 := hi
    interval_cases i <;> trivial
  | descLen =>
    cases h
    refine ⟨4, rfl, by simp [descLenBytes], fun i hi => ?_⟩
    have hi' : i < 2 := hi
    interval_cases i
    · exact ((descByte4_eq_iff 0 s.opLen _).1 rfl).1
    · trivial
  | _ => cases h

/-- START_TX's stores leave the block's fields as they were (R131, R132, R136). -/
theorem startTxMem_hasFixed {s : State} (buf : Addr) (len : Count) (h : s.mem.HasFixed s.par) :
    (startTxMem s buf len).HasFixed s.par := by
  obtain ⟨o, ho, hlen, hfix⟩ := fixedAt_memStores (u := .descSrc) (s := { s with opBuf := buf, opLen := len }) rfl
  obtain ⟨o', ho', hlen', hfix'⟩ := fixedAt_memStores (u := .descLen) (s := { s with opBuf := buf, opLen := len }) rfl
  have hsrc := h.writeList hlen hfix
  have hmem := hsrc.writeList hlen' hfix'
  rw [← ho, ← ho'] at hmem
  exact hmem

/-! ### START_TX whose preconditions hold (R137) -/

/-- The preconditions of R137 with INIT's work in place, the transmitter free and flow control off. -/
structure State.StartTxReady (buf : Addr) (len : Count) (s : State) : Prop where
  par : s.par.wf = true
  seq : s.seq = .idle
  initDone : s.initDone = true
  powered : s.powered = true
  txState : s.txState = .idle
  txBusy : s.txBusy = false
  lenPos : len ≠ 0
  buffer : bufferValid s.par s.storage buf len = true
  table : s.dmaTableValid = true
  slot : s.dmaSlot = s.par.descAddr
  desc : s.descFixed
  modeEn : s.modeEn = true
  flow : flowEn s.format = false

theorem params_wf_iff (p : Params) : p.wf = true ↔ 1 ≤ p.settleCycles ∧ p.descAddr.toNat ≤ 0xFFF8 := by
  simp [Params.wf]

/-- A valid buffer holds no descriptor byte (R46, R137 (g)). -/
theorem buffer_ne_desc {p : Params} {rs : List Region} {buf : Addr} {len : Count} (hp : p.wf = true)
    (hb : bufferValid p rs buf len = true) {k j : Nat} (hk : k ≤ len.toNat) (hj : j < 8) :
    buf + BitVec.ofNat 16 k ≠ p.descAddr + BitVec.ofNat 16 j := by
  obtain ⟨-, hwrap, hdesc, -⟩ := (bufferValid_iff p rs buf len).1 hb
  obtain ⟨-, htop⟩ := (params_wf_iff p).1 hp
  intro h
  have := congrArg BitVec.toNat h
  simp only [BitVec.toNat_add, BitVec.toNat_ofNat] at this
  omega

/-- START_TX's stores leave the buffer as it was (R136). -/
theorem read_startTxMem_buffer {s : State} {buf : Addr} {len : Count} (hp : s.par.wf = true)
    (hb : bufferValid s.par s.storage buf len = true) {k : Nat} (hk : k ≤ len.toNat) :
    (startTxMem s buf len).read (buf + BitVec.ofNat 16 k) = s.mem.read (buf + BitVec.ofNat 16 k) := by
  have hne := fun j hj => buffer_ne_desc hp hb hk (j := j) hj
  exact read_startTxMem_other buf len (by simpa using hne 0 (by omega)) (hne 1 (by omega)) (hne 4 (by omega))
    (hne 5 (by omega))

/-- Nothing is recorded at acceptance when the preconditions hold (R65, R137). -/
theorem State.StartTxReady.acceptStartTx {s : State} {buf : Addr} {len : Count} (h : s.StartTxReady buf len) :
    s.acceptStartTx buf len = { s with opBuf := buf, opLen := len, seq := .run .startTx 1, stored := 0 } := by
  have hl : ¬ len = 0#13 := h.lenPos
  simp [State.acceptStartTx, State.accept, State.recordIf, h.initDone, h.powered, h.txState, hl, h.buffer]

/-- A write of `UDBUF` on a free, enabled transmitter without flow control records nothing (R155). -/
theorem State.frameStart_of_ready {s : State} (hb : s.txBusy = false) (hm : s.modeEn = true) (hf : flowEn s.format = false)
    (b : Byte) : s.frameStart b = { s with txShift := b, txFmt := s.format, txBusy := true } := by
  simp [State.frameStart, State.writeLost, hb, hm, hf]

/-- The channel loads source, length and the block's own fields, and nothing is recorded or drawn (R134, R150). -/
theorem State.StartTxReady.startTxLatched {s : State} {buf : Addr} {len : Count} (h : s.StartTxReady buf len) :
    (s.startTxLatched buf len).wSrc = buf + 1 ∧ (s.startTxLatched buf len).wCnt = len
      ∧ (s.startTxLatched buf len).wDst = udbufAddr s.par ∧ (s.startTxLatched buf len).wCtl = blockCtl s.par
      ∧ (s.startTxLatched buf len).undef = s.undef ∧ (s.startTxLatched buf len).free = s.free := by
  have hfix := (State.descFixed_iff { s with mem := startTxMem s buf len }).2
    (startTxMem_hasFixed buf len (s.descFixed_iff.1 h.desc))
  have ha := State.startTxArmed_eq (s := s.acceptStartTx buf len) rfl
  have hl := State.latch_of_table (s := (s.acceptStartTx buf len).startTxArmed) rfl h.table
  have hmem : (s.acceptStartTx buf len).startTxArmed.mem = startTxMem s buf len := by rw [ha]; rfl
  have hs : (s.acceptStartTx buf len).startTxArmed.dmaSlot = s.par.descAddr := h.slot
  have hundef : (s.acceptStartTx buf len).startTxArmed.undef = s.undef := by rw [ha, h.acceptStartTx]; simp [h.txState]
  have hpar : (s.acceptStartTx buf len).startTxArmed.par = s.par := rfl
  rw [hmem, hs, hundef, hpar, startTxMem_source, startTxMem_length, hfix.1, hfix.2, if_pos ⟨rfl, rfl⟩] at hl
  rw [State.startTxLatched, hl]
  exact ⟨rfl, rfl, rfl, rfl, rfl, rfl⟩

/-- START_TX's next state when its preconditions hold. -/
def State.startTxSent (buf : Addr) (len : Count) (s : State) : State :=
  { s with
    opBuf := buf
    opLen := len
    stored := 0
    mem := startTxMem s buf len
    effects := s.effects ++ startTxStoreEffects s.par buf len
      ++ [.arm] ++ [.settle s.par.settleCycles] ++ [.txd (s.mem.read buf)]
    arm := true
    loadPending := false
    latching := none
    wSrc := buf + 1
    wDst := udbufAddr s.par
    wCnt := len
    wCtl := blockCtl s.par
    txBusy := true
    txShift := s.mem.read buf
    txFmt := s.format
    txState := .transmitting }

theorem State.StartTxReady.exec {s : State} {buf : Addr} {len : Count} (h : s.StartTxReady buf len) :
    exec (.startTx buf len) s = .next (s.startTxSent buf len) := by
  obtain ⟨hsrc, hcnt, hdst, hctl, hundef, hfree⟩ := h.startTxLatched
  have hframe : s.startTxLoaded buf len = _ :=
    State.frameStart_of_ready (s := s.startTxLatched buf len) h.txBusy h.modeEn h.flow ((startTxMem s buf len).read buf)
  have hread : (startTxMem s buf len).read buf = s.mem.read buf := by
    simpa using read_startTxMem_buffer h.par h.buffer (Nat.zero_le _)
  rw [exec_startTx_eq buf len h.seq, hframe, hsrc, hcnt, hdst, hctl, hundef, hfree, hread]
  rfl

/-- Settles O22: the preconditions leave each element of START_TX's next state one value. -/
theorem startTxCompletes : Obligations.StartTxCompletes := by
  intro s buf len hp hi hd hw ht hb hl hv htab hs hdesc hm hf
  have h : s.StartTxReady buf len := ⟨hp, hi, hd, hw, ht, hb, hl, hv, htab, hs, hdesc, hm, hf⟩
  rw [h.exec]
  simp [State.startTxSent, startTxStoreEffects]

/-! ### The frame ends that follow (R152, R153, R156, R158) -/

/-- The end of a frame on an armed, latched channel with bytes left, the transmitter enabled and flow control off: the frame
joins `WIRE` and the next byte's begins (R152, R153). -/
theorem State.frameEnd_of_bytesLeft {s : State} (ha : s.arm = true) (hp : s.loadPending = false) (hc : s.wCnt ≠ 0)
    (hm : s.modeEn = true) (hf : flowEn s.format = false) :
    s.frameEnd = { s with
      wire := s.wire ++ [(s.txShift, frame s.txFmt s.txShift)]
      txShift := s.mem.read s.wSrc
      txFmt := s.format
      txBusy := true
      wSrc := s.wSrc + 1
      wCnt := s.wCnt - 1
      arm := decide (s.wCnt - 1 ≠ 0) } := by
  have hfs := State.frameStart_of_ready (s := s.completeFrame) rfl hm hf (s.mem.read s.wSrc)
  rw [State.frameEnd_of_armed ha hp hc, State.transfer, State.completeFrame_mem, State.completeFrame_wSrc, hfs]
  by_cases h1 : s.wCnt - 1 = 0 <;> simp [State.completeFrame, State.format, State.orderBit, ha]

/-- The end of the last frame frees the transmitter and ends the transmission (R156, R158). -/
theorem State.frameEnd_of_last {s : State} (ha : s.arm = false) (ht : s.txState = .transmitting) :
    s.frameEnd = { s with
      wire := s.wire ++ [(s.txShift, frame s.txFmt s.txShift)]
      txBusy := false
      txState := .idle } := by
  simp [State.frameEnd_of_disarmed ha, State.retire, State.completeFrame, ht]

/-- With the port free, nothing asked for and no latch pending, the step is the end of the frame on the wire (log 8). -/
theorem step_frameEnd_of_idle {s : State} (hsc : s.script = []) (hi : s.seq = .idle) (hp : s.loadPending = false)
    (hb : s.txBusy = true) : step s = .next s.frameEnd := by
  simp [step_of_nil hsc, State.progress, hi, hp, hb]

/-- What stands between the frame ends of a transfer: the channel armed exactly while it has bytes left, a frame on the
wire, nothing to record. -/
structure State.Sending (s : State) : Prop where
  script : s.script = []
  seq : s.seq = .idle
  loadPending : s.loadPending = false
  txBusy : s.txBusy = true
  txState : s.txState = .transmitting
  arm : s.arm = decide (s.wCnt ≠ 0)
  modeEn : s.modeEn = true
  flow : flowEn s.format = false

/-- The bytes at `src` and after it with their frames. -/
def framesFrom (m : Memory) (f : Byte) (src : Addr) (n : Nat) : List (Byte × List Bool) :=
  (List.range n).map fun k => (m.read (src + BitVec.ofNat 16 k), frame f (m.read (src + BitVec.ofNat 16 k)))

theorem add_ofNat_succ (a : Addr) (n : Nat) : a + BitVec.ofNat 16 (n + 1) = a + 1 + BitVec.ofNat 16 n := by
  rw [Nat.add_comm, ← BitVec.ofNat_add_ofNat, BitVec.add_assoc]
  rfl

theorem framesFrom_succ (m : Memory) (f : Byte) (src : Addr) (n : Nat) :
    framesFrom m f src (n + 1) = (m.read src, frame f (m.read src)) :: framesFrom m f (src + 1) n := by
  simp only [framesFrom, List.range_succ_eq_map, List.map_cons, List.map_map, Function.comp_def, Nat.succ_eq_add_one,
    add_ofNat_succ, BitVec.add_zero]

/-- The frame ends of a transfer, one after the other: by induction on the bytes that are left (R136, R152, R158). -/
theorem run_frameEnds {n : Nat} {s : State} (h : s.Sending) (hn : s.wCnt.toNat = n) :
    ∃ b f, core.run (n + 1) s = .next { s with
      wire := s.wire ++ (s.txShift, frame s.txFmt s.txShift) :: framesFrom s.mem s.format s.wSrc n
      txShift := b
      txFmt := f
      txBusy := false
      txState := .idle
      wSrc := s.wSrc + BitVec.ofNat 16 n
      wCnt := 0
      arm := false } := by
  have hstep := step_frameEnd_of_idle h.script h.seq h.loadPending h.txBusy
  induction n generalizing s with
  | zero =>
    have h0 : s.wCnt = 0 := BitVec.eq_of_toNat_eq hn
    have ha : s.arm = false := by rw [h.arm, h0]; rfl
    refine ⟨s.txShift, s.txFmt, ?_⟩
    rw [run_one, hstep, State.frameEnd_of_last ha h.txState]
    simp only [framesFrom, List.range_zero, List.map_nil, BitVec.add_zero, h0, ha]
    rfl
  | succ n ih =>
    have h0 : s.wCnt ≠ 0 := fun h0 => by simp [h0] at hn
    have ha : s.arm = true := by rw [h.arm]; exact decide_eq_true h0
    have hfe := State.frameEnd_of_bytesLeft ha h.loadPending h0 h.modeEn h.flow
    have hsend : s.frameEnd.Sending := by
      rw [hfe]
      exact ⟨h.script, h.seq, h.loadPending, rfl, h.txState, rfl, h.modeEn, h.flow⟩
    have hn' : s.frameEnd.wCnt.toNat = n := by
      rw [hfe]
      show (s.wCnt - 1).toNat = n
      rw [BitVec.toNat_sub_of_le] <;> simp [BitVec.le_def] <;> omega
    obtain ⟨b, f, hrun⟩ := ih hsend hn' (step_frameEnd_of_idle hsend.script hsend.seq hsend.loadPending hsend.txBusy)
    refine ⟨b, f, (run_succ _ hstep).trans (hrun.trans ?_)⟩
    rw [hfe, framesFrom_succ, add_ofNat_succ]
    simp only [State.format, State.orderBit, List.append_assoc, List.cons_append, List.nil_append]

/-- Memories that agree on the bytes give the same frames. -/
theorem framesFrom_congr {m m' : Memory} {src : Addr} {n : Nat} (f : Byte)
    (h : ∀ k < n, m'.read (src + BitVec.ofNat 16 k) = m.read (src + BitVec.ofNat 16 k)) :
    framesFrom m' f src n = framesFrom m f src n :=
  List.map_congr_left fun k hk => by rw [h k (List.mem_range.1 hk)]

/-- Settles O27: START_TX sends the first byte and each frame end that follows the next. -/
theorem transferDeliversTheBuffer : Obligations.TransferDeliversTheBuffer := by
  intro s buf len hp hi hsc hd hw ht hb hl hv htab hs hdesc hm hf
  have h : s.StartTxReady buf len := ⟨hp, hi, hd, hw, ht, hb, hl, hv, htab, hs, hdesc, hm, hf⟩
  have hcnt : true = decide (len ≠ 0) := (decide_eq_true hl).symm
  obtain ⟨b, f, hrun⟩ := run_frameEnds (s := s.startTxSent buf len) ⟨hsc, hi, rfl, rfl, rfl, hcnt, hm, hf⟩ rfl
  have hrest : framesFrom (startTxMem s buf len) s.format (buf + 1) len.toNat
      = framesFrom s.mem s.format (buf + 1) len.toNat :=
    framesFrom_congr s.format fun k hk => by
      rw [← add_ofNat_succ]
      exact read_startTxMem_buffer hp hv hk
  refine ⟨_, _, h.exec, hrun, ?_, rfl, rfl, (add_ofNat_succ buf len.toNat).symm, rfl, rfl, hi, rfl, rfl, rfl⟩
  change s.wire ++ (s.mem.read buf, frame s.format (s.mem.read buf)) :: framesFrom (startTxMem s buf len) s.format (buf + 1)
    len.toNat = s.wire ++ framesFrom s.mem s.format buf (len.toNat + 1)
  rw [framesFrom_succ, hrest]

end Sys2Proof.Machine
end

/-! The handshake between sequencer, channel and transmitter (R159), kept by every step that records nothing. -/

section
namespace Sys2Proof.Machine

/-! ### Which uop stands where (R100, R115, R130) -/

/-- The uops of START_TX by position (R130). -/
theorem startTxUops_at {k : Nat} {u : Uop} (h : startTxUops[k]? = some u) :
    (k = 0 ∧ u = .descSrc) ∨ (k = 1 ∧ u = .descLen) ∨ (k = 2 ∧ u = .armTx) ∨ (k = 3 ∧ u = .settle) ∨ (k = 4 ∧ u = .txd) := by
  obtain ⟨hk, -⟩ := List.getElem?_eq_some_iff.1 h
  have hk : k < 5 := hk
  interval_cases k <;> simp_all [startTxUops]

/-- The uops that only START_TX has. -/
theorem cmd_of_startTxUop {s : State} {c : Cmd} {u : Uop} (hm : u ∈ uopsOf s c)
    (hu : u = .descSrc ∨ u = .descLen ∨ u = .armTx ∨ u = .txd) : c = .startTx := by
  cases c with
  | startTx => rfl
  | init =>
    cases ht : s.par.pTelemetryRx <;> rcases hu with rfl | rfl | rfl | rfl <;>
      simp [uopsOf, initUops, initPinUops, initBaudUops, modeUops, initDmaUops, initRxUops, ht] at hm
  | setMode => rcases hu with rfl | rfl | rfl | rfl <;> simp [uopsOf, modeUops] at hm
  | rdReg => rcases hu with rfl | rfl | rfl | rfl <;> simp [uopsOf] at hm

/-- The uops that only INIT has, of those the handshake speaks of. -/
theorem cmd_of_initUop {s : State} {c : Cmd} {u : Uop} (hm : u ∈ uopsOf s c)
    (hu : u = .modeEn ∨ u = .descInit ∨ u = .slot ∨ u = .arm) : c = .init := by
  cases c with
  | init => rfl
  | startTx => rcases hu with rfl | rfl | rfl | rfl <;> simp [uopsOf, startTxUops] at hm
  | setMode => rcases hu with rfl | rfl | rfl | rfl <;> simp [uopsOf, modeUops] at hm
  | rdReg => rcases hu with rfl | rfl | rfl | rfl <;> simp [uopsOf] at hm

theorem cmd_of_settle {s : State} {c : Cmd} (hm : .settle ∈ uopsOf s c) : c = .init ∨ c = .startTx := by
  cases c with
  | init => exact .inl rfl
  | startTx => exact .inr rfl
  | setMode => simp [uopsOf, modeUops] at hm
  | rdReg => simp [uopsOf] at hm

/-- INIT's uops around its SETTLE (R100): descriptor and slot are written, and the ARM uop comes right before it. -/
theorem initUops_split (p : Params) :
    ∃ pre post, initUops p = pre ++ [.descInit, .slot, .arm, .settle] ++ post ∧ .arm ∉ pre ∧ .settle ∉ pre ∧ .arm ∉ post
      ∧ .settle ∉ post := by
  refine ⟨initPinUops p ++ initBaudUops ++ modeUops (preset p), initRxUops p, by simp [initUops, initDmaUops], ?_⟩
  cases ht : p.pTelemetryRx <;> simp [initPinUops, initBaudUops, modeUops, initRxUops, ht]

theorem mem_initUops (p : Params) : .modeEn ∈ initUops p ∧ .descInit ∈ initUops p ∧ .slot ∈ initUops p := by
  cases ht : p.pTelemetryRx <;> simp [initUops, initPinUops, initBaudUops, modeUops, initDmaUops, ht]

/-- An element that only the middle of three lists has stands in the middle. -/
theorem getElem?_middle {α : Type} {pre mid post : List α} {x : α} {k : Nat} (h : (pre ++ mid ++ post)[k]? = some x)
    (hpre : x ∉ pre) (hpost : x ∉ post) : ∃ j, k = pre.length + j ∧ mid[j]? = some x := by
  rw [List.append_assoc, List.getElem?_append] at h
  split at h
  case isTrue => exact absurd (List.mem_of_getElem? h) hpre
  case isFalse hk =>
    rw [List.getElem?_append] at h
    split at h
    case isTrue => exact ⟨k - pre.length, by omega, h⟩
    case isFalse => exact absurd (List.mem_of_getElem? h) hpost

/-- An ARM uop is followed by the SETTLE that waits for its LATCH (R110, R134). -/
theorem settle_follows {s : State} {c : Cmd} {k : Nat} {u : Uop} (hu : (uopsOf s c)[k]? = some u)
    (ha : u = .arm ∨ u = .armTx) : (uopsOf s c)[k + 1]? = some .settle := by
  rcases ha with rfl | rfl
  · obtain rfl := cmd_of_initUop (List.mem_of_getElem? hu) (by simp)
    obtain ⟨pre, post, he, hpre, -, hpost, -⟩ := initUops_split s.par
    have hu' : (pre ++ [.descInit, .slot, .arm, .settle] ++ post)[k]? = some .arm := he ▸ hu
    obtain ⟨j, rfl, hj⟩ := getElem?_middle hu' hpre hpost
    obtain ⟨hj4, -⟩ := List.getElem?_eq_some_iff.1 hj
    have hj4 : j < 4 := hj4
    show (initUops s.par)[pre.length + j + 1]? = some .settle
    rw [he, Nat.add_assoc]
    interval_cases j <;> simp at hj ⊢
  · obtain rfl := cmd_of_startTxUop (List.mem_of_getElem? hu) (by simp)
    rcases startTxUops_at hu with ⟨-, h⟩ | ⟨-, h⟩ | ⟨rfl, -⟩ | ⟨-, h⟩ | ⟨-, h⟩
    · cases h
    · cases h
    · rfl
    · cases h
    · cases h

/-- Where INIT's SETTLE stands, descriptor and slot are written (R100). -/
theorem past_of_settle {p : Params} {k : Nat} (h : (initUops p)[k]? = some .settle) :
    .descInit ∈ (initUops p).take k ∧ .slot ∈ (initUops p).take k := by
  obtain ⟨pre, post, he, -, hpre, -, hpost⟩ := initUops_split p
  rw [he] at h ⊢
  obtain ⟨j, rfl, hj⟩ := getElem?_middle h hpre hpost
  obtain ⟨hj4, -⟩ := List.getElem?_eq_some_iff.1 hj
  have hj4 : j < 4 := hj4
  interval_cases j <;> simp [List.take_length_add_append] at hj ⊢


/-! ### How far INIT is (R12, R26) -/

theorem State.initPast_congr {s t : State} (hs : t.seq = s.seq) (hd : t.initDone = s.initDone) (hp : t.par = s.par)
    (u : Uop) : t.initPast u = s.initPast u := by
  simp only [State.initPast, hs, hd, hp]

theorem State.initPast_of_done {s : State} (h : s.initDone = true) (u : Uop) : s.initPast u = true := by
  simp [State.initPast, h]

/-- Outside INIT a uop of it has taken effect exactly when INIT is done. -/
theorem State.initPast_of_not_init {s : State} (h : ∀ k, s.seq ≠ .run .init k) (u : Uop) : s.initPast u = s.initDone := by
  unfold State.initPast
  split
  · exact absurd ‹_› (h _)
  · exact Bool.or_false _

theorem State.initPast_of_init {s : State} {k : Nat} (h : s.seq = .run .init k) (u : Uop) :
    s.initPast u = (s.initDone || decide (u ∈ (initUops s.par).take (k - 1))) := by
  simp [State.initPast, h]

/-- `SEQ` after uop `k + 1` of `c` (R12). -/
theorem State.advance_seq (c : Cmd) (k : Nat) (s : State) :
    (s.advance c k).seq = if k + 1 = (uopsOf s c).length then .idle else .run c (k + 2) := by
  rw [State.advance_eq]

theorem State.advance_initDone (c : Cmd) (k : Nat) (s : State) :
    (s.advance c k).initDone = (s.initDone || (decide (c = .init) && decide (k + 1 = (uopsOf s c).length))) := by
  rw [State.advance_eq]

/-- After uop `k + 1` the sequencer is at no uop that is not the next of the same command. -/
theorem State.run_of_advance {c c' : Cmd} {k k' : Nat} {s : State} (h : (s.advance c k).seq = .run c' k') :
    c' = c ∧ k' = k + 2 ∧ k + 1 ≠ (uopsOf s c).length := by
  rw [State.advance_seq] at h
  split at h
  case isTrue => cases h
  case isFalse hk =>
    cases h
    exact ⟨rfl, rfl, hk⟩

/-- The next uop after uop `k + 1`, none at the end of the command (R12). -/
theorem State.nextUop_advance {c : Cmd} {k : Nat} {s : State} : (s.advance c k).nextUop = (uopsOf s c)[k + 1]? := by
  by_cases hk : k + 1 = (uopsOf s c).length
  · have hseq : (s.advance c k).seq = .idle := by rw [State.advance_seq, if_pos hk]
    rw [List.getElem?_eq_none (by omega)]
    simp [State.nextUop, hseq]
  · have hseq : (s.advance c k).seq = .run c (k + 2) := by rw [State.advance_seq, if_neg hk]
    rw [State.nextUop_of_run hseq, uopsOf_congr (State.advance_par _ _ _) (State.advance_opCfg _ _ _)]

/-- Past uop `v` of INIT after a uop: past it before, or `v` is the uop that has issued. -/
theorem State.initPast_advance {s : State} {c : Cmd} {k : Nat} {u v : Uop} (hs : s.seq = .run c (k + 1))
    (hu : (uopsOf s c)[k]? = some u) (hv : v ∈ initUops s.par) (h : ((issue u s).advance c k).initPast v = true) :
    s.initPast v = true ∨ u = v := by
  have hdone : ((issue u s).advance c k).initDone
      = (s.initDone || (decide (c = .init) && decide (k + 1 = (uopsOf s c).length))) := by
    rw [State.advance_initDone, issue_initDone, uopsOf_issue]
  by_cases hc : c = .init
  · subst hc
    have hu : (initUops s.par)[k]? = some u := hu
    have htake : v ∈ (initUops s.par).take (k + 1) → s.initPast v = true ∨ u = v := fun hm => by
      rw [List.take_add_one, hu] at hm
      rcases List.mem_append.1 hm with hm | hm
      · exact .inl (by simp [State.initPast_of_init hs, hm])
      · exact .inr (List.mem_singleton.1 hm).symm
    by_cases hk : k + 1 = (initUops s.par).length
    · exact htake (by rwa [List.take_of_length_le (by omega)])
    · have hseq : ((issue u s).advance .init k).seq = .run .init (k + 2) := by
        rw [State.advance_seq, uopsOf_issue]
        exact if_neg hk
      have hk' : decide (k + 1 = (uopsOf s .init).length) = false := decide_eq_false hk
      rw [State.initPast_of_init hseq, hdone, hk', State.advance_par, issue_par] at h
      simp only [Bool.and_false, Bool.or_false, Bool.or_eq_true, decide_eq_true_eq] at h
      rcases h with h | h
      · exact .inl (State.initPast_of_done h v)
      · exact htake h
  · have hni : ∀ k', ((issue u s).advance c k).seq ≠ .run .init k' := fun k' h' => hc (State.run_of_advance h').1.symm
    have hni' : ∀ k', s.seq ≠ .run .init k' := fun k' h' => hc (by rw [hs] at h'; cases h'; rfl)
    rw [State.initPast_of_not_init hni, hdone, decide_eq_false hc] at h
    exact .inl (by rw [State.initPast_of_not_init hni']; simpa using h)


/-! ### What a uop does to the elements of the handshake -/

theorem issue_txBusy {u : Uop} (h : u ≠ .txd) (s : State) : (issue u s).txBusy = s.txBusy := by
  cases u with
  | txd => exact absurd rfl h
  | _ => rfl

theorem issue_txState {u : Uop} (ha : u ≠ .armTx) (ht : u ≠ .txd) (s : State) : (issue u s).txState = s.txState := by
  cases u with
  | armTx => exact absurd rfl ha
  | txd => exact absurd rfl ht
  | _ => rfl

theorem issue_arm {u : Uop} (h : u ≠ .arm) (ht : u ≠ .armTx) (s : State) : (issue u s).arm = s.arm := by
  cases u with
  | arm => exact absurd rfl h
  | armTx => exact absurd rfl ht
  | _ => rfl

theorem issue_loadPending {u : Uop} (h : u ≠ .arm) (ht : u ≠ .armTx) (s : State) :
    (issue u s).loadPending = s.loadPending := by
  cases u with
  | arm => exact absurd rfl h
  | armTx => exact absurd rfl ht
  | _ => rfl

theorem issue_dmaSlot {u : Uop} (h : u ≠ .slot) (s : State) : (issue u s).dmaSlot = s.dmaSlot := by
  cases u with
  | slot => exact absurd rfl h
  | _ => rfl

/-- No uop starts a read of the LATCH; ARM takes back what is read (R21, R109). -/
theorem issue_latching {s : State} (h : s.latching = none) (u : Uop) : (issue u s).latching = none := by
  cases u with
  | arm => rfl
  | armTx => rfl
  | _ => exact h

/-- A uop that stores in `MEM` makes the stores that are left of it. -/
theorem issue_mem_of_memStores {u : Uop} {s : State} {a : Addr} {bs : List Byte} (h : memStores u s = some (a, bs)) :
    (issue u s).mem = s.mem.writeList (a + BitVec.ofNat 16 s.stored) (bs.drop s.stored) := by
  cases u with
  | descInit => cases h; rfl
  | descSrc => cases h; rfl
  | descLen => cases h; rfl
  | _ => cases h

/-- Every other uop leaves `MEM` alone. -/
theorem issue_mem_of_none {u : Uop} {s : State} (h : memStores u s = none) : (issue u s).mem = s.mem := by
  cases u with
  | descInit => cases h
  | descSrc => cases h
  | descLen => cases h
  | _ => rfl

theorem descLen_issue_of_none {u : Uop} {s : State} (h : memStores u s = none) : (issue u s).descLen = s.descLen := by
  rw [State.descLen, issue_par, issue_mem_of_none h]
  rfl

/-- What is left to store of a uop are bytes of the descriptor that the block's own fields allow. -/
theorem fixedAt_memStores_rest {u : Uop} {s : State} {a : Addr} {bs : List Byte} (h : memStores u s = some (a, bs)) {n : Nat}
    (hn : n ≤ bs.length) : ∃ o, a + BitVec.ofNat 16 n = s.par.descAddr + BitVec.ofNat 16 o
      ∧ o + (bs.drop n).length ≤ 8 ∧ ∀ i (hi : i < (bs.drop n).length), fixedAt s.par (o + i) (bs.drop n)[i] := by
  obtain ⟨o, rfl, hlen, hfix⟩ := fixedAt_memStores h
  refine ⟨o + n, by rw [BitVec.add_assoc, BitVec.ofNat_add_ofNat], by simp; omega, fun i hi => ?_⟩
  rw [List.getElem_drop, Nat.add_assoc]
  exact hfix _ _

/-- No uop harms the descriptor's fixed fields (R74, R131, R132). -/
theorem hasFixed_issue {u : Uop} {s : State} (hs : s.storedLegal = true) (hu : s.nextUop = some u)
    (h : s.mem.HasFixed s.par) : (issue u s).mem.HasFixed s.par := by
  cases hm : memStores u s with
  | none => rwa [issue_mem_of_none hm]
  | some p =>
    obtain ⟨a, bs⟩ := p
    have hle : s.stored ≤ bs.length := by
      rw [memStores_length hm]
      have := s.storedLegal_iff.1 hs
      simp only [hu, Option.some.injEq, exists_eq_left'] at this
      omega
    obtain ⟨o, ho, hlen, hfix⟩ := fixedAt_memStores_rest hm hle
    rw [issue_mem_of_memStores hm, ho]
    exact h.writeList hlen hfix

/-- With its first stores in place a uop ends with every byte of it in `MEM` (R44). -/
theorem read_issue_stored {u : Uop} {s : State} {a : Addr} {bs : List Byte} (h : memStores u s = some (a, bs))
    (hdone : ∀ j < s.stored, bs[j]? = some (s.mem.read (a + BitVec.ofNat 16 j))) {j : Nat} (hj : j < bs.length) :
    (issue u s).mem.read (a + BitVec.ofNat 16 j) = bs[j] := by
  have hle : s.stored ≤ bs.length := by
    by_contra hgt
    have := hdone bs.length (by omega)
    simp at this
  have hdrop : (bs.drop s.stored).length = bs.length - s.stored := List.length_drop
  rw [issue_mem_of_memStores h]
  obtain ⟨o, rfl, hlen, -⟩ := fixedAt_memStores h
  simp only [BitVec.add_assoc, BitVec.ofNat_add_ofNat] at hdone ⊢
  by_cases hlt : j < s.stored
  · rw [Memory.read_writeList_kept _ _ (by omega) (by omega) (.inl (by omega))]
    exact (Option.some.inj ((List.getElem?_eq_getElem hj).symm.trans (hdone j hlt))).symm
  · obtain ⟨i, rfl⟩ := Nat.exists_eq_add_of_le (Nat.le_of_not_lt hlt)
    rw [← Nat.add_assoc, Memory.read_writeList_stored _ _ (by omega) (by omega), List.getElem_drop]


/-- DESC_INIT leaves the block's own fields in the descriptor (R74, R107). -/
theorem hasFixed_descInit {s : State}
    (hdone : ∀ j < s.stored, (descInitBytes s.par)[j]? = some (s.mem.read (s.par.descAddr + BitVec.ofNat 16 j))) :
    (issue .descInit s).mem.HasFixed s.par := by
  intro j hj
  obtain ⟨o, ho, hlen, hfix⟩ := fixedAt_memStores (u := .descInit) (s := s) rfl
  have hj' : j < (descInitBytes s.par).length := hj
  have hlen8 : (descInitBytes s.par).length = 8 := rfl
  obtain rfl : o = 0 := by omega
  rw [read_issue_stored (u := .descInit) rfl hdone hj']
  simpa using hfix j hj'

/-- DESC_LEN leaves the command's length in the descriptor (R132). -/
theorem descLen_of_issue {s : State}
    (hdone : ∀ j < s.stored, (descLenBytes s)[j]? = some (s.mem.read (s.par.descAddr + 4 + BitVec.ofNat 16 j))) :
    (issue .descLen s).descLen = s.opLen := by
  have hread := fun j (hj : j < (descLenBytes s).length) => read_issue_stored (u := .descLen) rfl hdone hj
  have h4 : (issue .descLen s).mem.read (s.par.descAddr + 4) = descByte4 0 s.opLen := by
    have := hread 0 (by simp [descLenBytes])
    rwa [BitVec.add_zero] at this
  have h5 : (issue .descLen s).mem.read (s.par.descAddr + 5) = descByte5 s.opLen := by
    have := hread 1 (by simp [descLenBytes])
    rwa [BitVec.add_assoc] at this
  rw [State.descLen, issue_par, h4, h5]
  exact (descriptorFieldsRoundTrip.1 (blockCtl s.par) s.opLen).2

/-- SLOT leaves `DMA_SLOT` at the descriptor, in one store or with its first in place (R108). -/
theorem dmaSlot_of_issue {s : State} (h : s.stored ≠ 0 → hiByte s.dmaSlot = hiByte s.par.descAddr) :
    (issue .slot s).dmaSlot = s.par.descAddr := by
  show joinBytes (if s.stored = 0 then hiByte s.par.descAddr else hiByte s.dmaSlot) (loByte s.par.descAddr) = s.par.descAddr
  split
  case isTrue => exact joinBytes_hiByte_loByte _
  case isFalse h0 => rw [h h0, joinBytes_hiByte_loByte]

/-! ### Where a latch is pending (R110) -/

/-- With the port free no latch is pending. -/
theorem State.Handshake.not_pending_of_idle {s : State} (h : s.Handshake) (hi : s.seq = .idle) : s.loadPending = false := by
  cases hp : s.loadPending with
  | false => rfl
  | true =>
    have := h.pending hp
    simp [State.nextUop, hi] at this

/-- Where no latch is pending none is in progress. -/
theorem State.Handshake.latching_eq_none {s : State} (h : s.Handshake) (hp : s.loadPending = false) : s.latching = none := by
  cases hl : s.latching with
  | none => rfl
  | some r =>
    have := (h.reading r hl).1
    simp [hp] at this

/-- A uop that is enabled finds no latch pending (R110). -/
theorem State.Handshake.not_pending_of_enabled {s : State} {u : Uop} (h : s.Handshake) (hu : s.nextUop = some u)
    (he : s.uopEnabled u = true) : s.loadPending = false := by
  cases hp : s.loadPending with
  | false => rfl
  | true =>
    obtain rfl := Option.some.inj (hu.symm.trans (h.pending hp))
    simp [State.uopEnabled, hp] at he

theorem State.exists_of_nextUop {s : State} {u : Uop} (h : s.nextUop = some u) :
    ∃ c k, s.seq = .run c (k + 1) ∧ (uopsOf s c)[k]? = some u := by
  unfold State.nextUop at h
  split at h
  · cases h
  · cases h
  · exact ⟨_, _, ‹_›, h⟩

theorem State.Handshake.initDone_of_startTx {s : State} {k : Nat} (h : s.Handshake) (hs : s.seq = .run .startTx k) :
    s.initDone = true := by
  by_contra hd
  exact (h.noTxBeforeInit (by simpa using hd)).2 k hs

/-- A pending latch finds the table installed, the slot at the descriptor and the block's own fields in it (R74, R110). -/
theorem State.Handshake.of_pending {s : State} (h : s.Handshake) (hp : s.loadPending = true) :
    s.dmaTableValid = true ∧ s.dmaSlot = s.par.descAddr ∧ s.descFixed := by
  obtain ⟨c, k, hseq, hu⟩ := State.exists_of_nextUop (h.pending hp)
  rcases cmd_of_settle (List.mem_of_getElem? hu) with rfl | rfl
  · obtain ⟨hdesc, hslot⟩ := past_of_settle hu
    refine ⟨h.table (.inr ⟨_, hseq⟩), h.slot ?_, h.desc ?_⟩
    · simp [State.initPast_of_init hseq, hslot]
    · simp [State.initPast_of_init hseq, hdesc]
  · have hd := h.initDone_of_startTx hseq
    exact ⟨h.table (.inl hd), h.slot (State.initPast_of_done hd _), h.desc (State.initPast_of_done hd _)⟩


/-! ### A uop keeps the handshake (R159) -/

theorem at_of_armTx {s : State} {c : Cmd} {k : Nat} (hu : (uopsOf s c)[k]? = some .armTx) : c = .startTx ∧ k = 2 := by
  obtain rfl := cmd_of_startTxUop (List.mem_of_getElem? hu) (by simp)
  have := startTxUops_at hu
  simp_all

theorem at_of_txd {s : State} {c : Cmd} {k : Nat} (hu : (uopsOf s c)[k]? = some .txd) : c = .startTx ∧ k = 4 := by
  obtain rfl := cmd_of_startTxUop (List.mem_of_getElem? hu) (by simp)
  have := startTxUops_at hu
  simp_all

/-- INIT runs once, so nothing is being sent while it runs (R138, R239). -/
theorem State.Handshake.txState_of_init {s : State} {k : Nat} (h : s.Handshake) (hs : s.seq = .run .init k) :
    s.txState = .idle :=
  (h.noTxBeforeInit (h.initOnce k hs)).1

section
variable {s : State} {c : Cmd} {k : Nat} {u : Uop} (h : s.Handshake) (hs : s.seq = .run c (k + 1))
  (hu : (uopsOf s c)[k]? = some u) (he : s.uopEnabled u = true)

/-- INIT is done after a uop only if it was, or the uop is INIT's. -/
theorem State.initDone_of_advance (hd : ((issue u s).advance c k).initDone = true) : s.initDone = true ∨ c = .init := by
  rw [State.advance_initDone, issue_initDone] at hd
  simp only [Bool.or_eq_true, Bool.and_eq_true, decide_eq_true_eq] at hd
  exact hd.imp_right And.left

include h hs hu

theorem State.Handshake.stored_uop : ((issue u s).advance c k).stored = 0 := by
  have hn : s.nextUop = some u := (State.nextUop_of_run hs).trans hu
  rw [State.advance_stored]
  exact issue_stored (by simpa [hn] using s.storedLegal_iff.1 h.partway)

theorem State.Handshake.desc_uop (hp : ((issue u s).advance c k).initPast .descInit = true) :
    ((issue u s).advance c k).descFixed := by
  have hn : s.nextUop = some u := (State.nextUop_of_run hs).trans hu
  rw [State.descFixed_iff, State.advance_par, issue_par, State.advance_mem]
  rcases State.initPast_advance hs hu (mem_initUops s.par).2.1 hp with hp | rfl
  · exact hasFixed_issue h.partway hn ((State.descFixed_iff s).1 (h.desc hp))
  · exact hasFixed_descInit (h.memStored _ _ _ hn rfl)

theorem State.Handshake.slot_uop (hp : ((issue u s).advance c k).initPast .slot = true) :
    ((issue u s).advance c k).dmaSlot = ((issue u s).advance c k).par.descAddr := by
  have hn : s.nextUop = some u := (State.nextUop_of_run hs).trans hu
  rw [State.advance_dmaSlot, State.advance_par, issue_par]
  by_cases hus : u = .slot
  · subst hus
    exact dmaSlot_of_issue (h.slotStored hn)
  · rw [issue_dmaSlot hus]
    exact h.slot ((State.initPast_advance hs hu (mem_initUops s.par).2.2 hp).resolve_right hus)

theorem State.Handshake.modeEn_uop (hp : ((issue u s).advance c k).initPast .modeEn = true) :
    ((issue u s).advance c k).modeEn = true := by
  rw [State.modeEn, State.advance_ufmt]
  rcases State.initPast_advance hs hu (mem_initUops s.par).1 hp with hp | rfl
  · exact (issue_enablesKept u s).modeEn (h.modeEn hp)
  · show (maskedWrite s.ufmt 0x80 0x80).getLsbD 7 = true
    rw [getLsbD_maskedWrite]
    rfl

/-- Until INIT is done no uop begins a transmission. -/
theorem State.Handshake.noTx_uop (hd : ((issue u s).advance c k).initDone = false) :
    ((issue u s).advance c k).txState = .idle ∧ ∀ k', ((issue u s).advance c k).seq ≠ .run .startTx k' := by
  rw [State.advance_initDone, issue_initDone, Bool.or_eq_false_iff] at hd
  obtain ⟨hidle, hno⟩ := h.noTxBeforeInit hd.1
  have hc : c ≠ .startTx := fun hc => hno _ (hc ▸ hs)
  have ha : u ≠ .armTx := fun hu' => hc (at_of_armTx (hu' ▸ hu)).1
  have ht : u ≠ .txd := fun hu' => hc (at_of_txd (hu' ▸ hu)).1
  exact ⟨by rw [State.advance_txState, issue_txState ha ht, hidle], fun k' h' => hc (State.run_of_advance h').1.symm⟩

omit hs in
theorem State.Handshake.idle_uop (ht : ((issue u s).advance c k).txState = .idle) :
    ((issue u s).advance c k).txBusy = false := by
  rw [State.advance_txState] at ht
  rw [State.advance_txBusy]
  have htxd : u ≠ .txd := fun hu' => by subst hu'; cases ht
  have harm : u ≠ .armTx := fun hu' => by subst hu'; cases ht
  rw [issue_txState harm htxd] at ht
  rw [issue_txBusy htxd]
  exact h.idle ht

theorem State.Handshake.armed_uop (ht : ((issue u s).advance c k).txState = .armed) :
    ((issue u s).advance c k).txBusy = false
      ∧ (((issue u s).advance c k).seq = .run .startTx 4 ∨ ((issue u s).advance c k).seq = .run .startTx 5) := by
  rw [State.advance_txState] at ht
  rw [State.advance_txBusy, State.advance_seq, uopsOf_issue]
  have htxd : u ≠ .txd := fun hu' => by subst hu'; cases ht
  rw [issue_txBusy htxd]
  by_cases harm : u = .armTx
  · subst harm
    obtain ⟨rfl, rfl⟩ := at_of_armTx hu
    exact ⟨h.idle (h.txPosition 3 hs), .inl rfl⟩
  · rw [issue_txState harm htxd] at ht
    obtain ⟨hbusy, hpos | hpos⟩ := h.armed ht <;> rw [hs] at hpos <;> cases hpos
    · exact ⟨hbusy, .inr rfl⟩
    · exact absurd (Option.some.inj hu).symm htxd

theorem State.Handshake.txPosition_uop {k' : Nat} (hk : ((issue u s).advance c k).seq = .run .startTx k') :
    ((issue u s).advance c k).txState = if k' ≤ 3 then .idle else .armed := by
  obtain ⟨rfl, rfl, hend⟩ := State.run_of_advance hk
  have htx := h.txPosition _ hs
  rw [State.advance_txState]
  rcases startTxUops_at hu with ⟨rfl, rfl⟩ | ⟨rfl, rfl⟩ | ⟨rfl, rfl⟩ | ⟨rfl, rfl⟩ | ⟨rfl, rfl⟩
  · exact htx
  · exact htx
  · rfl
  · exact htx
  · exact absurd rfl hend

theorem State.Handshake.txLen_uop {k' : Nat} (hk : ((issue u s).advance c k).seq = .run .startTx k') :
    ((issue u s).advance c k).opLen ≠ 0
      ∧ (3 ≤ k' → ((issue u s).advance c k).descLen = ((issue u s).advance c k).opLen) := by
  obtain ⟨rfl, rfl, hend⟩ := State.run_of_advance hk
  have hn : s.nextUop = some u := (State.nextUop_of_run hs).trans hu
  obtain ⟨hlen, hdesc⟩ := h.txLen _ hs
  have hadv : ((issue u s).advance .startTx k).descLen = (issue u s).descLen := by
    rw [State.descLen, State.advance_par, State.advance_mem]
    rfl
  rw [hadv, State.advance_opLen, issue_opLen]
  refine ⟨hlen, fun hk3 => ?_⟩
  rcases startTxUops_at hu with ⟨rfl, rfl⟩ | ⟨rfl, rfl⟩ | ⟨rfl, rfl⟩ | ⟨rfl, rfl⟩ | ⟨rfl, rfl⟩
  · omega
  · exact descLen_of_issue (h.memStored _ _ _ hn rfl)
  · exact (descLen_issue_of_none rfl).trans (hdesc (by omega))
  · exact (descLen_issue_of_none rfl).trans (hdesc (by omega))
  · exact absurd rfl hend

theorem State.Handshake.txLatched_uop {k' : Nat} (hk : ((issue u s).advance c k).seq = .run .startTx k') (hk4 : 4 ≤ k') :
    ((issue u s).advance c k).arm = true
      ∧ (((issue u s).advance c k).loadPending = true
        ∨ ((issue u s).advance c k).wCnt = ((issue u s).advance c k).opLen) := by
  obtain ⟨rfl, rfl, hend⟩ := State.run_of_advance hk
  rw [State.advance_arm, State.advance_loadPending, State.advance_wCnt, State.advance_opLen, issue_wCnt, issue_opLen]
  rcases startTxUops_at hu with ⟨rfl, rfl⟩ | ⟨rfl, rfl⟩ | ⟨rfl, rfl⟩ | ⟨rfl, rfl⟩ | ⟨rfl, rfl⟩
  · omega
  · omega
  · exact ⟨rfl, .inl rfl⟩
  · exact h.txLatched _ hs le_rfl
  · exact absurd rfl hend

include he

theorem State.Handshake.not_pending_at : s.loadPending = false :=
  h.not_pending_of_enabled ((State.nextUop_of_run hs).trans hu) he

theorem State.Handshake.pending_uop (hp : ((issue u s).advance c k).loadPending = true) :
    ((issue u s).advance c k).nextUop = some .settle := by
  rw [State.nextUop_advance, uopsOf_issue]
  rw [State.advance_loadPending] at hp
  by_cases ha : u = .arm ∨ u = .armTx
  · exact settle_follows hu ha
  · rw [not_or] at ha
    rw [issue_loadPending ha.1 ha.2, h.not_pending_at hs hu he] at hp
    cases hp

theorem State.Handshake.latching_uop : ((issue u s).advance c k).latching = none := by
  rw [State.advance_latching]
  exact issue_latching (h.latching_eq_none (h.not_pending_at hs hu he)) u

theorem State.Handshake.transmitting_uop (ht : ((issue u s).advance c k).txState = .transmitting) :
    ((issue u s).advance c k).txBusy = true ∧ ((issue u s).advance c k).loadPending = false
      ∧ (((issue u s).advance c k).arm = true ↔ ((issue u s).advance c k).wCnt ≠ 0) := by
  have hp := h.not_pending_at hs hu he
  rw [State.advance_txState] at ht
  rw [State.advance_txBusy, State.advance_loadPending, State.advance_arm, State.advance_wCnt, issue_wCnt]
  have harm : u ≠ .armTx := fun hu' => by subst hu'; cases ht
  by_cases htxd : u = .txd
  · subst htxd
    obtain ⟨rfl, rfl⟩ := at_of_txd hu
    obtain ⟨ha, hc⟩ := h.txLatched 5 hs (by omega)
    have hcnt : s.wCnt = s.opLen := hc.resolve_left (by simp [hp])
    exact ⟨rfl, hp, fun _ => hcnt ▸ (h.txLen 5 hs).1, fun _ => ha⟩
  · rw [issue_txState harm htxd] at ht
    obtain ⟨hbusy, -, hiff⟩ := h.transmitting ht
    have hinit : u ≠ .arm := fun hu' => by
      obtain rfl := cmd_of_initUop (List.mem_of_getElem? hu) (by simp [hu'])
      simp [h.txState_of_init hs] at ht
    rw [issue_txBusy htxd, issue_loadPending hinit harm, issue_arm hinit harm]
    exact ⟨hbusy, hp, hiff⟩

/-- A uop that is enabled keeps the handshake. -/
theorem State.Handshake.uop : ((issue u s).advance c k).Handshake where
  initOnce k' h' := by
    obtain ⟨rfl, -, hk⟩ := State.run_of_advance h'
    rw [State.advance_initDone, issue_initDone, decide_eq_false hk]
    simpa using h.initOnce _ hs
  table h' := by
    rw [State.advance_dmaTableValid, issue_dmaTableValid]
    rcases h' with h' | ⟨k', h'⟩
    · rcases State.initDone_of_advance h' with hd | rfl
      · exact h.table (.inl hd)
      · exact h.table (.inr ⟨_, hs⟩)
    · obtain ⟨rfl, -⟩ := State.run_of_advance h'
      exact h.table (.inr ⟨_, hs⟩)
  modeEn := h.modeEn_uop hs hu
  desc := h.desc_uop hs hu
  slot := h.slot_uop hs hu
  partway := State.storedLegal_of_start (h.stored_uop hs hu)
  memStored _ _ _ _ _ j hj := absurd hj (by rw [h.stored_uop hs hu]; exact Nat.not_lt_zero j)
  slotStored _ h0 := absurd (h.stored_uop hs hu) h0
  noTxBeforeInit := h.noTx_uop hs hu
  pending := h.pending_uop hs hu he
  reading r hr := by
    rw [h.latching_uop hs hu he] at hr
    cases hr
  idle := h.idle_uop hu
  armed := h.armed_uop hs hu
  transmitting := h.transmitting_uop hs hu he
  txPosition _ := h.txPosition_uop hs hu
  txLen _ := h.txLen_uop hs hu
  txLatched _ := h.txLatched_uop hs hu

end


/-! ### LATCH keeps the handshake (R150) -/

/-- Each byte of a pending LATCH, read already or not, is the descriptor's as it still is (R44, R150). -/
theorem State.Handshake.latchByte_eq {s : State} (h : s.Handshake) (hp : s.loadPending = true) (k : Nat) :
    s.latchByte k = s.mem.read (s.par.descAddr + BitVec.ofNat 16 k) := by
  obtain ⟨htab, hslot, -⟩ := h.of_pending hp
  rw [← hslot]
  cases hl : s.latching with
  | none => exact State.latchByte_of_fresh hl htab k
  | some r =>
    obtain ⟨-, hplace, -, hbytes⟩ := h.reading r hl
    by_cases hk : k < r.bytes.length
    · rw [State.latchByte_of_read hl hk]
      exact Option.some.inj ((List.getElem?_eq_getElem hk).symm.trans (hbytes k hk))
    · exact State.latchByte_of_unread hl hplace (Nat.le_of_not_lt hk)

/-- What a pending LATCH has begun to read, or is about to, are the descriptor's bytes at `DMA_SLOT`. -/
theorem State.Handshake.latchRead_place {s : State} (h : s.Handshake) (hp : s.loadPending = true) :
    s.latchRead.place = some s.dmaSlot := by
  cases hl : s.latching with
  | none => simp [State.latchRead_of_fresh hl, (h.of_pending hp).1]
  | some r => rw [State.latchRead_of_reading hl, (h.reading r hl).2.1]

theorem State.Handshake.readDescByte {s : State} (h : s.Handshake) (hp : s.loadPending = true) (hc : s.latchCount < 7) :
    s.readDescByte.Handshake :=
  { h with
    reading := fun r hr => by
      rw [State.readDescByte_latching] at hr
      cases hr
      have hlen : s.latchRead.bytes.length < 7 := hc
      refine ⟨hp, h.latchRead_place hp, by simp; omega, fun j hj => ?_⟩
      rw [List.getElem?_eq_getElem hj, ← State.latchByte_of_read (s := s.readDescByte) rfl hj,
        State.readDescByte_latchByte, h.latchByte_eq hp, ← (h.of_pending hp).2.1]
      rfl }

/-- LATCH loads what START_TX's uops have stored (R134). -/
theorem State.Handshake.latch {s : State} (h : s.Handshake) (hp : s.loadPending = true) : s.latch.Handshake :=
  { h with
    pending := fun h' => by cases h'
    reading := fun _ hr => by cases hr
    transmitting := fun ht => by
      have := (h.transmitting ht).2.1
      simp [hp] at this
    txLatched := fun k hk hk4 => by
      refine ⟨(h.txLatched k hk hk4).1, .inr ?_⟩
      rw [State.latch_wCnt, h.latchByte_eq hp, h.latchByte_eq hp]
      exact (h.txLen k hk).2 (by omega) }

theorem State.Handshake.latchStep {s : State} (h : s.Handshake) (hp : s.loadPending = true) : s.latchStep.Handshake := by
  unfold State.latchStep
  split
  · exact h.readDescByte hp ‹_›
  · exact h.latch hp

/-! ### FRAME_END keeps the handshake (R156, R159) -/

/-- A frame on the wire is one of a transmission (R138). -/
theorem State.Handshake.transmitting_of_busy {s : State} (h : s.Handshake) (hb : s.txBusy = true) :
    s.txState = .transmitting := by
  cases ht : s.txState with
  | transmitting => rfl
  | idle => simp [h.idle ht] at hb
  | armed => simp [(h.armed ht).1] at hb

/-- In a transmission START_TX is over (R138). -/
theorem State.Handshake.seq_of_transmitting {s : State} (h : s.Handshake) (ht : s.txState = .transmitting) (k : Nat) :
    s.seq ≠ .run .startTx k := fun hs => by
  have := h.txPosition k hs
  rw [ht] at this
  split at this <;> cases this

theorem State.Handshake.initDone_of_transmitting {s : State} (h : s.Handshake) (ht : s.txState = .transmitting) :
    s.initDone = true := by
  by_contra hd
  have := (h.noTxBeforeInit (by simpa using hd)).1
  rw [ht] at this
  cases this

/-- The channel answers the end of a frame with the next byte or ends the transmission: it is never untimely (R154). -/
theorem State.Handshake.frameEnd_eq {s : State} (h : s.Handshake) (hb : s.txBusy = true) :
    (s.wCnt = 0 ∧ s.arm = false ∧ s.frameEnd = s.completeFrame.retire)
      ∨ (s.wCnt ≠ 0 ∧ s.arm = true ∧ s.frameEnd = s.completeFrame.transfer) := by
  obtain ⟨-, hp, hiff⟩ := h.transmitting (h.transmitting_of_busy hb)
  by_cases hc : s.wCnt = 0
  · have ha : s.arm = false := by
      rw [← Bool.not_eq_true, hiff]
      exact not_not.2 hc
    exact .inl ⟨hc, ha, State.frameEnd_of_disarmed ha⟩
  · have ha := hiff.2 hc
    exact .inr ⟨hc, ha, State.frameEnd_of_armed ha hp hc⟩

theorem State.Handshake.frameEnd {s : State} (h : s.Handshake) (hb : s.txBusy = true) : s.frameEnd.Handshake := by
  have ht := h.transmitting_of_busy hb
  have hno := h.seq_of_transmitting ht
  obtain ⟨-, hp, -⟩ := h.transmitting ht
  rcases h.frameEnd_eq hb with ⟨-, -, he⟩ | ⟨hc, ha, he⟩
  · have htx : s.completeFrame.retire.txState = .idle := by simp [ht]
    rw [he]
    exact { h with
      noTxBeforeInit := fun _ => ⟨htx, hno⟩
      idle := fun _ => rfl
      armed := fun h' => by rw [htx] at h'; cases h'
      transmitting := fun h' => by rw [htx] at h'; cases h'
      txPosition := fun k hk => absurd hk (hno k) }
  · rw [he]
    exact { h with
      idle := fun h' => by rw [State.transfer_txState] at h'; exact absurd (h'.symm.trans ht) (by simp)
      armed := fun h' => by rw [State.transfer_txState] at h'; exact absurd (h'.symm.trans ht) (by simp)
      transmitting := fun _ => ⟨rfl, hp, by
        rw [State.transfer_arm, State.transfer_wCnt, State.completeFrame_arm, ha]
        generalize s.completeFrame.wCnt - 1 = n
        by_cases hn : n = 0 <;> simp [hn]⟩
      txLatched := fun k hk => absurd hk (hno k) }


/-! ### The environment's moves keep the handshake -/

/-- `t` is `s` in every element the handshake speaks of, but that the table may have been installed; in `MEM` in the
descriptor. -/
structure State.SameHandshake (s t : State) : Prop where
  seq : t.seq = s.seq
  stored : t.stored = s.stored
  opCfg : t.opCfg = s.opCfg
  opBuf : t.opBuf = s.opBuf
  opLen : t.opLen = s.opLen
  ufmt : t.ufmt = s.ufmt
  table : s.dmaTableValid = true → t.dmaTableValid = true
  dmaSlot : t.dmaSlot = s.dmaSlot
  arm : t.arm = s.arm
  loadPending : t.loadPending = s.loadPending
  latching : t.latching = s.latching
  wCnt : t.wCnt = s.wCnt
  txBusy : t.txBusy = s.txBusy
  txState : t.txState = s.txState
  initDone : t.initDone = s.initDone
  par : t.par = s.par
  desc : ∀ j < 8, t.mem.read (s.par.descAddr + BitVec.ofNat 16 j) = s.mem.read (s.par.descAddr + BitVec.ofNat 16 j)

theorem State.SameHandshake.nextUop {s t : State} (v : s.SameHandshake t) : t.nextUop = s.nextUop :=
  State.nextUop_congr v.seq v.opCfg v.par

theorem State.SameHandshake.hasFixed {s t : State} (v : s.SameHandshake t) (h : s.descFixed) : t.descFixed := by
  rw [State.descFixed_iff, v.par]
  intro j hj
  rw [v.desc j hj]
  exact (State.descFixed_iff s).1 h j hj

theorem State.SameHandshake.descLen {s t : State} (v : s.SameHandshake t) : t.descLen = s.descLen := by
  rw [State.descLen, v.par]
  exact congrArg₂ lenOfBytes (v.desc 4 (by omega)) (v.desc 5 (by omega))

theorem memStores_congr {s t : State} (hp : t.par = s.par) (hb : t.opBuf = s.opBuf) (hl : t.opLen = s.opLen) (u : Uop) :
    memStores u t = memStores u s := by
  cases u <;> simp [memStores, descInitBytes, descSrcBytes, descLenBytes, hp, hb, hl]

theorem State.Handshake.congr {s t : State} (h : s.Handshake) (v : s.SameHandshake t) : t.Handshake where
  initOnce k hk := by rw [v.initDone]; exact h.initOnce k (v.seq ▸ hk)
  table ht := by rw [v.initDone, v.seq] at ht; exact v.table (h.table ht)
  modeEn hm := by
    rw [State.initPast_congr v.seq v.initDone v.par] at hm
    rw [State.modeEn, v.ufmt]
    exact h.modeEn hm
  desc hd := by
    rw [State.initPast_congr v.seq v.initDone v.par] at hd
    exact v.hasFixed (h.desc hd)
  slot hs := by
    rw [State.initPast_congr v.seq v.initDone v.par] at hs
    rw [v.dmaSlot, v.par]
    exact h.slot hs
  partway := by
    have hp : s.SamePosition t := ⟨v.seq, v.stored, v.opCfg, v.par⟩
    rw [hp.storedLegal]
    exact h.partway
  memStored u a bs hu hm j hj := by
    rw [v.nextUop] at hu
    rw [memStores_congr v.par v.opBuf v.opLen] at hm
    rw [v.stored] at hj
    have hb := h.memStored u a bs hu hm j hj
    obtain ⟨o, rfl, hlen, -⟩ := fixedAt_memStores hm
    have hj' := (List.getElem?_eq_some_iff.1 hb).1
    rw [hb, BitVec.add_assoc, BitVec.ofNat_add_ofNat, v.desc _ (by omega)]
  slotStored hu h0 := by
    rw [v.dmaSlot, v.par]
    exact h.slotStored (v.nextUop ▸ hu) (v.stored ▸ h0)
  noTxBeforeInit hd := by
    rw [v.txState, v.seq]
    exact h.noTxBeforeInit (v.initDone ▸ hd)
  pending hp := by
    rw [v.nextUop]
    exact h.pending (v.loadPending ▸ hp)
  reading r hr := by
    rw [v.latching] at hr
    obtain ⟨hp, hplace, hlen, hbytes⟩ := h.reading r hr
    have hslot := (h.of_pending hp).2.1
    rw [v.loadPending, v.dmaSlot]
    refine ⟨hp, hplace, hlen, fun j hj => ?_⟩
    rw [hbytes j hj, hslot, v.desc j (by omega)]
  idle ht := by
    rw [v.txBusy]
    exact h.idle (v.txState ▸ ht)
  armed ht := by
    rw [v.txBusy, v.seq]
    exact h.armed (v.txState ▸ ht)
  transmitting ht := by
    rw [v.txBusy, v.loadPending, v.arm, v.wCnt]
    exact h.transmitting (v.txState ▸ ht)
  txPosition k hk := by
    rw [v.txState]
    exact h.txPosition k (v.seq ▸ hk)
  txLen k hk := by
    rw [v.opLen, v.descLen]
    exact h.txLen k (v.seq ▸ hk)
  txLatched k hk := by
    rw [v.arm, v.loadPending, v.wCnt, v.opLen]
    exact h.txLatched k (v.seq ▸ hk)

/-- A write that is no breach stores outside the descriptor (R168, U12). -/
theorem State.callerWrite_of_clean {s : State} {a : Addr} {b : Byte} (hc : (s.callerWrite a b).clean) :
    a ≠ udbufAddr s.par ∧ isDescByte s.par a = false ∧ s.bufferInFlight a = false
      ∧ s.callerWrite a b = { s with mem := s.mem.write a b } := by
  unfold State.callerWrite State.clean at *
  by_cases ha : a = udbufAddr s.par
  · rw [if_pos ha] at hc
    have : Undef.u12 ∈ ((s.recordIf true .u12).frameStart b).undef := undef_subset_frameStart b _ (by simp)
    rw [hc] at this
    cases this
  · rw [if_neg ha] at hc
    simp only [State.recordIf, addUndef_eq_nil] at hc
    obtain ⟨hf, hd, hu⟩ := hc
    rw [if_neg ha]
    exact ⟨ha, hd, hf, by simp only [State.recordIf, hd, hf, addUndef_false]⟩

/-- An address outside the descriptor is none of its eight bytes (R42, R46). -/
theorem desc_ne_of_not_isDescByte {p : Params} {a : Addr} (hp : p.wf = true) (ha : isDescByte p a = false) {j : Nat}
    (hj : j < 8) : p.descAddr + BitVec.ofNat 16 j ≠ a := by
  obtain ⟨-, htop⟩ := (params_wf_iff p).1 hp
  rintro rfl
  simp only [isDescByte, inRange, Bool.and_eq_false_iff, decide_eq_false_iff_not, BitVec.toNat_add, BitVec.toNat_ofNat] at ha
  omega

/-- The moves of the environment and of external owners, and those of non-owners that record nothing. -/
theorem State.agentMove_sameHandshake {m : Move} {s s' : State} (hp : s.par.wf = true)
    (hm : State.agentMove m s = .next s') (hc : s'.clean) (hu : m ≠ .uop) (hst : m ≠ .store) (hl : m ≠ .latch)
    (hlb : m ≠ .latchByte) (hf : m ≠ .frameEnd) (hr : ∀ l, m ≠ .reset l) : s.SameHandshake s' := by
  have hrefl : s.SameHandshake s :=
    ⟨rfl, rfl, rfl, rfl, rfl, rfl, id, rfl, rfl, rfl, rfl, rfl, rfl, rfl, rfl, rfl, fun _ _ => rfl⟩
  cases m with
  | command _ => cases hm
  | present _ => cases hm
  | uop => exact absurd rfl hu
  | store => exact absurd rfl hst
  | latch => exact absurd rfl hl
  | latchByte => exact absurd rfl hlb
  | frameEnd => exact absurd rfl hf
  | reset l => exact absurd rfl (hr l)
  | rxByte _ => obtain ⟨-, rfl⟩ := whenEnabled_next.1 hm; exact { hrefl with }
  | rxHandler => obtain ⟨-, rfl⟩ := whenEnabled_next.1 hm; exact { hrefl with }
  | tableInstall => cases hm; exact { hrefl with table := fun _ => rfl }
  | powerOn => cases hm; exact { hrefl with }
  | storage _ => cases hm; exact { hrefl with }
  | shared w => cases hm; cases w <;> exact { hrefl with }
  | foreign w =>
    cases hm
    have := u12_mem_foreignWrite w s
    rw [hc] at this
    cases this
  | callerWrite a b =>
    cases hm
    obtain ⟨-, hd, -, he⟩ := State.callerWrite_of_clean hc
    rw [he]
    exact { hrefl with desc := fun j hj => Memory.read_write_other _ b (desc_ne_of_not_isDescByte hp hd hj) }


/-! ### A byte store keeps the handshake (R44) -/

/-- A descriptor byte of a uop of which more than one store is left. -/
theorem State.Handshake.storeNext_mem {s : State} {u : Uop} {a : Addr} {bs : List Byte} (h : s.Handshake)
    (hu : s.nextUop = some u) (hm : memStores u s = some (a, bs)) (hc : s.stored + 1 < bs.length)
    (hl : s.latching = none) : (Sys2Proof.Machine.storeNext u s).Handshake := by
  have hlt : s.stored < bs.length := by omega
  rw [storeNext_of_memStores hm (List.getElem?_eq_getElem hlt)]
  obtain ⟨o, rfl, hlen, hfix⟩ := fixedAt_memStores hm
  exact { h with
    desc := fun hd => by
      have hone := ((State.descFixed_iff s).1 (h.desc hd)).writeList (o := o + s.stored) (bs := [bs[s.stored]])
        (by simp; omega) fun i hi => by
          obtain rfl : i = 0 := by simpa using hi
          exact hfix _ hlt
      rw [State.descFixed_iff, BitVec.add_assoc, BitVec.ofNat_add_ofNat]
      exact hone
    partway := (State.storedLegal_iff _).2 (.inr ⟨u, hu, by rw [← memStores_length hm]; exact hc⟩)
    memStored := fun v b cs hv hm' j hj => by
      obtain rfl := Option.some.inj (hu.symm.trans hv)
      obtain ⟨rfl, rfl⟩ := Prod.mk.inj (Option.some.inj (hm.symm.trans hm'))
      have hj : j < s.stored + 1 := hj
      by_cases hlast : j = s.stored
      · subst hlast
        rw [Memory.read_write_same, List.getElem?_eq_getElem hlt]
      · rw [h.memStored u _ _ hu hm j (by omega), Memory.read_write_other]
        simp only [BitVec.add_assoc, BitVec.ofNat_add_ofNat]
        intro he
        have := descAddr_add_inj (by omega) (by omega) he
        omega
    slotStored := fun hs => by
      obtain rfl := Option.some.inj (hu.symm.trans hs)
      cases hm
    reading := fun r hr => by rw [hl] at hr; cases hr
    txLen := fun k hk => by
      refine ⟨(h.txLen k hk).1, fun hk3 => ?_⟩
      obtain ⟨k, rfl⟩ : ∃ i, k = i + 1 := ⟨k - 1, by omega⟩
      have hat := (State.nextUop_of_run hk).symm.trans hu
      rcases startTxUops_at hat with ⟨rfl, rfl⟩ | ⟨rfl, rfl⟩ | ⟨rfl, rfl⟩ | ⟨rfl, rfl⟩ | ⟨rfl, rfl⟩
      · omega
      · omega
      · cases hm
      · cases hm
      · cases hm }

/-- The first store of SLOT. -/
theorem State.Handshake.storeNext_slot {s : State} (h : s.Handshake) (hu : s.nextUop = some .slot) (hc : s.stored + 1 < 2)
    (hl : s.latching = none) : (Sys2Proof.Machine.storeNext .slot s).Handshake :=
  { h with
    slot := fun hs => by
      show joinBytes (hiByte s.par.descAddr) (loByte s.dmaSlot) = s.par.descAddr
      rw [h.slot hs, joinBytes_hiByte_loByte]
    partway := (State.storedLegal_iff _).2 (.inr ⟨.slot, hu, hc⟩)
    memStored := fun v b cs hv hm => by
      obtain rfl := Option.some.inj (hu.symm.trans hv)
      cases hm
    slotStored := fun _ _ => hiByte_joinBytes _ _
    reading := fun r hr => by
      have hr : s.latching = some r := hr
      rw [hl] at hr
      cases hr }

theorem State.Handshake.storeNext {s : State} {u : Uop} (h : s.Handshake) (hu : s.nextUop = some u)
    (hc : s.stored + 1 < storeCount u) : (Sys2Proof.Machine.storeNext u s).Handshake := by
  have he : s.uopEnabled u = true := State.uopEnabled_of_not_waiting fun hw => by
    rw [hw.1] at hc
    exact absurd hc (by simp [storeCount])
  have hl := h.latching_eq_none (h.not_pending_of_enabled hu he)
  cases hm : memStores u s with
  | some p => exact h.storeNext_mem hu hm (memStores_length hm ▸ hc) hl
  | none =>
    obtain rfl := eq_slot_of_memStores_none hm (by omega)
    exact h.storeNext_slot hu hc hl

/-! ### Acceptance keeps the handshake (R65) -/

/-- The state after acceptance of `c`: the operand latches are loaded, nothing of the first uop is done. -/
theorem State.Handshake.accepted {s : State} {c : Cmd} (h : s.Handshake) (hi : s.seq = .idle) (cfg : Byte) (buf : Addr)
    {len : Count} (reg : BitVec 4) (us : List Undef) (hinit : c = .init → s.initDone = false ∧ s.dmaTableValid = true)
    (htx : c = .startTx → s.initDone = true ∧ s.txState = .idle ∧ len ≠ 0) :
    State.Handshake { s with
      opCfg := cfg, opBuf := buf, opLen := len, opReg := reg, seq := .run c 1, stored := 0, undef := us } := by
  have hp := h.not_pending_of_idle hi
  have hl := h.latching_eq_none hp
  have hpast : ∀ v, State.initPast { s with
      opCfg := cfg, opBuf := buf, opLen := len, opReg := reg, seq := .run c 1, stored := 0, undef := us } v
      = s.initPast v := fun v => by
    rw [State.initPast_of_not_init (s := s) (by simp [hi])]
    cases c <;> simp [State.initPast]
  exact { h with
    initOnce := fun k hk => by
      cases hk
      exact (hinit rfl).1
    table := fun ht => by
      rcases ht with ht | ⟨k, hk⟩
      · exact h.table (.inl ht)
      · cases hk
        exact (hinit rfl).2
    modeEn := fun hv => h.modeEn (hpast _ ▸ hv)
    desc := fun hv => h.desc (hpast _ ▸ hv)
    slot := fun hv => h.slot (hpast _ ▸ hv)
    partway := State.storedLegal_of_start rfl
    memStored := fun _ _ _ _ _ j hj => absurd hj (Nat.not_lt_zero j)
    slotStored := fun _ h0 => absurd rfl h0
    noTxBeforeInit := fun hd => by
      refine ⟨(h.noTxBeforeInit hd).1, fun k hk => ?_⟩
      cases hk
      rw [(htx rfl).1] at hd
      cases hd
    pending := fun h' => by rw [hp] at h'; cases h'
    reading := fun r hr => by rw [hl] at hr; cases hr
    armed := fun ha => by rcases (h.armed ha).2 with hs | hs <;> rw [hi] at hs <;> cases hs
    txPosition := fun k hk => by cases hk; exact (htx rfl).2.1
    txLen := fun k hk => by cases hk; exact ⟨(htx rfl).2.2, by omega⟩
    txLatched := fun k hk hk4 => by cases hk; omega }

/-- What acceptance of INIT that records nothing finds (R100). -/
theorem State.acceptInit_of_clean {s : State} (hc : s.acceptInit.clean) : s.initDone = false ∧ s.dmaTableValid = true := by
  have hu : s.acceptInit.undef = [] := hc
  rw [State.acceptInit_undef] at hu
  simp only [addUndef_eq_nil, Bool.not_eq_false'] at hu
  exact ⟨hu.2.2.1, hu.2.1⟩

/-- What acceptance of START_TX that records nothing finds (R137). -/
theorem State.acceptStartTx_of_clean {s : State} {buf : Addr} {len : Count} (hc : (s.acceptStartTx buf len).clean) :
    s.initDone = true ∧ s.powered = true ∧ s.txState = .idle ∧ len ≠ 0 ∧ bufferValid s.par s.storage buf len = true := by
  have hu : (s.acceptStartTx buf len).undef = [] := hc
  simp only [State.acceptStartTx, State.accept, State.recordIf, addUndef_eq_nil, Bool.not_eq_false', decide_eq_false_iff_not,
    not_not] at hu
  obtain ⟨hw, hb, hl, ht, hd, -⟩ := hu
  exact ⟨hd, hw, ht, hl, hb⟩

theorem State.Handshake.acceptInit {s : State} (h : s.Handshake) (hi : s.seq = .idle) (hc : s.acceptInit.clean) :
    s.acceptInit.Handshake := by
  have hpre := State.acceptInit_of_clean hc
  obtain ⟨us, he, -⟩ := s.acceptInit_eq
  rw [he]
  exact h.accepted (c := .init) hi s.opCfg s.opBuf s.opReg us (fun _ => hpre) (by simp)

theorem State.Handshake.acceptStartTx {s : State} {buf : Addr} {len : Count} (h : s.Handshake) (hi : s.seq = .idle)
    (hc : (s.acceptStartTx buf len).clean) : (s.acceptStartTx buf len).Handshake := by
  obtain ⟨hd, -, ht, hl, -⟩ := State.acceptStartTx_of_clean hc
  obtain ⟨us, he, -⟩ := s.acceptStartTx_eq buf len
  rw [he]
  exact h.accepted (c := .startTx) hi s.opCfg buf s.opReg us (by simp) fun _ => ⟨hd, ht, hl⟩

theorem State.Handshake.acceptSetMode {s : State} (h : s.Handshake) (hi : s.seq = .idle) (cfg : Byte) :
    (s.acceptSetMode cfg).Handshake := by
  obtain ⟨us, he, -⟩ := s.acceptSetMode_eq cfg
  rw [he]
  exact h.accepted (c := .setMode) hi cfg s.opBuf s.opReg us (by simp) (by simp)

theorem State.Handshake.acceptRdReg {s : State} (h : s.Handshake) (hi : s.seq = .idle) (reg : BitVec 4) :
    (s.acceptRdReg reg).Handshake := by
  obtain ⟨us, he, -⟩ := s.acceptRdReg_eq reg
  rw [he]
  exact h.accepted (c := .rdReg) hi s.opCfg s.opBuf reg us (by simp) (by simp)

/-! ### A command run whole keeps the handshake (R12, R48) -/

/-- A uop with the LATCH it waits for. -/
theorem State.Handshake.issueSettled {s : State} {c : Cmd} {k : Nat} {u : Uop} (h : (s.atUop c k).Handshake)
    (hu : (uopsOf s c)[k]? = some u) : (((s.issueSettled u).atUop c k).advance c k).Handshake := by
  unfold State.issueSettled
  rw [← issue_atUop]
  cases he : s.uopEnabled u with
  | true => exact h.uop rfl hu he
  | false =>
    have hw := (State.uopEnabled_eq_false_iff s u).1 he
    have hl : (s.latch.atUop c k).Handshake := h.latch hw.2
    exact hl.uop rfl ((uopsOf_latch s c).symm ▸ hu) (State.uopEnabled_of_not_waiting (by simp [State.atUop]))

/-- The uops from `k + 1` on, each with the LATCH it waits for: by induction on how many are left. -/
theorem State.Handshake.runUops {c : Cmd} {us : List Uop} {s : State} {k : Nat} (h : (s.atUop c k).Handshake)
    (hk : (uopsOf s c).drop k = us) (hne : us ≠ []) : ((s.runUops us).finish c).Handshake := by
  induction us generalizing s k with
  | nil => exact absurd rfl hne
  | cons u us ih =>
    have hu : (uopsOf s c)[k]? = some u := by rw [← List.head?_drop, hk, List.head?_cons]
    have hs := h.issueSettled hu
    have htail : (uopsOf (s.issueSettled u) c).drop (k + 1) = us := by
      rw [uopsOf_issueSettled, ← List.tail_drop, hk, List.tail_cons]
    have hlen : us.length = (uopsOf (s.issueSettled u) c).length - (k + 1) := by rw [← htail, List.length_drop]
    have hlt : k < (uopsOf (s.issueSettled u) c).length := by
      rw [uopsOf_issueSettled]
      exact (List.getElem?_eq_some_iff.1 hu).1
    unfold State.advance at hs
    split at hs
    case isTrue hend =>
      have hend : k + 1 = (uopsOf (s.issueSettled u) c).length := hend
      obtain rfl : us = [] := List.eq_nil_of_length_eq_zero (by omega)
      exact hs
    case isFalse hend =>
      have hend : k + 1 ≠ (uopsOf (s.issueSettled u) c).length := hend
      exact ih hs htail (List.ne_nil_of_length_pos (by omega))

theorem State.Handshake.perform {s : State} {c : Cmd} (h : s.Handshake) (hs : s.seq = .run c 1) : (s.perform c).Handshake := by
  have hat : s.atUop c 0 = s := by simp only [State.atUop, ← hs]
  exact State.Handshake.runUops (k := 0) (hat.symm ▸ h) List.drop_zero (List.ne_nil_of_length_pos (uopsOf_length_pos s c))


/-! ### Every step that records nothing keeps the handshake (R159) -/

/-- Nothing is recorded where nothing is recorded later (R30). -/
theorem State.clean_of_subset {s t : State} (h : s.undef ⊆ t.undef) (hc : t.clean) : s.clean :=
  List.eq_nil_of_subset_nil (hc ▸ h)

theorem State.Handshake.exec {i : Instr} {s s' : State} (h : s.Handshake) (hi : s.seq = .idle)
    (hs : exec i s = .next s') (hc : s'.clean) : s'.Handshake := by
  rcases exec_next hi hs with ⟨-, rfl⟩ | ⟨cfg, -, rfl⟩ | ⟨buf, len, -, rfl⟩ | ⟨reg, -, -, rfl⟩
  · exact (h.acceptInit hi (State.clean_of_subset (undef_subset_perform _ _) hc)).perform rfl
  · exact (h.acceptSetMode hi cfg).perform rfl
  · exact (h.acceptStartTx hi (State.clean_of_subset (undef_subset_perform _ _) hc)).perform rfl
  · exact (h.acceptRdReg hi reg).perform rfl

theorem State.Handshake.acceptCommand {i : Instr} {s s' : State} (h : s.Handshake) (hi : s.seq = .idle)
    (hs : acceptCommand i s = .next s') (hc : s'.clean) : s'.Handshake := by
  cases i with
  | init => cases hs; exact h.acceptInit hi hc
  | setMode cfg => cases hs; exact h.acceptSetMode hi cfg
  | startTx buf len => cases hs; exact h.acceptStartTx hi hc
  | rdReg reg =>
    simp only [Sys2Proof.Machine.acceptCommand] at hs
    split at hs
    · cases hs
    · cases hs; exact h.acceptRdReg hi reg

theorem State.Handshake.uopStep {s s' : State} (h : s.Handshake) (hs : s.uopStep = .next s') : s'.Handshake := by
  obtain ⟨c, k, u, hseq, hu, -, he, rfl⟩ := State.uopStep_next hs
  exact h.uop hseq hu he

theorem State.Handshake.progress {s s' : State} (h : s.Handshake) (hs : s.progress = .next s') : s'.Handshake := by
  rcases State.progress_next hs with hs | ⟨-, hp, rfl⟩ | ⟨-, hp, rfl⟩ | ⟨-, -, hb, rfl⟩ | ⟨-, -, -, rfl⟩
  · exact h.uopStep hs
  · exact h.latch hp
  · exact h.latch hp
  · exact h.frameEnd hb
  · exact h

theorem State.Handshake.agentMove {m : Move} {s s' : State} (h : s.Handshake) (hp : s.par.wf = true)
    (hm : State.agentMove m s = .next s') (hc : s'.clean) : s'.Handshake := by
  have henv := State.agentMove_sameHandshake hp hm hc
  cases m with
  | uop => exact h.uopStep hm
  | store =>
    obtain ⟨u, hu, hlt, rfl⟩ := State.storeStep_next hm
    exact h.storeNext hu hlt
  | latch => obtain ⟨hl, rfl⟩ := whenEnabled_next.1 hm; exact h.latch hl
  | latchByte => obtain ⟨hl, rfl⟩ := whenEnabled_next.1 hm; exact h.latchStep hl
  | frameEnd => obtain ⟨hb, rfl⟩ := whenEnabled_next.1 hm; exact h.frameEnd hb
  | reset l => cases hm; exact State.ofLaunch_handshake _ _ _ _
  | _ => exact h.congr (henv (by simp) (by simp) (by simp) (by simp) (by simp) (by simp))

/-- No part of the handshake is about the script. -/
theorem State.Handshake.withScript {s : State} (h : s.Handshake) (ms : List Move) : State.Handshake { s with script := ms } :=
  { h with }

/-- A step that leaves `UNDEF` empty keeps the handshake. -/
theorem State.Handshake.step {s s' : State} (h : s.Handshake) (hp : s.par.wf = true) (hs : step s = .next s')
    (hc : s'.clean) : s'.Handshake := by
  rcases step_next hs with ⟨-, hs⟩ | ⟨w, ms, -, hi, i, -, hs⟩ | ⟨w, ms, -, hi, i, -, hs⟩ | ⟨-, hs⟩ | ⟨m, ms, -, hs⟩
  · exact h.progress hs
  · exact (h.withScript ms).exec hi hs hc
  · exact (h.withScript ms).acceptCommand hi hs hc
  · exact h.progress hs
  · exact (h.withScript ms).agentMove hp hs hc

end Sys2Proof.Machine
end

/-! The transitions of `TXSTATE` (R138). -/

section
namespace Sys2Proof.Machine

/-- What one agent's step may do to `TXSTATE` (R138). -/
def TxState.MovesTo (a b : TxState) : Prop :=
  b = a ∨ (a = .idle ∧ b = .armed) ∨ (a = .armed ∧ b = .transmitting) ∨ (a = .transmitting ∧ b = .idle)

theorem TxState.MovesTo.or_left {a b : TxState} (h : TxState.MovesTo a b) (p : Prop) :
    b = a ∨ (a = .idle ∧ b = .armed) ∨ (a = .armed ∧ b = .transmitting) ∨ (a = .transmitting ∧ b = .idle) ∨ p := by
  rcases h with h | h | h | h
  · exact .inl h
  · exact .inr (.inl h)
  · exact .inr (.inr (.inl h))
  · exact .inr (.inr (.inr (.inl h)))

/-- Only t3 and t5 of START_TX move `TXSTATE`, from where the handshake has it (R133, R135). -/
theorem State.Handshake.txState_uop {s : State} {c : Cmd} {k : Nat} {u : Uop} (h : s.Handshake)
    (hs : s.seq = .run c (k + 1)) (hu : (uopsOf s c)[k]? = some u) : TxState.MovesTo s.txState (issue u s).txState := by
  by_cases ha : u = .armTx
  · subst ha
    obtain ⟨rfl, rfl⟩ := at_of_armTx hu
    exact .inr (.inl ⟨h.txPosition 3 hs, rfl⟩)
  by_cases ht : u = .txd
  · subst ht
    obtain ⟨rfl, rfl⟩ := at_of_txd hu
    exact .inr (.inr (.inl ⟨h.txPosition 5 hs, rfl⟩))
  · exact .inl (issue_txState ha ht s)

theorem State.Handshake.txState_uopStep {s s' : State} (h : s.Handshake) (hs : s.uopStep = .next s') :
    TxState.MovesTo s.txState s'.txState := by
  obtain ⟨c, k, u, hseq, hu, -, -, rfl⟩ := State.uopStep_next hs
  rw [State.advance_txState]
  exact h.txState_uop hseq hu

/-- FRAME_END ends the transmission or goes on with it (R156, R158). -/
theorem State.Handshake.txState_frameEnd {s : State} (h : s.Handshake) (hb : s.txBusy = true) :
    TxState.MovesTo s.txState s.frameEnd.txState := by
  have ht := h.transmitting_of_busy hb
  rcases h.frameEnd_eq hb with ⟨-, -, he⟩ | ⟨-, -, he⟩
  · exact .inr (.inr (.inr ⟨ht, by simp [he, ht]⟩))
  · exact .inl (by simp [he])

theorem State.Handshake.txState_progress {s s' : State} (h : s.Handshake) (hs : s.progress = .next s') :
    TxState.MovesTo s.txState s'.txState := by
  rcases State.progress_next hs with hs | ⟨-, -, rfl⟩ | ⟨-, -, rfl⟩ | ⟨-, -, hb, rfl⟩ | ⟨-, -, -, rfl⟩
  · exact h.txState_uopStep hs
  · exact .inl rfl
  · exact .inl rfl
  · exact h.txState_frameEnd hb
  · exact .inl rfl

theorem State.Handshake.txState_agentMove {m : Move} {s s' : State} (h : s.Handshake) (hp : s.par.wf = true)
    (hm : State.agentMove m s = .next s') (hc : s'.clean) (hr : ∀ l, m ≠ .reset l) :
    TxState.MovesTo s.txState s'.txState := by
  have henv := State.agentMove_sameHandshake hp hm hc
  cases m with
  | uop => exact h.txState_uopStep hm
  | store => obtain ⟨u, -, -, rfl⟩ := State.storeStep_next hm; exact .inl (by simp)
  | latch => obtain ⟨-, rfl⟩ := whenEnabled_next.1 hm; exact .inl rfl
  | latchByte => obtain ⟨-, rfl⟩ := whenEnabled_next.1 hm; exact .inl (by simp)
  | frameEnd => obtain ⟨hb, rfl⟩ := whenEnabled_next.1 hm; exact h.txState_frameEnd hb
  | reset l => exact absurd rfl (hr l)
  | _ => exact .inl (henv (by simp) (by simp) (by simp) (by simp) (by simp) (by simp)).txState

/-- A command other than START_TX, run whole, leaves `TXSTATE` alone. -/
theorem State.perform_txState {s : State} {c : Cmd} (hc : c ≠ .startTx) : (s.perform c).txState = s.txState := by
  have hrun : ∀ (us : List Uop) (t : State), (∀ u ∈ us, u ≠ .armTx ∧ u ≠ .txd) → (t.runUops us).txState = t.txState := by
    intro us
    induction us with
    | nil => exact fun _ _ => rfl
    | cons u us ih =>
      intro t hus
      obtain ⟨ha, ht⟩ := hus u List.mem_cons_self
      refine (ih (t.issueSettled u) fun v hv => hus v (List.mem_cons_of_mem u hv)).trans ?_
      unfold State.issueSettled
      split <;> rw [issue_txState ha ht]
      rfl
  refine hrun (uopsOf s c) s fun u hu => ⟨?_, ?_⟩ <;> rintro rfl <;> exact hc (cmd_of_startTxUop hu (by simp))

/-- A command run whole: START_TX takes `TXSTATE` from `Idle` to `Transmitting` at once, every other leaves it (log 7). -/
theorem exec_txState {i : Instr} {s s' : State} (hi : s.seq = .idle) (hs : exec i s = .next s') (hc : s'.clean) :
    s'.txState = s.txState ∨ (s.txState = .idle ∧ s'.txState = .transmitting ∧ ∃ buf len, i = .startTx buf len) := by
  rcases exec_next hi hs with ⟨-, rfl⟩ | ⟨cfg, -, rfl⟩ | ⟨buf, len, rfl, rfl⟩ | ⟨reg, -, -, rfl⟩
  · exact .inl (State.perform_txState (by simp))
  · exact .inl (State.perform_txState (by simp))
  · obtain ⟨-, -, ht, -⟩ := State.acceptStartTx_of_clean (State.clean_of_subset (undef_subset_perform _ _) hc)
    exact .inr ⟨ht, rfl, buf, len, rfl⟩
  · exact .inl (State.perform_txState (by simp))

theorem acceptCommand_txState {i : Instr} {s s' : State} (hs : acceptCommand i s = .next s') : s'.txState = s.txState := by
  cases i with
  | init => cases hs; rfl
  | setMode cfg => cases hs; rfl
  | startTx buf len => cases hs; rfl
  | rdReg reg =>
    simp only [acceptCommand] at hs
    split at hs <;> cases hs
    rfl

/-- Settles O54: which parts of a step move `TXSTATE`, from where the handshake has it. -/
theorem txStateTransitions : Obligations.TxStateTransitions := by
  intro s s' hp hprot hc hs hr
  have h : s.Handshake := hprot (State.clean_of_subset (undefIsSticky s s' hs hr) hc)
  rcases step_next hs with ⟨-, hs⟩ | ⟨w, ms, hsc, hi, i, hw, hs⟩ | ⟨w, ms, -, -, i, -, hs⟩ | ⟨-, hs⟩ | ⟨m, ms, hsc, hs⟩
  · exact (h.txState_progress hs).or_left _
  · rcases exec_txState (s := { s with script := ms }) hi hs hc with ht | ⟨ht, ht', buf, len, rfl⟩
    · exact .inl ht
    · exact .inr (.inr (.inr (.inr ⟨ht, ht', w, ms, buf, len, hsc, hw⟩)))
  · exact .inl (acceptCommand_txState (s := { s with script := ms }) hs)
  · exact (h.txState_progress hs).or_left _
  · exact ((h.withScript ms).txState_agentMove hp hs hc fun l hl => hr l ms (hl ▸ hsc)).or_left _

end Sys2Proof.Machine
end

/-! Runs in any order of the agents' steps: a START_TX delivers its buffer (R136, R169). -/

section
namespace Sys2Proof.Machine

/-! ### What one move of a run does -/

/-- The state from which a move is taken: the run's state with nothing else asked for. -/
def State.bare (s : State) : State := { s with script := [] }

/-- One step of a run: a command on the free port, run whole or accepted, or the move of an agent. -/
inductive State.Moves (s s' : State) : Move → Prop where
  | command {w : CmdWord} {i : Instr} (hi : s.seq = .idle) (hw : decode w = .ok i) (h : exec i s.bare = .next s') :
      State.Moves s s' (.command w)
  | present {w : CmdWord} {i : Instr} (hi : s.seq = .idle) (hw : decode w = .ok i)
      (h : acceptCommand i s.bare = .next s') : State.Moves s s' (.present w)
  | agent {m : Move} (hr : ∀ l, m ≠ .reset l) (h : State.agentMove m s.bare = .next s') : State.Moves s s' m

theorem IsRun.moves {σ : Nat → State} {m : Nat → Move} (h : IsRun σ m) (hr : ∀ n l, m n ≠ .reset l) (n : Nat) :
    (σ n).Moves (σ (n + 1)) (m n) := by
  have hs := h.follows n
  have hport := h.port n
  have hreset := hr n
  generalize m n = mv at hs hport hreset ⊢
  by_cases hc : ∃ w, mv = .command w
  · obtain ⟨w, rfl⟩ := hc
    have hi := hport w (.inl rfl)
    cases hw : decode w with
    | ok i => exact .command hi hw ((step_of_command (s := { σ n with script := [.command w] }) hi rfl hw).symm.trans hs)
    | error r =>
      rw [step_of_reserved (s := { σ n with script := [.command w] }) hi (.inl rfl) hw] at hs
      cases hs
  by_cases hp : ∃ w, mv = .present w
  · obtain ⟨w, rfl⟩ := hp
    have hi := hport w (.inr rfl)
    cases hw : decode w with
    | ok i => exact .present hi hw ((step_of_present (s := { σ n with script := [.present w] }) hi rfl hw).symm.trans hs)
    | error r =>
      rw [step_of_reserved (s := { σ n with script := [.present w] }) hi (.inr rfl) hw] at hs
      cases hs
  · have hm := step_of_move (s := { σ n with script := [mv] }) (fun w h => hc ⟨w, h⟩) (fun w h => hp ⟨w, h⟩) rfl
    exact .agent hreset (hm.symm.trans hs)

/-- While a command runs every step is the move of an agent (R12). -/
theorem State.Moves.agentMove {s s' : State} {m : Move} {c : Cmd} {k : Nat} (h : s.Moves s' m) (hs : s.seq = .run c k) :
    (∀ l, m ≠ .reset l) ∧ State.agentMove m s.bare = .next s' := by
  cases h with
  | command hi => rw [hs] at hi; cases hi
  | present hi => rw [hs] at hi; cases hi
  | agent hr h => exact ⟨hr, h⟩

/-! ### What the environment leaves of a transfer -/

/-- `t` has the transfer as `s` has it: the channel's registers, the transmitter's byte, the frames on `WIRE`, and in `MEM`
the descriptor and the buffer in flight. -/
structure State.SameTransfer (s t : State) : Prop where
  par : t.par = s.par
  arm : t.arm = s.arm
  wSrc : t.wSrc = s.wSrc
  wCnt : t.wCnt = s.wCnt
  txShift : t.txShift = s.txShift
  txState : t.txState = s.txState
  wire : t.wire = s.wire
  mem : ∀ a, isDescByte s.par a = true ∨ s.bufferInFlight a = true → t.mem.read a = s.mem.read a

/-- With memory and the transfer's elements as they were. -/
theorem State.SameTransfer.of_eq {s t : State} (hp : t.par = s.par) (ha : t.arm = s.arm) (hs : t.wSrc = s.wSrc)
    (hc : t.wCnt = s.wCnt) (hx : t.txShift = s.txShift) (ht : t.txState = s.txState) (hw : t.wire = s.wire)
    (hm : t.mem = s.mem) : s.SameTransfer t :=
  ⟨hp, ha, hs, hc, hx, ht, hw, fun _ _ => hm ▸ rfl⟩

/-- The moves of the environment, of external owners and of non-owners that record nothing leave the transfer (R168). -/
theorem State.agentMove_sameTransfer {m : Move} {s s' : State} (hm : State.agentMove m s = .next s') (hc : s'.clean)
    (hu : m ≠ .uop) (hst : m ≠ .store) (hl : m ≠ .latch) (hlb : m ≠ .latchByte) (hf : m ≠ .frameEnd)
    (hr : ∀ l, m ≠ .reset l) : s.SameTransfer s' := by
  have hrefl : s.SameTransfer s := .of_eq rfl rfl rfl rfl rfl rfl rfl rfl
  cases m with
  | command _ => cases hm
  | present _ => cases hm
  | uop => exact absurd rfl hu
  | store => exact absurd rfl hst
  | latch => exact absurd rfl hl
  | latchByte => exact absurd rfl hlb
  | frameEnd => exact absurd rfl hf
  | reset l => exact absurd rfl (hr l)
  | rxByte _ => obtain ⟨-, rfl⟩ := whenEnabled_next.1 hm; exact { hrefl with }
  | rxHandler => obtain ⟨-, rfl⟩ := whenEnabled_next.1 hm; exact { hrefl with }
  | tableInstall => cases hm; exact { hrefl with }
  | powerOn => cases hm; exact { hrefl with }
  | storage _ => cases hm; exact { hrefl with }
  | shared w => cases hm; cases w <;> exact { hrefl with }
  | foreign w =>
    cases hm
    have := u12_mem_foreignWrite w s
    rw [hc] at this
    cases this
  | callerWrite a b =>
    cases hm
    obtain ⟨-, hd, hb, he⟩ := State.callerWrite_of_clean hc
    rw [he]
    refine { hrefl with mem := fun x hx => Memory.read_write_other _ b fun hxa => ?_ }
    subst hxa
    simp [hd, hb] at hx

/-! ### What is sent -/

/-- The descriptor's source address in memory (R72). -/
def State.descSource (s : State) : Addr :=
  joinBytes (Memory.read s.mem s.par.descAddr) (Memory.read s.mem (s.par.descAddr + 1))

/-- The bytes on `WIRE` in `s₀` and after them the first `n` of the buffer as `s₀` has it. -/
def State.sent (s₀ : State) (buf : Addr) (n : Nat) : List Byte :=
  s₀.wire.map Prod.fst ++ (List.range n).map fun j => s₀.mem.read (buf + BitVec.ofNat 16 j)

/-- The buffer is clear of the block's own addresses (R46). -/
def BufferClear (p : Params) (buf : Addr) (len : Count) : Prop := ∃ rs, bufferValid p rs buf len = true

/-- The sequencer stands at one of START_TX's five uops (R130). -/
def State.AtStartTx (s : State) : Prop := ∃ k < 5, s.seq = .run .startTx (k + 1)

/-- START_TX of `buf` and `len`, accepted in `s₀`, is running: nothing is sent yet, the buffer is as it was, and what has
been stored and latched is the command's. -/
structure State.Loading (s₀ : State) (buf : Addr) (len : Count) (s : State) : Prop where
  clear : BufferClear s.par buf len
  running : s.AtStartTx
  opBuf : s.opBuf = buf
  opLen : s.opLen = len
  wire : s.wire.map Prod.fst = s₀.sent buf 0
  buffer : ∀ j ≤ len.toNat, s.mem.read (buf + BitVec.ofNat 16 j) = s₀.mem.read (buf + BitVec.ofNat 16 j)
  source : ∀ k, s.seq = .run .startTx k → 2 ≤ k → s.descSource = buf + 1
  latched : ∀ k, s.seq = .run .startTx k → 4 ≤ k → s.loadPending = false → s.wSrc = buf + 1

/-- The transfer of that buffer with byte `i` in the transmitter: the bytes before it are sent, those after it are as they
were, and the channel is at the next. -/
structure State.Flowing (s₀ : State) (buf : Addr) (len : Count) (i : Nat) (s : State) : Prop where
  clear : BufferClear s.par buf len
  txState : s.txState = .transmitting
  source : s.descSource = buf + 1
  length : s.descLen = len
  wire : s.wire.map Prod.fst = s₀.sent buf i
  txShift : s.txShift = s₀.mem.read (buf + BitVec.ofNat 16 i)
  wCnt : s.wCnt.toNat + i = len.toNat
  wSrc : s.wSrc = buf + BitVec.ofNat 16 (i + 1)
  buffer : ∀ j, i < j → j ≤ len.toNat → s.mem.read (buf + BitVec.ofNat 16 j) = s₀.mem.read (buf + BitVec.ofNat 16 j)

/-- The buffer is sent and the transfer over (R136, R153, R158). -/
structure State.Delivered (s₀ : State) (buf : Addr) (len : Count) (s : State) : Prop where
  wire : s.wire.map Prod.fst = s₀.sent buf (len.toNat + 1)
  arm : s.arm = false
  wCnt : s.wCnt = 0
  wSrc : s.wSrc = buf + BitVec.ofNat 16 (len.toNat + 1)
  txBusy : s.txBusy = false
  txState : s.txState = .idle

theorem isDescByte_descAddr {p : Params} (hp : p.wf = true) {j : Nat} (hj : j < 8) :
    isDescByte p (p.descAddr + BitVec.ofNat 16 j) = true := by
  by_contra h
  exact desc_ne_of_not_isDescByte hp (by simpa using h) hj rfl

/-- Byte `j` of a piece of memory that does not wrap lies in it. -/
theorem inRange_add {lo : Addr} {n j : Nat} (hn : lo.toNat + n ≤ 65536) (hj : j < n) :
    inRange (lo + BitVec.ofNat 16 j) lo n = true := by
  simp only [inRange, Bool.and_eq_true, decide_eq_true_eq, BitVec.toNat_add, BitVec.toNat_ofNat]
  omega

theorem State.SameTransfer.descSource {s t : State} (v : s.SameTransfer t) (hp : s.par.wf = true) :
    t.descSource = s.descSource := by
  have h0 := v.mem _ (.inl (isDescByte_descAddr hp (j := 0) (by omega)))
  have h1 := v.mem _ (.inl (isDescByte_descAddr hp (j := 1) (by omega)))
  rw [BitVec.add_zero] at h0
  rw [State.descSource, v.par]
  exact congrArg₂ joinBytes h0 h1

theorem State.SameTransfer.descLen {s t : State} (v : s.SameTransfer t) (hp : s.par.wf = true) : t.descLen = s.descLen := by
  have h4 := v.mem _ (.inl (isDescByte_descAddr hp (j := 4) (by omega)))
  have h5 := v.mem _ (.inl (isDescByte_descAddr hp (j := 5) (by omega)))
  rw [State.descLen, v.par]
  exact congrArg₂ lenOfBytes h4 h5

theorem BufferClear.lt {p : Params} {buf : Addr} {len : Count} (h : BufferClear p buf len) :
    buf.toNat + len.toNat ≤ 0xFFFF := by
  obtain ⟨rs, h⟩ := h
  exact ((bufferValid_iff p rs buf len).1 h).2.1

theorem BufferClear.ne_desc {p : Params} {buf : Addr} {len : Count} (h : BufferClear p buf len) (hp : p.wf = true) {k j : Nat}
    (hk : k ≤ len.toNat) (hj : j < 8) : buf + BitVec.ofNat 16 k ≠ p.descAddr + BitVec.ofNat 16 j := by
  obtain ⟨rs, h⟩ := h
  exact buffer_ne_desc hp h hk hj

/-! ### START_TX up to its last uop -/

theorem State.bufferInFlight_of_flight {s : State} {a lo : Addr} {n : Nat} (h : s.flight = some (lo, n)) :
    s.bufferInFlight a = inRange a lo n := by
  simp [State.bufferInFlight, h]

/-- While START_TX runs each byte of its buffer is in flight (R53). -/
theorem State.Loading.inFlight {s₀ s : State} {buf : Addr} {len : Count} (l : s₀.Loading buf len s) {j : Nat}
    (hj : j ≤ len.toNat) : s.bufferInFlight (buf + BitVec.ofNat 16 j) = true := by
  obtain ⟨k, -, hs⟩ := l.running
  have hlt := l.clear.lt
  rw [State.bufferInFlight_of_flight (State.flight_of_startTx hs), l.opBuf, l.opLen]
  exact inRange_add (by omega) (by omega)

theorem State.Loading.congr {s₀ s t : State} {buf : Addr} {len : Count} (l : s₀.Loading buf len s) (hp : s.par.wf = true)
    (v : s.SameHandshake t) (w : s.SameTransfer t) : s₀.Loading buf len t where
  clear := w.par ▸ l.clear
  running := by rw [State.AtStartTx, v.seq]; exact l.running
  opBuf := v.opBuf.trans l.opBuf
  opLen := v.opLen.trans l.opLen
  wire := by rw [w.wire]; exact l.wire
  buffer j hj := (w.mem _ (.inr (l.inFlight hj))).trans (l.buffer j hj)
  source k hk h2 := (w.descSource hp).trans (l.source k (v.seq ▸ hk) h2)
  latched k hk h4 hpend := w.wSrc.trans (l.latched k (v.seq ▸ hk) h4 (v.loadPending ▸ hpend))

/-- A uop's stores leave every address that it does not store at as it was. -/
theorem read_issue_other {u : Uop} {s : State} {x : Addr}
    (hx : ∀ a bs, memStores u s = some (a, bs) → ∀ j < bs.length, x ≠ a + BitVec.ofNat 16 j) :
    (issue u s).mem.read x = s.mem.read x := by
  cases hm : memStores u s with
  | none => rw [issue_mem_of_none hm]
  | some p =>
    obtain ⟨a, bs⟩ := p
    rw [issue_mem_of_memStores hm]
    refine Memory.read_writeList_other _ _ _ fun k hk => ?_
    rw [BitVec.add_assoc, BitVec.ofNat_add_ofNat]
    exact hx a bs hm _ (by rw [List.length_drop] at hk; omega)

theorem read_storeNext_other {u : Uop} {s : State} {x : Addr}
    (hx : ∀ a bs, memStores u s = some (a, bs) → ∀ j < bs.length, x ≠ a + BitVec.ofNat 16 j)
    (hc : s.stored + 1 < storeCount u) : (storeNext u s).mem.read x = s.mem.read x := by
  cases hm : memStores u s with
  | none =>
    obtain rfl := eq_slot_of_memStores_none hm (by omega)
    rfl
  | some p =>
    obtain ⟨a, bs⟩ := p
    have hlt : s.stored < bs.length := by rw [memStores_length hm]; omega
    rw [storeNext_of_memStores hm (List.getElem?_eq_getElem hlt)]
    exact Memory.read_write_other _ _ (hx a bs hm _ hlt)

/-- No uop stores at an address of the buffer (R46). -/
theorem BufferClear.ne_store {s : State} {buf : Addr} {len : Count} (h : BufferClear s.par buf len) (hp : s.par.wf = true)
    {u : Uop} {i : Nat} (hi : i ≤ len.toNat) (a : Addr) (bs : List Byte) (hm : memStores u s = some (a, bs)) (j : Nat)
    (hj : j < bs.length) : buf + BitVec.ofNat 16 i ≠ a + BitVec.ofNat 16 j := by
  obtain ⟨o, rfl, hlen, -⟩ := fixedAt_memStores hm
  rw [BitVec.add_assoc, BitVec.ofNat_add_ofNat]
  exact h.ne_desc hp hi (by omega)

/-- The source's two bytes are not among those that DESC_LEN stores (R131, R132). -/
theorem source_ne_store {s : State} {u : Uop} (hu : u ≠ .descInit) (hu' : u ≠ .descSrc) {i : Nat} (hi : i < 2) (a : Addr)
    (bs : List Byte) (hm : memStores u s = some (a, bs)) (j : Nat) (hj : j < bs.length) :
    s.par.descAddr + BitVec.ofNat 16 i ≠ a + BitVec.ofNat 16 j := by
  cases u with
  | descInit => exact absurd rfl hu
  | descSrc => exact absurd rfl hu'
  | descLen =>
    cases hm
    have hj : j < 2 := hj
    intro he
    rw [BitVec.add_assoc] at he
    have := descAddr_add_inj (i := i) (j := 4 + j) (by omega) (by omega) (by rwa [← BitVec.ofNat_add_ofNat])
    omega
  | _ => cases hm

theorem descSource_issue_other {s : State} {u : Uop} (hu : u ≠ .descInit) (hu' : u ≠ .descSrc) :
    (issue u s).descSource = s.descSource := by
  have h0 := read_issue_other (source_ne_store (s := s) hu hu' (i := 0) (by omega))
  have h1 := read_issue_other (source_ne_store (s := s) hu hu' (i := 1) (by omega))
  rw [BitVec.add_zero] at h0
  rw [State.descSource, issue_par]
  exact congrArg₂ joinBytes h0 h1

theorem descSource_storeNext_other {s : State} {u : Uop} (hu : u ≠ .descInit) (hu' : u ≠ .descSrc)
    (hc : s.stored + 1 < storeCount u) : (storeNext u s).descSource = s.descSource := by
  have h0 := read_storeNext_other (source_ne_store (s := s) hu hu' (i := 0) (by omega)) hc
  have h1 := read_storeNext_other (source_ne_store (s := s) hu hu' (i := 1) (by omega)) hc
  rw [BitVec.add_zero] at h0
  rw [State.descSource, storeNext_par]
  exact congrArg₂ joinBytes h0 h1

/-- DESC_SRC leaves the command's source in the descriptor (R131). -/
theorem descSource_of_issue {s : State}
    (hdone : ∀ j < s.stored, (descSrcBytes s)[j]? = some (s.mem.read (s.par.descAddr + BitVec.ofNat 16 j))) :
    (issue .descSrc s).descSource = s.opBuf + 1 := by
  have hread := fun j (hj : j < (descSrcBytes s).length) => read_issue_stored (u := .descSrc) rfl hdone hj
  have h0 : (issue .descSrc s).mem.read s.par.descAddr = hiByte (s.opBuf + 1) := by
    have := hread 0 (by simp [descSrcBytes])
    rwa [BitVec.add_zero] at this
  have h1 : (issue .descSrc s).mem.read (s.par.descAddr + 1) = loByte (s.opBuf + 1) := hread 1 (by simp [descSrcBytes])
  rw [State.descSource, issue_par, h0, h1, joinBytes_hiByte_loByte]

/-- A byte store of START_TX. -/
theorem State.Loading.storeNext {s₀ s : State} {buf : Addr} {len : Count} {u : Uop} (l : s₀.Loading buf len s)
    (hp : s.par.wf = true) (hu : s.nextUop = some u) (hc : s.stored + 1 < storeCount u) :
    s₀.Loading buf len (storeNext u s) where
  clear := by rw [storeNext_par]; exact l.clear
  running := by rw [State.AtStartTx, storeNext_seq]; exact l.running
  opBuf := by rw [storeNext_opBuf]; exact l.opBuf
  opLen := by rw [storeNext_opLen]; exact l.opLen
  wire := by rw [storeNext_wire]; exact l.wire
  buffer j hj := (read_storeNext_other (l.clear.ne_store hp hj) hc).trans (l.buffer j hj)
  source k hk h2 := by
    rw [storeNext_seq] at hk
    obtain ⟨k, rfl⟩ : ∃ i, k = i + 1 := ⟨k - 1, by omega⟩
    have hat : startTxUops[k]? = some u := (State.nextUop_of_run hk).symm.trans hu
    have hne : u ≠ .descInit ∧ u ≠ .descSrc := by
      rcases startTxUops_at hat with ⟨rfl, -⟩ | ⟨-, rfl⟩ | ⟨-, rfl⟩ | ⟨-, rfl⟩ | ⟨-, rfl⟩
      · omega
      all_goals simp
    rw [descSource_storeNext_other hne.1 hne.2 hc]
    exact l.source _ hk h2
  latched k hk h4 hpend := by
    rw [storeNext_seq] at hk
    rw [storeNext_loadPending] at hpend
    rw [storeNext_wSrc]
    exact l.latched k hk h4 hpend

/-- LATCH in START_TX, whole or one of its reads: the whole one loads the command's source (R134, R150). -/
theorem State.Loading.latchStep {s₀ s : State} {buf : Addr} {len : Count} (l : s₀.Loading buf len s) (h : s.Handshake)
    (hpend : s.loadPending = true) : s₀.Loading buf len s.latch ∧ s₀.Loading buf len s.latchStep := by
  have hlatch : s₀.Loading buf len s.latch := { l with
    latched := fun k hk h4 _ => by
      have h0 := h.latchByte_eq hpend 0
      rw [BitVec.add_zero] at h0
      rw [State.latch_wSrc, h0, h.latchByte_eq hpend 1]
      exact l.source k hk (by omega) }
  refine ⟨hlatch, ?_⟩
  unfold State.latchStep
  split
  · exact { l with
      latched := fun k hk h4 hp => by
        have hp : s.loadPending = false := hp
        rw [hpend] at hp
        cases hp }
  · exact hlatch

end Sys2Proof.Machine
end

/-! What each move of a run does to a transfer (R136, R152, R153, R158, R168). -/

section
namespace Sys2Proof.Machine

/-! ### A uop of START_TX (R130) -/

theorem State.advance_descSource (c : Cmd) (k : Nat) (s : State) : (s.advance c k).descSource = s.descSource := by
  rw [State.descSource, State.advance_par, State.advance_mem]
  rfl

theorem State.advance_descLen (c : Cmd) (k : Nat) (s : State) : (s.advance c k).descLen = s.descLen := by
  rw [State.descLen, State.advance_par, State.advance_mem]
  rfl

section
variable {s₀ s : State} {buf : Addr} {len : Count} {k : Nat} (l : s₀.Loading buf len s) (h : s.Handshake)
  (hs : s.seq = .run .startTx (k + 1))
include l h hs

/-- The uops before TXD go on with what has been stored and latched (R131 to R134). -/
theorem State.Loading.uop {u : Uop} (hp : s.par.wf = true) (hu : startTxUops[k]? = some u) (hlt : k < 4)
    (he : s.uopEnabled u = true) : s₀.Loading buf len ((issue u s).advance .startTx k) where
  clear := by rw [State.advance_par, issue_par]; exact l.clear
  running := ⟨k + 1, by omega, by
    have hend : ¬ k + 1 = 5 := by omega
    rw [State.advance_seq, uopsOf_issue]
    exact if_neg hend⟩
  opBuf := by rw [State.advance_opBuf, issue_opBuf]; exact l.opBuf
  opLen := by rw [State.advance_opLen, issue_opLen]; exact l.opLen
  wire := by rw [State.advance_wire, issue_wire]; exact l.wire
  buffer j hj := by
    rw [State.advance_mem, read_issue_other (l.clear.ne_store hp hj)]
    exact l.buffer j hj
  source _ _ _ := by
    rw [State.advance_descSource]
    by_cases hk : k = 0
    · subst hk
      obtain rfl : Uop.descSrc = u := Option.some.inj hu
      rw [descSource_of_issue (h.memStored _ _ _ ((State.nextUop_of_run hs).trans hu) rfl), l.opBuf]
    · have hne : u ≠ .descInit ∧ u ≠ .descSrc := by
        rcases startTxUops_at hu with ⟨h0, -⟩ | ⟨-, rfl⟩ | ⟨-, rfl⟩ | ⟨-, rfl⟩ | ⟨-, rfl⟩
        · exact absurd h0 hk
        all_goals simp
      rw [descSource_issue_other hne.1 hne.2]
      exact l.source _ hs (by omega)
  latched k' hk' h4 hpend := by
    obtain ⟨-, rfl, -⟩ := State.run_of_advance hk'
    rw [State.advance_wSrc, issue_wSrc]
    rw [State.advance_loadPending] at hpend
    rcases startTxUops_at hu with ⟨hk, -⟩ | ⟨hk, -⟩ | ⟨-, rfl⟩ | ⟨rfl, rfl⟩ | ⟨hk, -⟩
    · omega
    · omega
    · cases hpend
    · exact l.latched _ hs le_rfl (h.not_pending_of_enabled ((State.nextUop_of_run hs).trans hu) he)
    · omega

/-- TXD puts the first byte into the transmitter (R135, R155). -/
theorem State.Loading.txd (hk : k = 4) : s₀.Flowing buf len 0 ((issue .txd s).advance .startTx k) := by
  subst hk
  have hpos := h.txPosition 5 hs
  have hpend : s.loadPending = false :=
    h.not_pending_of_enabled (u := .txd) (State.nextUop_of_run hs) (by simp [State.uopEnabled])
  have hbusy : s.txBusy = false := (h.armed hpos).1
  have hshift : (issue .txd s).txShift = s.mem.read s.opBuf := by
    have hlost : (s.emit [.txd (s.mem.read s.opBuf)]).writeLost = false := by simp [State.writeLost, hbusy]
    exact (State.frameStart_txShift _ _).trans (if_neg (by simp [hlost]))
  exact {
    clear := by rw [State.advance_par, issue_par]; exact l.clear
    txState := by rw [State.advance_txState]; rfl
    source := by
      rw [State.advance_descSource, descSource_issue_other (by simp) (by simp)]
      exact l.source 5 hs (by omega)
    length := by
      rw [State.advance_descLen, descLen_issue_of_none rfl, (h.txLen 5 hs).2 (by omega), l.opLen]
    wire := by rw [State.advance_wire, issue_wire]; exact l.wire
    txShift := by
      have := l.buffer 0 (Nat.zero_le _)
      rw [State.advance_txShift, hshift, l.opBuf]
      simpa using this
    wCnt := by
      have hcnt : s.wCnt = s.opLen := (h.txLatched 5 hs (by omega)).2.resolve_left (by simp [hpend])
      rw [State.advance_wCnt, issue_wCnt, hcnt, l.opLen, Nat.add_zero]
    wSrc := by
      rw [State.advance_wSrc, issue_wSrc]
      exact l.latched 5 hs (by omega) hpend
    buffer := fun j _ hj => by
      rw [State.advance_mem, issue_mem_of_none rfl]
      exact l.buffer j hj }

end

/-- START_TX ends with TXD, and up to it every move leaves the command as it is (R136, R168). -/
theorem State.Loading.move {s₀ s s' : State} {buf : Addr} {len : Count} {m : Move} (l : s₀.Loading buf len s) (h : s.Handshake)
    (hp : s.par.wf = true) (hm : s.Moves s' m) (hc : s'.clean) : s₀.Loading buf len s' ∨ s₀.Flowing buf len 0 s' := by
  obtain ⟨k, hk5, hs⟩ := l.running
  have hb : s₀.Loading buf len s.bare := { l with }
  have hh : s.bare.Handshake := h.withScript []
  obtain ⟨hr, hm⟩ := hm.agentMove hs
  have henv := State.agentMove_sameHandshake (s := s.bare) hp hm hc
  have hkeep := State.agentMove_sameTransfer hm hc
  cases m with
  | uop =>
    obtain ⟨c, k', u, hseq, hu, -, he, rfl⟩ := State.uopStep_next hm
    obtain ⟨rfl, rfl⟩ : Cmd.startTx = c ∧ k = k' := by simpa using hs.symm.trans hseq
    have hu : startTxUops[k]? = some u := hu
    by_cases hlt : k < 4
    · exact .inl (hb.uop hh hseq hp hu hlt he)
    · obtain rfl : k = 4 := by omega
      obtain rfl : Uop.txd = u := Option.some.inj hu
      exact .inr (hb.txd hh hseq rfl)
  | store =>
    obtain ⟨u, hu, hlt, rfl⟩ := State.storeStep_next hm
    exact .inl (hb.storeNext hp hu hlt)
  | latch => obtain ⟨hl, rfl⟩ := whenEnabled_next.1 hm; exact .inl (hb.latchStep hh hl).1
  | latchByte => obtain ⟨hl, rfl⟩ := whenEnabled_next.1 hm; exact .inl (hb.latchStep hh hl).2
  | frameEnd =>
    obtain ⟨hbusy, -⟩ := whenEnabled_next.1 hm
    exact absurd hs (h.seq_of_transmitting (h.transmitting_of_busy hbusy) _)
  | reset l => exact absurd rfl (hr l)
  | _ => exact .inl (hb.congr hp (henv (by simp) (by simp) (by simp) (by simp) (by simp) (by simp))
      (hkeep (by simp) (by simp) (by simp) (by simp) (by simp) (by simp)))

/-! ### A move in a transmission -/

/-- The uops of SET_MODE and of RD_REG make one store each, and none of them in the descriptor or the channel (R115, R180). -/
theorem quiet_of_setMode_or_rdReg {s : State} {c : Cmd} {u : Uop} {k : Nat} (hc : c = .setMode ∨ c = .rdReg)
    (hu : (uopsOf s c)[k]? = some u) : storeCount u = 1 ∧ s.SameTransfer ((issue u s).advance c k) := by
  have hmem := List.mem_of_getElem? hu
  have hmode : u = .ufmtWr s.opCfg ∨ u = .orderWr s.opCfg ∨ u = .prioWr ∨ u = .readReg := by
    rcases hc with rfl | rfl
    · simp only [uopsOf, modeUops, List.mem_cons, List.not_mem_nil, or_false] at hmem
      tauto
    · exact .inr (.inr (.inr (List.mem_singleton.1 hmem)))
  rcases hmode with rfl | rfl | rfl | rfl <;>
    exact ⟨rfl, .of_eq (by simp) (by rw [State.advance_arm]; rfl) (by simp) (by simp) (by rw [State.advance_txShift]; rfl)
      (by rw [State.advance_txState]; rfl) (by simp) (by rw [State.advance_mem]; rfl)⟩

/-- The commands that the host may issue in a transmission, SET_MODE and RD_REG, leave it (R137, R239). -/
theorem State.exec_sameTransfer {i : Instr} {s s' : State} (hi : s.seq = .idle) (hd : s.initDone = true)
    (ht : s.txState = .transmitting) (hs : exec i s = .next s') (hc : s'.clean) : s.SameTransfer s' := by
  rcases exec_next hi hs with ⟨-, rfl⟩ | ⟨cfg, rfl, -⟩ | ⟨buf, len, -, rfl⟩ | ⟨reg, -, -, rfl⟩
  · have := (State.acceptInit_of_clean (State.clean_of_subset (undef_subset_perform _ _) hc)).1
    rw [hd] at this
    cases this
  · cases (exec_setMode_eq cfg hi).symm.trans hs
    exact .of_eq rfl rfl rfl rfl rfl rfl rfl rfl
  · obtain ⟨-, -, hidle, -⟩ := State.acceptStartTx_of_clean (State.clean_of_subset (undef_subset_perform _ _) hc)
    rw [ht] at hidle
    cases hidle
  · rw [State.perform_rdReg]
    exact .of_eq rfl rfl rfl rfl rfl rfl rfl rfl

theorem State.acceptCommand_sameTransfer {i : Instr} {s s' : State} (hs : acceptCommand i s = .next s') :
    s.SameTransfer s' := by
  cases i with
  | init => cases hs; exact .of_eq rfl rfl rfl rfl rfl rfl rfl rfl
  | setMode cfg => cases hs; exact .of_eq rfl rfl rfl rfl rfl rfl rfl rfl
  | startTx buf len => cases hs; exact .of_eq rfl rfl rfl rfl rfl rfl rfl rfl
  | rdReg reg =>
    simp only [acceptCommand] at hs
    split at hs <;> cases hs
    exact .of_eq rfl rfl rfl rfl rfl rfl rfl rfl

/-- In a transmission the sequencer runs SET_MODE or RD_REG, if anything (R138, R239). -/
theorem State.Handshake.cmd_of_transmitting {s : State} {c : Cmd} {k : Nat} (h : s.Handshake) (ht : s.txState = .transmitting)
    (hs : s.seq = .run c k) : c = .setMode ∨ c = .rdReg := by
  cases c with
  | init =>
    have := h.txState_of_init hs
    rw [ht] at this
    cases this
  | startTx => exact absurd hs (h.seq_of_transmitting ht k)
  | setMode => exact .inl rfl
  | rdReg => exact .inr rfl

/-- A move in a transmission ends a frame or leaves the transfer as it is (R168). -/
theorem State.Moves.of_transmitting {s s' : State} {m : Move} (hm : s.Moves s' m) (h : s.Handshake)
    (ht : s.txState = .transmitting) (hc : s'.clean) :
    (m = .frameEnd ∧ s' = s.bare.frameEnd) ∨ (m ≠ .frameEnd ∧ s.SameTransfer s') := by
  have hb : ∀ {t}, s.bare.SameTransfer t → s.SameTransfer t := fun v => { v with }
  have hpend := (h.transmitting ht).2.1
  cases hm with
  | command hi _ hs => exact .inr ⟨by simp, hb (State.exec_sameTransfer hi (h.initDone_of_transmitting ht) ht hs hc)⟩
  | present _ _ hs => exact .inr ⟨by simp, hb (State.acceptCommand_sameTransfer hs)⟩
  | agent hr hm =>
    have hkeep := State.agentMove_sameTransfer hm hc
    cases m with
    | frameEnd => exact .inl ⟨rfl, (whenEnabled_next.1 hm).2.symm⟩
    | uop =>
      obtain ⟨c, k, u, hseq, hu, -, -, rfl⟩ := State.uopStep_next hm
      exact .inr ⟨by simp, hb (quiet_of_setMode_or_rdReg (h.cmd_of_transmitting ht hseq) hu).2⟩
    | store =>
      obtain ⟨u, hu, hlt, -⟩ := State.storeStep_next hm
      obtain ⟨c, k, hseq, hu⟩ := State.exists_of_nextUop hu
      rw [(quiet_of_setMode_or_rdReg (h.cmd_of_transmitting ht hseq) hu).1] at hlt
      omega
    | latch => cases hpend.symm.trans (whenEnabled_next.1 hm).1
    | latchByte => cases hpend.symm.trans (whenEnabled_next.1 hm).1
    | reset l => exact absurd rfl (hr l)
    | _ => exact .inr ⟨by simp, hb (hkeep (by simp) (by simp) (by simp) (by simp) (by simp) (by simp))⟩

/-! ### A move in the transfer of a buffer -/

section
variable {s₀ s : State} {buf : Addr} {len : Count} {i : Nat} (l : s₀.Flowing buf len i s) (h : s.Handshake)
include l h

/-- In the transfer the bytes after the first are in flight (R53; log 15). -/
theorem State.Flowing.inFlight {j : Nat} (hj : 0 < j) (hlen : j ≤ len.toNat) :
    s.bufferInFlight (buf + BitVec.ofNat 16 j) = true := by
  have hlt := l.clear.lt
  have hflight : s.flight = some (s.descSource, s.descLen.toNat) :=
    (State.flight_of_not_startTx (h.seq_of_transmitting l.txState)).trans (if_neg (by simp [l.txState]))
  obtain ⟨n, rfl⟩ := Nat.exists_eq_add_of_le' hj
  rw [State.bufferInFlight_of_flight hflight, l.source, l.length, add_ofNat_succ]
  refine inRange_add ?_ (by omega)
  rw [BitVec.toNat_add]
  have : (1 : Addr).toNat = 1 := rfl
  omega

theorem State.Flowing.congr {t : State} (hp : s.par.wf = true) (v : s.SameTransfer t) : s₀.Flowing buf len i t where
  clear := v.par ▸ l.clear
  txState := v.txState.trans l.txState
  source := (v.descSource hp).trans l.source
  length := (v.descLen hp).trans l.length
  wire := by rw [v.wire]; exact l.wire
  txShift := v.txShift.trans l.txShift
  wCnt := by rw [v.wCnt]; exact l.wCnt
  wSrc := v.wSrc.trans l.wSrc
  buffer j hj hlen := (v.mem _ (.inr (l.inFlight h (by omega) hlen))).trans (l.buffer j hj hlen)

omit h in
/-- The frame that ends joins `WIRE` (R156). -/
theorem State.Flowing.wire_completeFrame : s.completeFrame.wire.map Prod.fst = s₀.sent buf (i + 1) := by
  rw [State.completeFrame_wire, List.map_append, l.wire, List.map_singleton, l.txShift, State.sent, State.sent, List.range_succ,
    List.map_append, List.append_assoc, List.map_singleton]

/-- A frame end with bytes left puts the next byte of the buffer into the transmitter, the last one ends the transfer
(R152, R153, R158). -/
theorem State.Flowing.frameEnd : s₀.Flowing buf len (i + 1) s.frameEnd ∨ s₀.Delivered buf len s.frameEnd := by
  have hcnt := l.wCnt
  rcases h.frameEnd_eq (h.transmitting l.txState).1 with ⟨hz, ha, he⟩ | ⟨hz, -, he⟩
  · refine .inr ?_
    have hi : i = len.toNat := by simpa [hz] using hcnt
    subst hi
    rw [he]
    exact ⟨l.wire_completeFrame, ha, hz, l.wSrc, rfl, by simp [l.txState]⟩
  · refine .inl ?_
    have hpos : s.wCnt.toNat ≠ 0 := fun h0 => hz (BitVec.eq_of_toNat_eq h0)
    rw [he]
    exact {
      clear := by rw [State.transfer_par]; exact l.clear
      txState := by rw [State.transfer_txState]; exact l.txState
      source := by rw [State.descSource, State.transfer_par, State.transfer_mem]; exact l.source
      length := by rw [State.descLen, State.transfer_par, State.transfer_mem]; exact l.length
      wire := by rw [State.transfer_wire]; exact l.wire_completeFrame
      txShift := by
        rw [State.transfer_txShift, State.completeFrame_writeLost]
        show s.mem.read s.wSrc = _
        rw [l.wSrc]
        exact l.buffer _ (by omega) (by omega)
      wCnt := by
        rw [State.transfer_wCnt, State.completeFrame_wCnt]
        bv_omega
      wSrc := by
        rw [State.transfer_wSrc, State.completeFrame_wSrc, l.wSrc, BitVec.add_assoc]
        exact congrArg (buf + ·) (BitVec.ofNat_add_ofNat _ _)
      buffer := fun j hj hlen => by
        rw [State.transfer_mem]
        exact l.buffer j (by omega) hlen }

/-- A move in the transfer. -/
theorem State.Flowing.move {s' : State} {m : Move} (hp : s.par.wf = true) (hm : s.Moves s' m) (hc : s'.clean) :
    (∃ j, s₀.Flowing buf len j s') ∨ s₀.Delivered buf len s' := by
  have hb : s₀.Flowing buf len i s.bare := { l with }
  rcases hm.of_transmitting h l.txState hc with ⟨-, rfl⟩ | ⟨-, v⟩
  · exact (hb.frameEnd (h.withScript [])).imp_left fun hf => ⟨_, hf⟩
  · exact .inl ⟨i, l.congr h hp v⟩

end

/-! ### A START_TX that records nothing (R137) -/

/-- The preconditions of R137 hold where START_TX, run whole, records nothing: breaking one is recorded. -/
theorem State.startTxReady_of_clean {s s' : State} {buf : Addr} {len : Count} (h : s.Handshake) (hp : s.par.wf = true)
    (hi : s.seq = .idle) (hs : exec (.startTx buf len) s = .next s') (hc : s'.clean) : s.StartTxReady buf len := by
  cases (exec_startTx buf len hi).symm.trans hs
  obtain ⟨hd, hw, ht, hl, hb⟩ := State.acceptStartTx_of_clean (State.clean_of_subset (undef_subset_perform _ _) hc)
  have hpast := State.initPast_of_done hd
  refine ⟨hp, hi, hd, hw, ht, h.idle ht, hl, hb, h.table (.inl hd), h.slot (hpast _), h.desc (hpast _), h.modeEn (hpast _), ?_⟩
  by_contra hf
  have hu : Undef.u15 ∈ ((s.acceptStartTx buf len).perform .startTx).undef :=
    (State.mem_perform_startTx_undef _ _).2 (.inr (.inr (.inr ⟨rfl, s.flowEn_format ▸ Bool.eq_true_of_not_eq_false hf⟩)))
  rw [hc] at hu
  cases hu

theorem State.sent_zero (s : State) (buf : Addr) : s.wire.map Prod.fst = s.sent buf 0 := by simp [State.sent]

/-- Accepted alone, START_TX has its operands and nothing more is done. -/
theorem State.Loading.of_accept {s : State} {buf : Addr} {len : Count} (hb : bufferValid s.par s.storage buf len = true) :
    s.Loading buf len (s.acceptStartTx buf len) where
  clear := ⟨s.storage, hb⟩
  running := ⟨0, by omega, rfl⟩
  opBuf := rfl
  opLen := rfl
  wire := s.sent_zero buf
  buffer _ _ := rfl
  source k hk h2 := by cases hk; omega
  latched k hk h4 := by cases hk; omega

/-- Run whole, START_TX has the first byte in the transmitter. -/
theorem State.StartTxReady.flowing {s : State} {buf : Addr} {len : Count} (h : s.StartTxReady buf len) :
    s.Flowing buf len 0 (s.startTxSent buf len) where
  clear := ⟨s.storage, h.buffer⟩
  txState := rfl
  source := startTxMem_source s buf len
  length := startTxMem_length s buf len
  wire := s.sent_zero buf
  txShift := congrArg s.mem.read (BitVec.add_zero buf).symm
  wCnt := rfl
  wSrc := rfl
  buffer _ _ hj := read_startTxMem_buffer h.par h.buffer hj

/-- The step that takes in a START_TX, accepted alone or run whole. -/
theorem State.Moves.start {s s' : State} {m : Move} {w : CmdWord} {buf : Addr} {len : Count} (hm : s.Moves s' m)
    (h : s.Handshake) (hp : s.par.wf = true) (hc : s'.clean) (hw : m = .present w ∨ m = .command w)
    (hd : decode w = .ok (.startTx buf len)) : s.Loading buf len s' ∨ s.Flowing buf len 0 s' := by
  cases hm with
  | command hi hi' hs =>
    obtain rfl := by simpa using hw
    cases hi'.symm.trans hd
    have hr := State.startTxReady_of_clean (h.withScript []) hp hi hs hc
    cases hr.exec.symm.trans hs
    exact .inr { hr.flowing with }
  | present hi hi' hs =>
    obtain rfl := by simpa using hw
    cases hi'.symm.trans hd
    cases hs
    obtain ⟨-, -, -, -, hb⟩ := State.acceptStartTx_of_clean hc
    exact .inl { State.Loading.of_accept hb with }
  | agent _ hs => rcases hw with rfl | rfl <;> cases hs

end Sys2Proof.Machine
end

/-! Progress (R169): in a fair run without undefined behaviour a START_TX gets to its transmission, and a transmission ends. -/

section
namespace Sys2Proof.Machine

/-! ### Runs -/

/-- What holds from a step on until something else does holds still, or that has come. -/
theorem holds_or_came {P Q : Nat → Prop} {n k : Nat} (hstep : ∀ j, P j → P (j + 1) ∨ Q (j + 1)) (hn : P n) (hk : n ≤ k) :
    P k ∨ ∃ j, n ≤ j ∧ Q j := by
  induction k, hk using Nat.le_induction with
  | base => exact .inl hn
  | succ k hk ih =>
    rcases ih with hP | hQ
    · exact (hstep k hP).imp_right fun h => ⟨k + 1, by omega, h⟩
    · exact .inr hQ

/-- What weak fairness is for: where `P` keeps a step enabled and only gives way to `Q`, and the step leads to `Q`, `Q` comes. -/
theorem WeaklyFair.leadsTo {σ : Nat → State} {enabled : State → Prop} {taken : Nat → Prop} (hf : WeaklyFair σ enabled taken)
    {P Q : State → Prop} (hen : ∀ j, P (σ j) → enabled (σ j)) (hstep : ∀ j, P (σ j) → P (σ (j + 1)) ∨ Q (σ (j + 1)))
    (htaken : ∀ j, P (σ j) → taken j → Q (σ (j + 1))) {n : Nat} (hn : P (σ n)) : ∃ k, n ≤ k ∧ Q (σ k) := by
  by_contra hno
  have hP : ∀ k, n ≤ k → P (σ k) := fun k hk =>
    (holds_or_came (P := fun j => P (σ j)) (Q := fun j => Q (σ j)) hstep hn hk).resolve_right hno
  obtain ⟨k, hk, ht⟩ := hf n fun k hk => hen k (hP k hk)
  exact hno ⟨k + 1, by omega, htaken k (hP k hk) ht⟩

/-- A run without reset that meets no undefined behaviour, with the handshake throughout (R159). -/
structure CleanRun (σ : Nat → State) (m : Nat → Move) : Prop where
  moves : ∀ n, (σ n).Moves (σ (n + 1)) (m n)
  clean : ∀ n, (σ n).clean
  par : ∀ n, (σ n).par.wf = true
  handshake : ∀ n, (σ n).Handshake

theorem IsRun.cleanRun {σ : Nat → State} {m : Nat → Move} (h : IsRun σ m) (hr : ∀ n l, m n ≠ .reset l)
    (hc : ∀ n, (σ n).clean) (hp : (σ 0).par.wf = true) (hh : (σ 0).Handshake) : CleanRun σ m := by
  have hpar : ∀ n, (σ n).par.wf = true := fun n => by
    induction n with
    | zero => exact hp
    | succ n ih =>
      rw [parametersAreConstant _ _ (h.follows n)]
      exact ih
  refine ⟨h.moves hr, hc, hpar, fun n => ?_⟩
  induction n with
  | zero => exact hh
  | succ n ih => exact (ih.withScript [m n]).step (hpar n) (h.follows n) (hc (n + 1))

/-! ### START_TX gets to its transmission -/

/-- While START_TX runs, a move is its next uop, which finds no latch pending, or leaves it where it stands with none pending
that was not (R110, R130). -/
theorem State.Moves.of_startTx {s s' : State} {m : Move} {k : Nat} (hm : s.Moves s' m) (h : s.Handshake)
    (hp : s.par.wf = true) (hc : s'.clean) (hk : k < 5) (hs : s.seq = .run .startTx (k + 1)) :
    (m ≠ .uop ∧ s'.seq = s.seq ∧ (s.loadPending = false → s'.loadPending = false))
      ∨ (m = .uop ∧ s.loadPending = false
        ∧ ((k + 1 < 5 ∧ s'.seq = .run .startTx (k + 2)) ∨ s'.txState = .transmitting)) := by
  obtain ⟨hr, hm⟩ := hm.agentMove hs
  have henv := State.agentMove_sameHandshake (s := s.bare) hp hm hc
  cases m with
  | uop =>
    obtain ⟨c, k', u, hseq, hu, -, he, rfl⟩ := State.uopStep_next hm
    obtain ⟨rfl, rfl⟩ : Cmd.startTx = c ∧ k = k' := by simpa using hs.symm.trans hseq
    refine .inr ⟨rfl, h.not_pending_of_enabled ((State.nextUop_of_run hs).trans hu) he, ?_⟩
    by_cases hend : k + 1 = 5
    · obtain rfl : k = 4 := by omega
      obtain rfl : Uop.txd = u := Option.some.inj hu
      right
      rw [State.advance_txState]
      rfl
    · refine .inl ⟨by omega, ?_⟩
      rw [State.advance_seq, uopsOf_issue]
      exact if_neg hend
  | store =>
    obtain ⟨u, -, -, rfl⟩ := State.storeStep_next hm
    refine .inl ⟨by simp, storeNext_seq _ _, fun hl => ?_⟩
    rw [storeNext_loadPending]
    exact hl
  | latch => obtain ⟨-, rfl⟩ := whenEnabled_next.1 hm; exact .inl ⟨by simp, rfl, fun _ => rfl⟩
  | latchByte =>
    obtain ⟨hl, rfl⟩ := whenEnabled_next.1 hm
    exact .inl ⟨by simp, State.latchStep_seq _, fun hl' => by cases hl.symm.trans hl'⟩
  | frameEnd =>
    obtain ⟨hbusy, -⟩ := whenEnabled_next.1 hm
    exact absurd hs (h.seq_of_transmitting (h.transmitting_of_busy hbusy) _)
  | reset l => exact absurd rfl (hr l)
  | _ =>
    have v := henv (by simp) (by simp) (by simp) (by simp) (by simp) (by simp)
    exact .inl ⟨by simp, v.seq, fun hl => v.loadPending.trans hl⟩

section
variable {σ : Nat → State} {m : Nat → Move} (r : CleanRun σ m) (f : Progress σ m)
include r f

/-- A latch pending in START_TX is taken, and START_TX stands where it stood (R169 (1)). -/
theorem CleanRun.latched {n k : Nat} (hk : k < 5) (hs : (σ n).seq = .run .startTx (k + 1)) :
    ∃ j, n ≤ j ∧ (σ j).seq = .run .startTx (k + 1) ∧ (σ j).loadPending = false := by
  cases hl : (σ n).loadPending with
  | false => exact ⟨n, le_rfl, hs, hl⟩
  | true =>
    have hstay : ∀ j, (σ j).seq = .run .startTx (k + 1) ∧ (σ j).loadPending = true →
        (σ (j + 1)).seq = .run .startTx (k + 1) := fun j ⟨hs, hl⟩ => by
      rcases (r.moves j).of_startTx (r.handshake j) (r.par j) (r.clean _) hk hs with ⟨-, hseq, -⟩ | ⟨-, hl', -⟩
      · exact hseq.trans hs
      · cases hl.symm.trans hl'
    refine f.latch.leadsTo (P := fun s => s.seq = .run .startTx (k + 1) ∧ s.loadPending = true)
      (Q := fun s => s.seq = .run .startTx (k + 1) ∧ s.loadPending = false) (fun _ hP => hP.2) (fun j hP => ?_)
      (fun j hP ht => ⟨hstay j hP, ht⟩) ⟨hs, hl⟩
    rcases Bool.eq_false_or_eq_true (σ (j + 1)).loadPending with hl' | hl'
    · exact .inl ⟨hstay j hP, hl'⟩
    · exact .inr ⟨hstay j hP, hl'⟩

/-- The sequencer issues START_TX's next uop (R169 (3)). -/
theorem CleanRun.uopIssued {n k : Nat} (hk : k < 5) (hs : (σ n).seq = .run .startTx (k + 1)) :
    ∃ j, n ≤ j ∧ ((k + 1 < 5 ∧ (σ j).seq = .run .startTx (k + 2)) ∨ (σ j).txState = .transmitting) := by
  obtain ⟨i, hi, hP⟩ := r.latched f hk hs
  have hmove := fun j (hP : (σ j).seq = .run .startTx (k + 1) ∧ (σ j).loadPending = false) =>
    (r.moves j).of_startTx (r.handshake j) (r.par j) (r.clean _) hk hP.1
  refine (f.uop.leadsTo (P := fun s => s.seq = .run .startTx (k + 1) ∧ s.loadPending = false)
    (Q := fun s => (k + 1 < 5 ∧ s.seq = .run .startTx (k + 2)) ∨ s.txState = .transmitting)
    (fun j hP => ?_) (fun j hP => ?_) (fun j hP ht => ?_) hP).imp fun j ⟨hj, hQ⟩ => ⟨hi.trans hj, hQ⟩
  · have hn : (σ j).nextUop = startTxUops[k]? := State.nextUop_of_run hP.1
    rw [hn, List.getElem?_eq_getElem hk]
    simp [State.uopEnabled, hP.2]
  · rcases hmove j hP with ⟨-, hseq, hl⟩ | ⟨-, -, hQ⟩
    · exact .inl ⟨hseq.trans hP.1, hl hP.2⟩
    · exact .inr hQ
  · rcases hmove j hP with ⟨hu, -⟩ | ⟨-, -, hQ⟩
    · exact absurd ht hu
    · exact hQ

/-- START_TX gets to its transmission: by induction on the uops that are left. -/
theorem CleanRun.transmitting {n : Nat} (hs : (σ n).AtStartTx) : ∃ j, n ≤ j ∧ (σ j).txState = .transmitting := by
  obtain ⟨k, hk, hs⟩ := hs
  induction hd : 5 - k generalizing n k with
  | zero => omega
  | succ d ih =>
    obtain ⟨j, hj, ⟨hlt, hseq⟩ | ht⟩ := r.uopIssued f hk hs
    · obtain ⟨i, hi, ht⟩ := ih (k + 1) hlt hseq (by omega)
      exact ⟨i, by omega, ht⟩
    · exact ⟨j, hj, ht⟩

end

/-! ### A transmission ends -/

/-- Nothing is being sent and START_TX is not running. -/
def State.AtRest (s : State) : Prop := s.txState = .idle ∧ ∀ k, s.seq ≠ .run .startTx k

/-- In a transmission a frame end leaves one byte fewer or ends it, and no other move changes the count (R152, R158). -/
theorem State.Moves.count_of_transmitting {s s' : State} {m : Move} (hm : s.Moves s' m) (h : s.Handshake)
    (ht : s.txState = .transmitting) (hc : s'.clean) :
    (m ≠ .frameEnd ∧ s'.txState = .transmitting ∧ s'.wCnt = s.wCnt)
      ∨ s'.AtRest ∨ (s'.txState = .transmitting ∧ s'.wCnt.toNat + 1 = s.wCnt.toNat) := by
  have hh : s.bare.Handshake := h.withScript []
  rcases hm.of_transmitting h ht hc with ⟨-, rfl⟩ | ⟨hne, v⟩
  · rcases hh.frameEnd_eq (h.transmitting ht).1 with ⟨-, -, he⟩ | ⟨hz, -, he⟩
    · refine .inr (.inl ?_)
      rw [he]
      exact ⟨by simp [State.bare, ht], h.seq_of_transmitting ht⟩
    · have hz : s.wCnt ≠ 0 := hz
      refine .inr (.inr ?_)
      rw [he, State.transfer_txState, State.transfer_wCnt, State.completeFrame_wCnt]
      exact ⟨ht, by show (s.wCnt - 1).toNat + 1 = s.wCnt.toNat; bv_omega⟩
  · exact .inl ⟨hne, v.txState.trans ht, v.wCnt⟩

section
variable {σ : Nat → State} {m : Nat → Move} (r : CleanRun σ m) (f : Progress σ m)
include r f

/-- A transmission ends: by induction on the bytes that are left (R169 (2)). -/
theorem CleanRun.atRest_of_transmitting {n : Nat} (ht : (σ n).txState = .transmitting) : ∃ j, n ≤ j ∧ (σ j).AtRest := by
  induction hc : (σ n).wCnt.toNat using Nat.strong_induction_on generalizing n with
  | _ c ih =>
    have hmove := fun j (hP : (σ j).txState = .transmitting ∧ (σ j).wCnt.toNat = c) =>
      (r.moves j).count_of_transmitting (r.handshake j) hP.1 (r.clean _)
    have hlead : ∃ j, n ≤ j ∧ ((σ j).AtRest ∨ ((σ j).txState = .transmitting ∧ (σ j).wCnt.toNat < c)) := by
      refine f.frameEnd.leadsTo (P := fun s => s.txState = .transmitting ∧ s.wCnt.toNat = c)
        (Q := fun s => s.AtRest ∨ (s.txState = .transmitting ∧ s.wCnt.toNat < c))
        (fun j hP => ((r.handshake j).transmitting hP.1).1) (fun j hP => ?_) (fun j hP hm => ?_) ⟨ht, hc⟩
      · rcases hmove j hP with ⟨-, ht', hw⟩ | hrest | ⟨ht', hw⟩
        · exact .inl ⟨ht', hw ▸ hP.2⟩
        · exact .inr (.inl hrest)
        · exact .inr (.inr ⟨ht', by omega⟩)
      · rcases hmove j hP with ⟨hne, -⟩ | hrest | ⟨ht', hw⟩
        · exact absurd hm hne
        · exact .inl hrest
        · exact .inr ⟨ht', by omega⟩
    obtain ⟨j, hj, hrest | ⟨ht', hlt⟩⟩ := hlead
    · exact ⟨j, hj, hrest⟩
    · obtain ⟨i, hi, hrest⟩ := ih _ hlt ht' rfl
      exact ⟨i, by omega, hrest⟩

theorem CleanRun.atRest {n : Nat} (h : (σ n).AtStartTx ∨ (σ n).txState = .transmitting) : ∃ j, n ≤ j ∧ (σ j).AtRest := by
  rcases h with h | h
  · obtain ⟨i, hi, ht⟩ := r.transmitting f h
    obtain ⟨j, hj, hrest⟩ := r.atRest_of_transmitting f ht
    exact ⟨j, by omega, hrest⟩
  · exact r.atRest_of_transmitting f h

/-! ### Every START_TX delivers its buffer -/

/-- From where START_TX has taken in its operands the buffer is delivered: the transfer goes on until it has been, and it
does not go on for ever. -/
theorem CleanRun.delivered {s₀ : State} {buf : Addr} {len : Count} {n : Nat}
    (h : s₀.Loading buf len (σ n) ∨ ∃ i, s₀.Flowing buf len i (σ n)) : ∃ j, n ≤ j ∧ s₀.Delivered buf len (σ j) := by
  obtain ⟨k, hk, hidle, hseq⟩ := r.atRest f (h.imp (·.running) fun ⟨_, l⟩ => l.txState)
  refine (holds_or_came (P := fun j => s₀.Loading buf len (σ j) ∨ ∃ i, s₀.Flowing buf len i (σ j))
    (Q := fun j => s₀.Delivered buf len (σ j)) (fun j hP => ?_) h hk).resolve_left ?_
  · rcases hP with l | ⟨i, l⟩
    · exact .inl ((l.move (r.handshake j) (r.par j) (r.moves j) (r.clean _)).imp_right fun l => ⟨0, l⟩)
    · exact (l.move (r.handshake j) (r.par j) (r.moves j) (r.clean _)).imp_left .inr
  · rintro (l | ⟨i, l⟩)
    · obtain ⟨i, -, hs⟩ := l.running
      exact hseq _ hs
    · cases hidle.symm.trans l.txState

end

/-- Settles O60: the buffer is delivered by what every move does to the transfer (`State.Loading.move`, `State.Flowing.move`)
and by R169, under which START_TX gets to its transmission and the transmission ends (`CleanRun.atRest`). -/
theorem fairRunsDeliverTheBuffer : Obligations.FairRunsDeliverTheBuffer := by
  intro σ m hrun f hreset hclean hp hh
  have r := hrun.cleanRun hreset hclean hp hh
  refine ⟨fun n w buf len hm hw => ?_, fun n hne => ?_⟩
  · have hstart := (r.moves n).start (r.handshake n) (r.par n) (r.clean _) hm hw
    obtain ⟨k, hk, d⟩ := r.delivered f (hstart.imp_right fun l => ⟨0, l⟩)
    exact ⟨k, hk, d.wire, d.arm, d.wCnt, d.wSrc, d.txBusy, d.txState⟩
  · have h : (σ n).AtStartTx ∨ (σ n).txState = .transmitting := by
      cases ht : (σ n).txState with
      | idle => exact absurd ht hne
      | transmitting => exact .inr rfl
      | armed =>
        rcases ((r.handshake n).armed ht).2 with hs | hs
        · exact .inl ⟨3, by omega, hs⟩
        · exact .inl ⟨4, by omega, hs⟩
    obtain ⟨k, hk, hidle, -⟩ := r.atRest f h
    exact ⟨k, hk, hidle⟩

end Sys2Proof.Machine
end

/-! The handshake over every step, and what it keeps out of `UNDEF` (R159, R154). -/

section
namespace Sys2Proof.Machine

/-- Settles O52: a reset leaves the handshake in place, and any other step that leaves `UNDEF` empty found it empty. -/
theorem stepKeepsHandshake : Obligations.StepKeepsHandshake := by
  intro s s' hp hprot hs hc
  by_cases hr : ∃ l ms, s.script = .reset l :: ms
  · obtain ⟨l, ms, hsc⟩ := hr
    rw [step_of_move (by simp) (by simp) hsc] at hs
    cases hs
    exact State.ofLaunch_handshake _ _ _ _
  · have hr : ∀ l ms, s.script ≠ .reset l :: ms := fun l ms hsc => hr ⟨l, ms, hsc⟩
    have h : s.Handshake := hprot (State.clean_of_subset (undefIsSticky s s' hs hr) hc)
    exact h.step hp hs hc

/-! ### The reasons that the protocol bounds (R154, R171) -/

/-- The reasons that come of an untimely trigger, a collision, foreign descriptor fields or a disabled transmitter. -/
def Undef.bounded : Undef → Bool
  | .u8 | .u10 | .u13 | .u22 | .u23 => true
  | .u1 | .u2 | .u3 | .u4 | .u5 | .u7 | .u9 | .u11 | .u12 | .u15 => false

/-- Each of those reasons stands in the set only with one it is reachable through (the table of 93), and an untimely trigger
not at all. -/
structure Accounted (us : List Undef) : Prop where
  early : .u8 ∉ us
  empty : .u10 ∉ us
  collision : .u13 ∈ us → .u1 ∈ us ∨ .u12 ∈ us
  foreignFields : .u22 ∈ us → .u4 ∈ us ∨ .u9 ∈ us ∨ .u12 ∈ us
  disabled : .u23 ∈ us → .u4 ∈ us ∨ .u12 ∈ us

theorem State.clean.accounted {s : State} (h : s.clean) : Accounted s.undef := by
  rw [show s.undef = [] from h]
  constructor <;> simp

/-- A reason of no such kind joins the set. -/
theorem Accounted.addUndef {us : List Undef} (h : Accounted us) (c : Bool) {u : Undef} (hu : u.bounded = false) :
    Accounted (addUndef c u us) := by
  have hmem : ∀ v, v.bounded = true → v ∈ Machine.addUndef c u us → v ∈ us := fun v hv hin =>
    ((mem_addUndef c u v us).1 hin).resolve_left fun ⟨_, he⟩ => by simp [he, hu] at hv
  have hsub : ∀ v, v ∈ us → v ∈ Machine.addUndef c u us := fun v hv => (mem_addUndef c u v us).2 (.inr hv)
  exact {
    early := fun hin => h.early (hmem _ rfl hin)
    empty := fun hin => h.empty (hmem _ rfl hin)
    collision := fun hin => (h.collision (hmem _ rfl hin)).imp (hsub _) (hsub _)
    foreignFields := fun hin => (h.foreignFields (hmem _ rfl hin)).imp (hsub _) (Or.imp (hsub _) (hsub _))
    disabled := fun hin => (h.disabled (hmem _ rfl hin)).imp (hsub _) (hsub _) }

/-- A write of `UDBUF` where a busy or disabled transmitter is accounted for (R155). -/
theorem Accounted.frameStart {s : State} (h : Accounted s.undef) (hb : s.txBusy = true → .u1 ∈ s.undef ∨ .u12 ∈ s.undef)
    (hm : s.modeEn = false → .u4 ∈ s.undef ∨ .u12 ∈ s.undef) (b : Byte) : Accounted (s.frameStart b).undef := by
  have hmem := State.mem_frameStart_undef b s
  have hsub := @undef_subset_frameStart b s
  exact {
    early := fun hin => h.early (by simpa using (hmem _).1 hin)
    empty := fun hin => h.empty (by simpa using (hmem _).1 hin)
    collision := fun hin => by
      have hin : .u13 ∈ s.undef ∨ s.txBusy = true := by simpa using (hmem _).1 hin
      exact (hin.elim h.collision hb).imp (@hsub _) (@hsub _)
    foreignFields := fun hin =>
      (h.foreignFields (by simpa using (hmem _).1 hin)).imp (@hsub _) (Or.imp (@hsub _) (@hsub _))
    disabled := fun hin => by
      have hin : .u23 ∈ s.undef ∨ s.modeEn = false := by simpa using (hmem _).1 hin
      exact (hin.elim h.disabled hm).imp (@hsub _) (@hsub _) }

/-- Which reasons LATCH adds (R73, R150). -/
theorem State.mem_latch_undef (s : State) (u : Undef) :
    u ∈ s.latch.undef ↔ u ∈ s.undef ∨ (u = .u22 ∧ s.latchForeign = true) ∨ (u = .u9 ∧ s.latchLost = true) := by
  simp only [State.latch_undef, mem_addUndef]
  tauto

/-- LATCH where foreign fields are accounted for (R73, R150). -/
theorem Accounted.latch {s : State} (h : Accounted s.undef)
    (hf : s.latchForeign = true → .u4 ∈ s.undef ∨ s.latchLost = true) : Accounted s.latch.undef := by
  have hmem := s.mem_latch_undef
  have hsub := undef_subset_latch s
  exact {
    early := fun hin => h.early (by simpa using (hmem _).1 hin)
    empty := fun hin => h.empty (by simpa using (hmem _).1 hin)
    collision := fun hin => (h.collision (by simpa using (hmem _).1 hin)).imp (@hsub _) (@hsub _)
    foreignFields := fun hin => by
      have hin : .u22 ∈ s.undef ∨ s.latchForeign = true := by simpa using (hmem _).1 hin
      rcases hin with hin | hfor
      · exact (h.foreignFields hin).imp (@hsub _) (Or.imp (@hsub _) (@hsub _))
      · exact (hf hfor).imp (@hsub _) fun hl => .inl ((hmem _).2 (.inr (.inr ⟨rfl, hl⟩)))
    disabled := fun hin => (h.disabled (by simpa using (hmem _).1 hin)).imp (@hsub _) (@hsub _) }

/-! ### What each part of a step records (R154, R155, R159) -/

/-- INIT has enabled the transmitter (R104). -/
theorem State.Handshake.modeEn_of_done {s : State} (h : s.Handshake) (hd : s.initDone = true) : s.modeEn = true :=
  h.modeEn (State.initPast_of_done hd _)

/-- TXD finds the transmitter free and enabled (R135, R159). -/
theorem State.Handshake.accounted_issue {s : State} {c : Cmd} {k : Nat} {u : Uop} (h : s.Handshake)
    (ha : Accounted s.undef) (hs : s.seq = .run c (k + 1)) (hu : (uopsOf s c)[k]? = some u) :
    Accounted (issue u s).undef := by
  cases u with
  | txd =>
    obtain ⟨rfl, rfl⟩ := at_of_txd hu
    have hb : s.txBusy = false := (h.armed (h.txPosition 5 hs)).1
    have hm : s.modeEn = true := h.modeEn_of_done (h.initDone_of_startTx hs)
    exact Accounted.frameStart (s := s.emit [.txd (s.mem.read s.opBuf)]) ha (fun h' => absurd h' (by simp [hb]))
      (fun h' => absurd (hm.symm.trans h') (by decide)) (s.mem.read s.opBuf)
  | descSrc => exact ha.addUndef _ rfl
  | armTx => exact ha.addUndef _ rfl
  | _ => exact ha

theorem State.Handshake.accounted_uopStep {s s' : State} (h : s.Handshake) (ha : Accounted s.undef)
    (hs : s.uopStep = .next s') : Accounted s'.undef := by
  obtain ⟨c, k, u, hseq, hu, -, -, rfl⟩ := State.uopStep_next hs
  rw [State.advance_undef]
  exact h.accounted_issue ha hseq hu

theorem accounted_storeNext {s : State} (ha : Accounted s.undef) (u : Uop) : Accounted (storeNext u s).undef := by
  unfold storeNext
  split
  · exact ha.addUndef _ rfl
  · exact ha

/-- A LATCH that reads the block's own fields is not foreign (R73, R74). -/
theorem State.latchForeign_of_descFixed {s : State}
    (hb : ∀ k, s.latchByte k = s.mem.read (s.par.descAddr + BitVec.ofNat 16 k)) (hd : s.descFixed) :
    s.latchForeign = false := by
  have hdst : s.latchDst = udbufAddr s.par := by rw [State.latchDst, hb, hb]; exact hd.1
  have hctl : s.latchCtl = blockCtl s.par := by rw [State.latchCtl, hb, hb, hb]; exact hd.2
  simp [State.latchForeign, hdst, hctl]

/-- A pending LATCH knows its place (R150). -/
theorem State.Handshake.latchLost_of_pending {s : State} (h : s.Handshake) (hp : s.loadPending = true) :
    s.latchLost = false := by
  rw [State.latchLost, h.latchRead_place hp]
  rfl

theorem State.Handshake.latch_undef {s : State} (h : s.Handshake) (hp : s.loadPending = true) :
    s.latch.undef = s.undef := by
  rw [State.latch_undef, State.latchForeign_of_descFixed (h.latchByte_eq hp) (h.of_pending hp).2.2,
    h.latchLost_of_pending hp, addUndef_false, addUndef_false]

theorem State.Handshake.latchStep_undef {s : State} (h : s.Handshake) (hp : s.loadPending = true) :
    s.latchStep.undef = s.undef := by
  unfold State.latchStep
  split
  · rw [State.readDescByte_undef, h.latchLost_of_pending hp, addUndef_false]
  · exact h.latch_undef hp

/-- FRAME_END is never untimely, and TRANSFER finds the transmitter free and enabled (R152, R154). -/
theorem State.Handshake.accounted_frameEnd {s : State} (h : s.Handshake) (ha : Accounted s.undef) (hb : s.txBusy = true) :
    Accounted s.frameEnd.undef := by
  rcases h.frameEnd_eq hb with ⟨-, -, he⟩ | ⟨-, -, he⟩
  · rw [he]
    exact ha
  · have hm : s.modeEn = true := h.modeEn_of_done (h.initDone_of_transmitting (h.transmitting_of_busy hb))
    rw [he]
    exact Accounted.frameStart (s := s.completeFrame) ha (fun h' => absurd h' (by simp))
      (fun h' => absurd (hm.symm.trans h') (by decide)) (s.mem.read s.wSrc)

theorem State.Handshake.accounted_progress {s s' : State} (h : s.Handshake) (ha : Accounted s.undef)
    (hs : s.progress = .next s') : Accounted s'.undef := by
  rcases State.progress_next hs with hs | ⟨-, hp, rfl⟩ | ⟨-, hp, rfl⟩ | ⟨-, -, hb, rfl⟩ | ⟨-, -, -, rfl⟩
  · exact h.accounted_uopStep ha hs
  · rwa [h.latch_undef hp]
  · rwa [h.latch_undef hp]
  · exact h.accounted_frameEnd ha hb
  · exact ha

/-- A non-owner's write of `UDBUF` is U12, which accounts for what it meets (R34). -/
theorem Accounted.foreignUdbuf {s : State} (ha : Accounted s.undef) (b : Byte) :
    Accounted ((s.recordIf true .u12).frameStart b).undef := by
  have h12 : .u12 ∈ (s.recordIf true .u12).undef := by simp
  have ha12 : Accounted (s.recordIf true .u12).undef := ha.addUndef true rfl
  exact ha12.frameStart (fun _ => .inr h12) (fun _ => .inr h12) b

theorem accounted_callerWrite {s : State} (ha : Accounted s.undef) (a : Addr) (b : Byte) :
    Accounted (s.callerWrite a b).undef := by
  unfold State.callerWrite
  split
  · exact ha.foreignUdbuf b
  · exact (ha.addUndef (u := .u12) _ rfl).addUndef (u := .u7) _ rfl

theorem accounted_sharedWrite {s : State} (ha : Accounted s.undef) (w : SharedWrite) :
    Accounted (s.sharedWrite w).undef := by
  have h12 : Accounted (s.recordIf (w.onlyIdle && decide (s.seq ≠ .idle)) .u12).undef := ha.addUndef _ rfl
  cases w <;> exact h12

theorem accounted_foreignWrite {s : State} (ha : Accounted s.undef) (w : ForeignWrite) :
    Accounted (s.foreignWrite w).undef := by
  have h12 : Accounted (s.recordIf true .u12).undef := ha.addUndef true rfl
  cases w with
  | udbuf b => exact ha.foreignUdbuf b
  | arm b => cases b <;> exact h12
  | _ => exact h12

theorem State.Handshake.accounted_agentMove {m : Move} {s s' : State} (h : s.Handshake) (ha : Accounted s.undef)
    (hm : State.agentMove m s = .next s') : Accounted s'.undef := by
  cases m with
  | command _ => cases hm
  | present _ => cases hm
  | uop => exact h.accounted_uopStep ha hm
  | store => obtain ⟨u, -, -, rfl⟩ := State.storeStep_next hm; exact accounted_storeNext ha u
  | latch => obtain ⟨hp, rfl⟩ := whenEnabled_next.1 hm; rwa [h.latch_undef hp]
  | latchByte => obtain ⟨hp, rfl⟩ := whenEnabled_next.1 hm; rwa [h.latchStep_undef hp]
  | frameEnd => obtain ⟨hb, rfl⟩ := whenEnabled_next.1 hm; exact h.accounted_frameEnd ha hb
  | rxByte _ => obtain ⟨-, rfl⟩ := whenEnabled_next.1 hm; exact ha
  | rxHandler => obtain ⟨-, rfl⟩ := whenEnabled_next.1 hm; exact ha
  | tableInstall => cases hm; exact ha
  | callerWrite a b => cases hm; exact accounted_callerWrite ha a b
  | shared w => cases hm; exact accounted_sharedWrite ha w
  | foreign w => cases hm; exact accounted_foreignWrite ha w
  | powerOn => cases hm; exact ha
  | storage _ => cases hm; exact ha.addUndef (u := .u7) _ rfl
  | reset l => cases hm; exact State.clean.accounted (s := s.resetInput l) rfl

/-! ### What acceptance and a command run whole record (R65, R137) -/

theorem accounted_acceptInit {s : State} (ha : Accounted s.undef) : Accounted s.acceptInit.undef :=
  ((ha.addUndef (u := .u5) _ rfl).addUndef (u := .u9) _ rfl).addUndef (u := .u11) _ rfl

theorem accounted_acceptStartTx {s : State} (ha : Accounted s.undef) (buf : Addr) (len : Count) :
    Accounted (s.acceptStartTx buf len).undef :=
  ((((ha.addUndef (u := .u4) _ rfl).addUndef (u := .u1) _ rfl).addUndef (u := .u2) _ rfl).addUndef (u := .u3) _ rfl).addUndef
    (u := .u11) _ rfl

theorem accounted_acceptCommand {i : Instr} {s s' : State} (ha : Accounted s.undef) (hs : acceptCommand i s = .next s') :
    Accounted s'.undef := by
  cases i with
  | init => cases hs; exact accounted_acceptInit ha
  | setMode cfg => cases hs; exact ha.addUndef (u := .u11) _ rfl
  | startTx buf len => cases hs; exact accounted_acceptStartTx ha buf len
  | rdReg reg =>
    simp only [acceptCommand] at hs
    split at hs <;> cases hs
    exact ha.addUndef (u := .u11) _ rfl

/-- INIT's LATCH finds the descriptor DESC_INIT has written, or no table, which is U9 (R107, R150). -/
theorem accounted_installChannel {s : State} (h0 : s.stored = 0) (ha : Accounted s.undef) :
    Accounted (installChannel s).undef := by
  cases ht : s.dmaTableValid with
  | true =>
    obtain ⟨-, -, -, -, -, hkept⟩ := installChannel_of_table h0 ht
    rwa [hkept]
  | false =>
    have hlost : (uopSlot (uopDescInit s)).armChannel.latchLost = true :=
      (State.latchLost_of_fresh rfl).trans (congrArg not ht)
    exact Accounted.latch (s := (uopSlot (uopDescInit s)).armChannel) ha fun _ => .inr hlost

theorem accounted_perform_init {s : State} (ha : Accounted s.undef) : Accounted (s.acceptInit.perform .init).undef := by
  have hconf : Accounted (configure s.acceptInit).undef := by
    rw [configure_undef]
    exact accounted_acceptInit ha
  rw [State.perform_init, enableRx_eq]
  exact accounted_installChannel (configure_stored _) hconf

/-- After INIT the LATCH of START_TX finds the block's own fields (R74, R134). -/
theorem State.Handshake.latchForeign_startTx {s : State} (h : s.Handshake) (hd : s.initDone = true) (buf : Addr)
    (len : Count) : (s.acceptStartTx buf len).startTxArmed.latchForeign = false := by
  have hmem : (s.acceptStartTx buf len).startTxArmed.mem = startTxMem s buf len := by
    rw [State.startTxArmed_eq rfl]
    rfl
  have hslot : (s.acceptStartTx buf len).startTxArmed.dmaSlot = s.par.descAddr := h.slot (State.initPast_of_done hd _)
  refine State.latchForeign_of_descFixed (fun k => ?_) ?_
  · rw [State.latchByte_of_fresh (s := (s.acceptStartTx buf len).startTxArmed) rfl (h.table (.inl hd)), hslot]
    rfl
  · rw [State.descFixed_iff, hmem]
    exact startTxMem_hasFixed buf len (s.descFixed_iff.1 (h.desc (State.initPast_of_done hd _)))

/-- START_TX run whole: without INIT it is U4, with a frame on the wire U1, and else TXD finds the transmitter free and
enabled (R137, R159). -/
theorem State.Handshake.accounted_perform_startTx {s : State} (h : s.Handshake) (ha : Accounted s.undef) (buf : Addr)
    (len : Count) : Accounted ((s.acceptStartTx buf len).perform .startTx).undef := by
  have harmed : Accounted (s.acceptStartTx buf len).startTxArmed.undef := by
    rw [State.startTxArmed_eq rfl]
    exact (accounted_acceptStartTx ha buf len).addUndef (u := .u1) _ rfl
  have hsub : (s.acceptStartTx buf len).undef ⊆ (s.acceptStartTx buf len).startTxArmed.undef := by
    rw [State.startTxArmed_eq rfl]
    exact fun u hu => (mem_addUndef ..).2 (.inr hu)
  have h4 : s.initDone = false → .u4 ∈ (s.acceptStartTx buf len).startTxArmed.undef := fun hd =>
    hsub (by simp [State.acceptStartTx, hd])
  have h1 : s.txBusy = true → .u1 ∈ (s.acceptStartTx buf len).startTxArmed.undef := fun hb =>
    hsub (by simp [State.acceptStartTx, h.transmitting_of_busy hb])
  have hlatch : Accounted (s.startTxLatched buf len).undef := harmed.latch fun hf => .inl (h4 (by
    cases hd : s.initDone with
    | false => rfl
    | true => simp [h.latchForeign_startTx hd] at hf))
  have hkept := undef_subset_latch (s.acceptStartTx buf len).startTxArmed
  refine Accounted.frameStart (s := s.startTxLatched buf len) hlatch (fun hb => .inl (hkept (h1 hb)))
    (fun hm => .inl (hkept (h4 ?_))) ((s.startTxLatched buf len).mem.read buf)
  cases hd : s.initDone with
  | false => rfl
  | true => exact absurd ((h.modeEn_of_done hd).symm.trans hm) (by decide)

theorem State.Handshake.accounted_exec {i : Instr} {s s' : State} (h : s.Handshake) (ha : Accounted s.undef)
    (hi : s.seq = .idle) (hs : Machine.exec i s = .next s') : Accounted s'.undef := by
  rcases exec_next hi hs with ⟨-, rfl⟩ | ⟨cfg, -, rfl⟩ | ⟨buf, len, -, rfl⟩ | ⟨reg, -, -, rfl⟩
  · exact accounted_perform_init ha
  · exact ha.addUndef (u := .u11) _ rfl
  · exact h.accounted_perform_startTx ha buf len
  · exact ha.addUndef (u := .u11) _ rfl

/-- Settles O53: no part of a step meets one of the bounded reasons that is not accounted for. -/
theorem handshakePreventsCollisions : Obligations.HandshakePreventsCollisions := by
  intro s s' _ hc h hs
  suffices ha : Accounted s'.undef from ⟨ha.early, ha.empty, ha.collision, ha.foreignFields, ha.disabled⟩
  rcases step_next hs with ⟨-, hs⟩ | ⟨w, ms, -, hi, i, -, hs⟩ | ⟨w, ms, -, -, i, -, hs⟩ | ⟨-, hs⟩ | ⟨m, ms, -, hs⟩
  · exact h.accounted_progress hc.accounted hs
  · exact (h.withScript ms).accounted_exec hc.accounted hi hs
  · exact accounted_acceptCommand (s := { s with script := ms }) hc.accounted hs
  · exact h.accounted_progress hc.accounted hs
  · exact (h.withScript ms).accounted_agentMove hc.accounted hs

end Sys2Proof.Machine
end

/-! LATCH and FRAME_END as moves of the script (R150 to R158). -/

section
namespace Sys2Proof.Machine

/-! ### LATCH (R150) -/

theorem step_latch_of_not_pending {s : State} {ms : List Move} (hsc : s.script = .latch :: ms) (hp : s.loadPending = false) :
    step s = .fault .stepNotEnabled :=
  (step_of_move (by simp) (by simp) hsc).trans (if_neg (ne_true_of_eq_false hp))

/-- Settles O30: with the table a fresh LATCH is one record update, without it the place is unknown. -/
theorem latchReadsDescriptor : Obligations.LatchReadsDescriptor := by
  intro s ms hsc hl
  refine ⟨step_latch_of_not_pending hsc, fun hp ht => ?_, fun hp ht => ⟨_, step_latch hsc hp, ?_⟩⟩
  · have hlatch := State.latch_of_table (s := { s with script := ms }) hl ht
    obtain ⟨hvlen, h6, h7⟩ := (ctlOfBytes_eq_iff _ (s.mem.read (s.dmaSlot + 4)) (s.mem.read (s.dmaSlot + 6))
      (s.mem.read (s.dmaSlot + 7))).1 rfl
    exact ⟨_, (step_latch hsc hp).trans (congrArg _ hlatch), rfl, rfl, rfl, hvlen, h6.symm, h7.symm, rfl⟩
  · have hlost : State.latchLost { s with script := ms } = true :=
      (State.latchLost_of_fresh hl).trans (congrArg not ht)
    simp [hlost]

/-! ### FRAME_END (R151 to R158) -/

theorem step_frameEnd {s : State} {ms : List Move} (hsc : s.script = .frameEnd :: ms) (hb : s.txBusy = true) :
    step s = .next (State.frameEnd { s with script := ms }) :=
  (step_of_move (by simp) (by simp) hsc).trans (if_pos hb)

theorem step_frameEnd_of_not_busy {s : State} {ms : List Move} (hsc : s.script = .frameEnd :: ms) (hb : s.txBusy = false) :
    step s = .fault .stepNotEnabled :=
  (step_of_move (by simp) (by simp) hsc).trans (if_neg (ne_true_of_eq_false hb))

/-- The count that reaches 0 is the one that was 1, and disarms the channel (R153). -/
theorem State.transfer_arm_of_armed {s : State} (ha : s.arm = true) : s.transfer.arm = decide (s.wCnt ≠ 1) := by
  have hone : s.wCnt - 1 = 0 ↔ s.wCnt = 1 := sub_eq_zero
  rw [State.transfer_arm, ha]
  by_cases h1 : s.wCnt = 1
  · rw [if_pos (hone.2 h1), decide_eq_false (not_not.2 h1)]
  · rw [if_neg (mt hone.1 h1), decide_eq_true h1]

/-- TRANSFER at the end of a frame is one record update, with the reasons of its write of `UDBUF` (R152, R155, R164). -/
theorem State.frameEnd_of_transfer {s : State} (hb : s.txBusy = true) (ha : s.arm = true) (hp : s.loadPending = false)
    (hc : s.wCnt ≠ 0) :
    s.frameEnd = { s with
      wire := s.wire ++ [(s.txShift, frame s.txFmt s.txShift)]
      txShift := s.mem.read s.wSrc
      txFmt := s.format
      wSrc := s.wSrc + 1
      wCnt := s.wCnt - 1
      arm := decide (s.wCnt ≠ 1)
      undef := addUndef (s.ufmt.getLsbD 6) .u15 (addUndef (!s.modeEn) .u23 s.undef) } := by
  have harm : s.completeFrame.transfer.arm = decide (s.wCnt ≠ 1) := State.transfer_arm_of_armed ha
  have hflow : flowEn s.completeFrame.format = s.ufmt.getLsbD 6 := State.flowEn_format _
  rw [State.frameEnd_of_armed ha hp hc, ← harm]
  simp only [State.transfer, State.frameStart, State.completeFrame_writeLost, hflow]
  simp [State.completeFrame, State.format, State.orderBit, State.modeEn, hb]

/-- Settles O34: TRANSFER, and the two reasons its write of `UDBUF` can add. -/
theorem frameEndTransfersOneByte : Obligations.FrameEndTransfersOneByte := by
  intro s ms hsc hb ha hp hc
  have he := State.frameEnd_of_transfer (s := { s with script := ms }) hb ha hp hc
  rw [State.format_eq] at he
  refine ⟨addUndef (s.ufmt.getLsbD 6) .u15 (addUndef (!s.modeEn) .u23 s.undef), (step_frameEnd hsc hb).trans (congrArg _ he),
    fun hm hf => ?_, fun u => ?_⟩
  · rw [hm, hf]
    rfl
  · simp only [mem_addUndef, Bool.not_eq_true']
    tauto

/-- Settles O35: a disarmed channel ignores the event, and the transmission ends. -/
theorem frameEndEndsTransmission : Obligations.FrameEndEndsTransmission := by
  refine fun s ms hsc => ⟨fun hb ha => ?_, step_frameEnd_of_not_busy hsc⟩
  rw [step_frameEnd hsc hb, State.frameEnd_of_disarmed (s := { s with script := ms }) ha]
  rfl

/-- Settles O36: FRAME_END on an armed channel, before its latch and with nothing to move. -/
theorem untimelyTriggersAreRecorded : Obligations.UntimelyTriggersAreRecorded := fun s ms hsc hb ha =>
  ⟨State.frameEnd { s with script := ms }, step_frameEnd hsc hb, State.frameEnd_wire _, State.frameEnd_mem _,
    State.frameEnd_effects _, State.u8_mem_frameEnd (s := { s with script := ms }) ha,
    State.u10_mem_frameEnd (s := { s with script := ms }) ha⟩

end Sys2Proof.Machine
end

/-! The frame bit time by bit time, its parity, and the line (R160 to R163). -/

section
namespace Sys2Proof.Machine

/-! ### The parts of a frame (R160) -/

@[simp] theorem length_dataBits (f b : Byte) : (dataBits f b).length = 8 := by
  unfold dataBits
  split <;> rfl

@[simp] theorem length_ninthBit (f b : Byte) : (ninthBit f b).length = if nine f then 1 else 0 := by
  unfold ninthBit
  split
  · split <;> rfl
  · rfl

@[simp] theorem length_stopBits (f : Byte) : (stopBits f).length = if stop2 f then 2 else 1 := by
  unfold stopBits
  split <;> rfl

/-- The data bit that stands in place `k` of the eight, by `ORDER`. -/
theorem getElem?_dataBits (f b : Byte) (k : Fin 8) :
    (dataBits f b)[k.val]? = some (b.getLsbD (if order f then 7 - k.val else k.val)) := by
  have hlsb : ∀ j : Fin 8, (bitsLsbFirst b)[j.val]? = some (b.getLsbD j.val) := fun j => by fin_cases j <;> rfl
  unfold dataBits
  split
  · rw [List.getElem?_reverse k.isLt]
    exact hlsb ⟨7 - k.val, by omega⟩
  · exact hlsb k

/-- Every stop bit is at the stop level. -/
theorem eq_stopPol_of_mem_stopBits {f : Byte} {l : Bool} (h : l ∈ stopBits f) : l = stopPol f := by
  unfold stopBits at h
  split at h <;> simpa using h

theorem length_frame (f b : Byte) : (frame f b).length = 10 + (if nine f then 1 else 0) + (if stop2 f then 1 else 0) := by
  simp only [frame, List.length_append, List.length_singleton, length_dataBits, length_ninthBit, length_stopBits]
  cases stop2 f <;> simp <;> omega

/-- The data bits follow the start bit. -/
theorem getElem?_frame_data (f b : Byte) {k : Nat} (hk : k < 8) : (frame f b)[1 + k]? = (dataBits f b)[k]? := by
  rw [frame, List.append_assoc, List.append_assoc, List.getElem?_append_right (by simp), List.getElem?_append_left (by simpa)]
  simp

/-- The ninth bit, where there is one, follows the data bits. -/
theorem getElem?_frame_ninth (f b : Byte) (h : nine f = true) : (frame f b)[9]? = (ninthBit f b)[0]? := by
  rw [frame, List.getElem?_append_left (by simp [h]), List.getElem?_append_right (by simp)]
  simp

/-- What follows is at the stop level to the frame's end. -/
theorem getElem?_frame_stop (f b : Byte) {k : Nat} (hk : 9 + (if nine f then 1 else 0) ≤ k) (hlt : k < (frame f b).length) :
    (frame f b)[k]? = some (stopPol f) := by
  have hlen : ([startPol f] ++ dataBits f b ++ ninthBit f b).length = 9 + if nine f then 1 else 0 := by
    simp only [List.length_append, List.length_singleton, length_dataBits, length_ninthBit]
  have hlt' : k < ([startPol f] ++ dataBits f b ++ ninthBit f b ++ stopBits f).length := hlt
  rw [List.length_append, hlen] at hlt'
  rw [frame, List.getElem?_append_right (hlen ▸ hk), List.getElem?_eq_getElem (by omega)]
  exact congrArg some (eq_stopPol_of_mem_stopBits (List.getElem_mem _))

/-- Settles O38: the frame's parts in their places. -/
theorem frameShape : Obligations.FrameShape := by
  refine fun f b => ⟨length_frame f b, rfl, fun k => ?_, fun h9 => ?_, fun k => getElem?_frame_stop f b⟩
  · exact (getElem?_frame_data f b k.isLt).trans (getElem?_dataBits f b k)
  · have h9 : nine f = true := h9
    rw [getElem?_frame_ninth f b h9, ninthBit, if_pos h9, ← apply_ite fun l : Bool => [l]]
    rfl

/-! ### Parity (R161) -/

/-- The exclusive-or of a list of bits says whether its count of ones is odd. -/
theorem count_true_mod_two (l : List Bool) : l.count true % 2 = if l.foldr xor false then 1 else 0 := by
  induction l with
  | nil => rfl
  | cons x l ih =>
    cases x <;> cases hx : l.foldr xor false <;> simp [hx] at ih ⊢ <;> omega

/-- A bit to begin with is one more of the exclusive-or. -/
theorem foldr_xor (l : List Bool) (x : Bool) : l.foldr xor x = (l.foldr xor false ^^ x) := by
  induction l with
  | nil => simp
  | cons y l ih => rw [List.foldr_cons, List.foldr_cons, ih, Bool.xor_assoc]

/-- The parity bit is the exclusive-or of the data bits and `PAR_ODD`. -/
theorem parity_eq (f b : Byte) : parity f b = ((bitsLsbFirst b).foldr xor false ^^ parOdd f) := by
  simp [parity, bitsLsbFirst]

/-- Data and parity together hold as many ones in either order. -/
theorem count_dataBits (f b : Byte) : (dataBits f b).count true = (bitsLsbFirst b).count true := by
  unfold dataBits
  split
  · exact List.count_reverse
  · rfl

/-- Settles O39: the parity bit makes up the exclusive-or of the data bits to `PAR_ODD`. -/
theorem parityCountsOnes : Obligations.ParityCountsOnes := by
  refine fun f b => ⟨rfl, ?_, ?_⟩
  · have hsum : (bitsLsbFirst b ++ [parity f b]).foldr xor false = parOdd f := by
      rw [List.foldr_append, foldr_xor, List.foldr_cons, List.foldr_nil, Bool.xor_false, parity_eq, ← Bool.xor_assoc,
        Bool.xor_self, Bool.false_xor]
    rw [List.count_append, count_dataBits, ← List.count_append, count_true_mod_two, hsum]
    rfl
  · have hodd : parOdd (f ^^^ 0x80) = parOdd f := by simp [parOdd]
    rw [parity_eq, parity_eq, hodd]

/-! ### The inverted preset (R163) -/

theorem bitsLsbFirst_not (b : Byte) : bitsLsbFirst (~~~b) = (bitsLsbFirst b).map fun l => !l := by
  simp [bitsLsbFirst]

/-- Eight complements leave the exclusive-or as it was, and the presets differ in `PAR_ODD` (R68). -/
theorem parity_inverted (b : Byte) : parity presetInverted (~~~b) = !parity presetStandard b := by
  simp [parity, parOdd, presetInverted, presetStandard]

/-- Settles O40: part by part of the frame. -/
theorem invertedFrameIsComplement : Obligations.InvertedFrameIsComplement := by
  intro b
  have hdata : dataBits presetInverted (~~~b) = (dataBits presetStandard b).map fun l => !l := bitsLsbFirst_not b
  have hninth : ninthBit presetInverted (~~~b) = (ninthBit presetStandard b).map fun l => !l :=
    congrArg (fun l => [l]) (parity_inverted b)
  rw [frame, frame, hdata, hninth, List.map_append, List.map_append, List.map_append]
  rfl

/-! ### The line (R162) -/

/-- Settles O41: with the mode on and the pin selected no free level is left, and INIT selects the pin with PM_DIR. -/
theorem lineFollowsFrameOrStopLevel : Obligations.LineFollowsFrameOrStopLevel := by
  refine ⟨fun s look hm hp => ⟨fun hb k => ?_, fun hb k _ => ?_⟩,
    fun s => ⟨fun hd => State.initPast_of_done hd .pmDir, fun hd hs => ?_⟩⟩
  · simp [State.lineLevel, hm, hp, hb, stopPol]
  · simp [State.lineLevel, hm, hp, hb]
  · unfold State.pinSelected
    rcases hs with hs | hs | ⟨c, k, hc, hs⟩
    · rw [State.initPast_of_not_init (by simp [hs]), hd]
    · simp [State.initPast_of_init hs, hd]
    · rw [State.initPast_of_not_init (by simp [hs, hc]), hd]

end Sys2Proof.Machine
end

/-! The receiver, its handler, the table owner and the caller (R165 to R168). -/

section
namespace Sys2Proof.Machine

/-- Settles O42: the move is one record update where `RE` and `MODE_EN` are 1. -/
theorem receiverDeliversByte : Obligations.ReceiverDeliversByte := by
  intro s r ms hsc
  have hstep : step s = whenEnabled (s.re && s.modeEn) (State.rxByte r { s with script := ms }) :=
    step_of_move (by simp) (by simp) hsc
  rw [hstep, whenEnabled]
  simp only [State.re, State.modeEn, Bool.and_eq_true]
  rfl

/-- The handler is enabled between two uops with flag and enables at 1 (R166, R203, R205). -/
theorem State.rxHandlerEnabled_iff (s : State) :
    s.rxHandlerEnabled = true ↔ s.rxIf = true ∧ s.rxIe = true ∧ s.gie = true ∧ s.stored = 0 := by
  simp [State.rxHandlerEnabled, State.interruptTaken, and_assoc]

/-- Settles O43: the move is one record update where it is enabled. -/
theorem handlerClearsTheFlag : Obligations.HandlerClearsTheFlag := by
  intro s ms hsc
  have hstep : step s = whenEnabled s.rxHandlerEnabled (State.handle { s with script := ms }) :=
    step_of_move (by simp) (by simp) hsc
  rw [← State.rxHandlerEnabled_iff, hstep]
  exact ⟨fun he => ⟨_, if_pos he, rfl, rfl, rfl⟩, fun he => if_neg he⟩

/-! ### The descriptor table (R167) -/

/-- No part of a step but the table owner's and the reset input writes the table. -/
theorem table_kept : Kept fun s t => s.dmaTableValid = true → t.dmaTableValid = true where
  refl _ := id
  trans _ _ _ hab hbc := hbc ∘ hab
  script _ _ := id
  issue u s := by simp
  storeNext u s := by simp
  latch _ := id
  readDescByte _ := id
  advance c k s := by simp
  finish _ _ := id
  acceptInit _ := id
  acceptSetMode _ _ := id
  acceptStartTx _ _ _ := id
  acceptRdReg _ _ := id

theorem State.callerWrite_dmaTableValid (a : Addr) (b : Byte) (s : State) :
    (s.callerWrite a b).dmaTableValid = s.dmaTableValid := by
  unfold State.callerWrite
  split <;> rfl

theorem State.sharedWrite_dmaTableValid (w : SharedWrite) (s : State) :
    (s.sharedWrite w).dmaTableValid = s.dmaTableValid := by
  cases w <;> rfl

theorem State.foreignWrite_dmaTableValid (w : ForeignWrite) (s : State) :
    (s.foreignWrite w).dmaTableValid = s.dmaTableValid := by
  cases w with
  | arm b => cases b <;> rfl
  | _ => rfl

/-- No move of the environment but the reset input takes the table away. -/
theorem table_kept_agentMove {m : Move} {s s' : State} (hm : State.agentMove m s = .next s') (hu : m ≠ .uop)
    (hst : m ≠ .store) (hr : ∀ l, m ≠ .reset l) (ht : s.dmaTableValid = true) : s'.dmaTableValid = true := by
  cases m with
  | command _ => cases hm
  | present _ => cases hm
  | uop => exact absurd rfl hu
  | store => exact absurd rfl hst
  | reset l => exact absurd rfl (hr l)
  | latch => obtain ⟨-, rfl⟩ := whenEnabled_next.1 hm; exact ht
  | latchByte => obtain ⟨-, rfl⟩ := whenEnabled_next.1 hm; simpa using ht
  | frameEnd => obtain ⟨-, rfl⟩ := whenEnabled_next.1 hm; simpa using ht
  | rxByte _ => obtain ⟨-, rfl⟩ := whenEnabled_next.1 hm; exact ht
  | rxHandler => obtain ⟨-, rfl⟩ := whenEnabled_next.1 hm; exact ht
  | tableInstall => cases hm; rfl
  | callerWrite a b => cases hm; exact (s.callerWrite_dmaTableValid a b).trans ht
  | shared w => cases hm; exact (s.sharedWrite_dmaTableValid w).trans ht
  | foreign w => cases hm; exact (s.foreignWrite_dmaTableValid w).trans ht
  | powerOn => cases hm; exact ht
  | storage _ => cases hm; exact ht

/-- Settles O44: TABLE_INSTALL writes the table, and every other part of a step but the reset input leaves it. -/
theorem tableStaysInstalled : Obligations.TableStaysInstalled := by
  refine ⟨fun s ms hsc => step_of_move (by simp) (by simp) hsc, fun s s' hs hr => ?_⟩
  refine table_kept.step hs (fun t ht _ he hv => ?_) fun m ms hsc hm hu hst _ _ _ =>
    table_kept_agentMove (s := { s with script := ms }) hm hu hst fun l hl => hr l ms (hl ▸ hsc)
  rw [he, State.frameEnd_dmaTableValid]
  rcases ht with rfl | ⟨ms, rfl⟩ <;> exact hv

/-! ### The caller's store (R168) -/

theorem State.callerWrite_of_mem {s : State} {a : Addr} (ha : a ≠ udbufAddr s.par) (b : Byte) :
    s.callerWrite a b = { s with
      mem := s.mem.write a b
      undef := addUndef (s.bufferInFlight a) .u7 (addUndef (isDescByte s.par a) .u12 s.undef) } :=
  if_neg ha

theorem State.callerWrite_of_udbuf {s : State} {a : Addr} (ha : a = udbufAddr s.par) (b : Byte) :
    s.callerWrite a b = (s.recordIf true .u12).frameStart b :=
  if_pos ha

/-- Settles O45: a plain store of a byte, or a non-owner's write of `UDBUF`. -/
theorem callerWriteStoresOneByte : Obligations.CallerWriteStoresOneByte := by
  intro s a b ms hsc
  have hstep : step s = .next (State.callerWrite a b { s with script := ms }) := step_of_move (by simp) (by simp) hsc
  refine ⟨fun ha => ?_, fun ha => ?_⟩
  · have hwrite : step s = .next { s with
        mem := s.mem.write a b
        undef := addUndef (s.bufferInFlight a) .u7 (addUndef (isDescByte s.par a) .u12 s.undef)
        script := ms } :=
      hstep.trans (congrArg _ (State.callerWrite_of_mem (s := { s with script := ms }) ha b))
    refine ⟨_, hwrite, Memory.read_write_same s.mem a b, fun x => Memory.read_write_other s.mem b, rfl, ?_, ?_,
      fun hd hf => ?_⟩
    · simp
    · simp
    · simp [hd, hf]
  · rw [State.callerWrite_of_udbuf (s := { s with script := ms }) ha] at hstep
    have hsub := undef_subset_frameStart b (State.recordIf true .u12 { s with script := ms })
    refine ⟨_, hstep, hsub (by simp), fun u hu => hsub (by simp [hu]), rfl, fun hb => ?_, fun hb => ?_, rfl⟩
    · obtain ⟨vs, he, -⟩ := State.frameStart_of_free (s := State.recordIf true .u12 { s with script := ms }) hb b
      rw [he]
      exact ⟨rfl, rfl, rfl⟩
    · exact (State.mem_frameStart_undef b _ _).2 (.inr (.inl ⟨rfl, hb⟩))

end Sys2Proof.Machine
end

/-! RD_REG: the next state of a readable index, the layout of each register, and the refused indices (R180 to R182). -/

section
namespace Sys2Proof.Machine

/-! ### A readable index (R180) -/

theorem uopReadReg_of_regval {s : State} {v : Byte} (hv : s.regval s.opReg = some v) :
    uopReadReg s = { s with rdata := v } := by
  rw [uopReadReg, hv, Option.getD_some]

/-- Acceptance loads the latch and records U11, the one uop loads `RDATA` (R65, R180, R215). -/
theorem exec_rdReg_eq {s : State} {r : BitVec 4} {v : Byte} (hi : s.seq = .idle) (hv : s.regval r = some v) :
    exec (.rdReg r) s = .next { s with
      opReg := r
      stored := 0
      rdata := v
      undef := addUndef (!s.powered) .u11 s.undef } := by
  have hread : uopReadReg (s.acceptRdReg r) = { s.acceptRdReg r with rdata := v } := uopReadReg_of_regval hv
  have hinit : (s.initDone || decide (Cmd.rdReg = .init)) = s.initDone := Bool.or_false _
  rw [exec_rdReg r hi (by rw [hv]; rfl), State.perform_rdReg, hread]
  simp only [State.finish, State.acceptRdReg, State.accept, State.recordIf, hinit, hi]

/-! ### The layouts of R181: reserved bits read as zero (R76) -/

theorem ugcr_readable_bits (ugcr : Byte) : ugcr &&& 0x3F = (0#2 ++ ugcr.extractLsb' 0 6 : BitVec 8) := by
  revert ugcr
  decide

theorem ucsr_readable_bits (ucsr : Byte) : ucsr &&& 0x40 = (0#1 ++ ucsr.extractLsb' 6 1 ++ 0#6 : BitVec 8) := by
  revert ucsr
  decide

theorem State.dmaarm_eq_ite (s : State) : s.dmaarm = if s.arm then 1 else 0 := by
  unfold State.dmaarm
  cases s.arm <;> rfl

theorem State.pmlocReg_eq_zeroExtend (s : State) : s.pmlocReg = s.pmLoc.zeroExtend 8 := by
  unfold State.pmlocReg
  generalize s.pmLoc = pins
  revert pins
  decide

/-- Settles O28: the index map row by row, then RD_REG of an index the map has. -/
theorem rdRegCompletes : Obligations.RdRegCompletes := by
  intro s r v hi hrow
  have hv : s.regval r = some v := by
    simp only [List.mem_cons, List.not_mem_nil, or_false, Prod.mk.injEq] at hrow
    obtain ⟨rfl, rfl⟩ | ⟨rfl, rfl⟩ | ⟨rfl, rfl⟩ | ⟨rfl, rfl⟩ | ⟨rfl, rfl⟩ | ⟨rfl, rfl⟩ | ⟨rfl, rfl⟩ | ⟨rfl, rfl⟩
      | ⟨rfl, rfl⟩ | ⟨rfl, rfl⟩ | ⟨rfl, rfl⟩ := hrow
    · rfl
    · exact congrArg some (ugcr_readable_bits s.ugcr)
    · rfl
    · exact congrArg some (ucsr_readable_bits s.ucsr)
    · rfl
    · exact congrArg some s.dmaarm_eq_ite
    · rfl
    · rfl
    · exact congrArg some s.pmlocReg_eq_zeroExtend
    · rfl
    · rfl
  rw [exec_rdReg_eq hi hv, addUndef_unpowered]

/-! ### The refused indices (R182) -/

theorem exec_rdReg_refused {s : State} {r : BitVec 4} (hi : s.seq = .idle) (hr : (s.regval r).isNone = true) :
    exec (.rdReg r) s = .refused .reservedReadIndex := by
  simp [exec, execRdReg, hi, hr]

theorem acceptCommand_rdReg_refused {s : State} {r : BitVec 4} (hr : (s.regval r).isNone = true) :
    acceptCommand (.rdReg r) s = .refused .reservedReadIndex := by
  simp [acceptCommand, hr]

/-- Settles O29: the index map has no value for these indices. -/
theorem refusedIndices : Obligations.RefusedIndices := by
  intro s r hi hr
  have hnone : (s.regval r).isNone = true := (regval_isNone s r).2 hr
  exact ⟨exec_rdReg_refused hi hnone, acceptCommand_rdReg_refused hnone⟩

end Sys2Proof.Machine
end

/-! What is received cannot change what is sent: the steps of a transmission commute with a change of `RXDATA` and `RX_IF`
(R208, R165, R166). -/

section
namespace Sys2Proof.Machine

/-- The state with `RXDATA` and `RX_IF` replaced, the two elements that RX_BYTE and RX_HANDLER write (R165, R166). -/
def State.withReception (r : Byte) (f : Bool) (s : State) : State := { s with rxdata := r, rxIf := f }

section
variable (r : Byte) (f : Bool) (s : State)

/-- RX_BYTE is such a change. -/
theorem State.rxByte_eq_withReception : s.rxByte r = s.withReception r true := rfl

/-- RX_HANDLER is such a change. -/
theorem State.handle_eq_withReception : s.handle = s.withReception s.rxdata false := rfl

/-! ### The channel and the transmitter -/

theorem State.latch_withReception : (s.withReception r f).latch = s.latch.withReception r f := rfl

theorem State.latchStep_withReception : (s.withReception r f).latchStep = s.latchStep.withReception r f :=
  (apply_ite (State.withReception r f) (s.latchCount < 7) s.readDescByte s.latch).symm

theorem State.openTrigger_withReception : (s.withReception r f).openTrigger = s.openTrigger.withReception r f := by
  have hfree : (s.withReception r f).free = s.free := rfl
  unfold State.openTrigger
  rw [hfree]
  split <;> rfl

theorem State.answerTrigger_withReception : (s.withReception r f).answerTrigger = s.answerTrigger.withReception r f := by
  have hresponse : (s.withReception r f).triggerResponse = s.triggerResponse := rfl
  have hcount : (s.withReception r f).wCnt = s.wCnt := rfl
  unfold State.answerTrigger
  rw [hresponse, hcount]
  cases s.triggerResponse with
  | ignore => rfl
  | transfer => rfl
  | beforeLatch =>
    dsimp only
    split
    · exact State.openTrigger_withReception r f (s.recordIf true .u8)
    · rfl
  | nothingToMove => exact State.openTrigger_withReception r f (s.recordIf true .u10)

theorem State.frameEnd_withReception : (s.withReception r f).frameEnd = s.frameEnd.withReception r f :=
  State.answerTrigger_withReception r f s.completeFrame

/-! ### The sequencer -/

/-- Of all uops only RX_IF_CLR writes one of the two elements (R111), and only RD_REG's reads one (`IRQC`, R181). -/
theorem issue_withReception {u : Uop} (hclr : u ≠ .rxIfClr) (hrd : u ≠ .readReg) :
    issue u (s.withReception r f) = (issue u s).withReception r f := by
  cases u with
  | rxIfClr => exact absurd rfl hclr
  | readReg => exact absurd rfl hrd
  | _ => rfl

theorem storeNext_withReception (u : Uop) : storeNext u (s.withReception r f) = (storeNext u s).withReception r f := by
  cases u <;> rfl

theorem uopsOf_withReception (c : Cmd) : uopsOf (s.withReception r f) c = uopsOf s c := uopsOf_congr rfl rfl c

theorem State.advance_withReception (c : Cmd) (k : Nat) :
    (s.withReception r f).advance c k = (s.advance c k).withReception r f := by
  unfold State.advance
  rw [uopsOf_withReception]
  split <;> rfl

theorem ne_rxIfClr_and_ne_readReg_of_mem_startTxUops {u : Uop} (hu : u ∈ startTxUops) : u ≠ .rxIfClr ∧ u ≠ .readReg :=
  ⟨ne_of_mem_of_not_mem hu (by decide), ne_of_mem_of_not_mem hu (by decide)⟩

variable {r f s}

theorem State.uopStep_withReception {s' : State} {k : Nat} (hseq : s.seq = .run .startTx k) (h : s.uopStep = .next s') :
    (s.withReception r f).uopStep = .next (s'.withReception r f) := by
  obtain ⟨c, j, u, hrun, hu, -, hen, rfl⟩ := State.uopStep_next h
  obtain ⟨rfl, rfl⟩ : Cmd.startTx = c ∧ k = j + 1 := by simpa using hseq.symm.trans hrun
  obtain ⟨hclr, hrd⟩ := ne_rxIfClr_and_ne_readReg_of_mem_startTxUops (List.mem_of_getElem? hu)
  have hok : (s.withReception r f).uopRefused u = false := by simp [State.uopRefused, hrd]
  have hen' : (s.withReception r f).uopEnabled u = true := hen
  rw [State.uopStep_eq (s := s.withReception r f) hrun hu, hok, hen', issue_withReception r f s hclr hrd,
    State.advance_withReception]
  rfl

theorem State.storeStep_withReception {s' : State} (h : s.storeStep = .next s') :
    (s.withReception r f).storeStep = .next (s'.withReception r f) := by
  obtain ⟨u, hu, hlt, rfl⟩ := State.storeStep_next h
  have hu' : (s.withReception r f).nextUop = some u := (State.nextUop_congr rfl rfl rfl).trans hu
  have hlt' : (s.withReception r f).stored + 1 < storeCount u := hlt
  simp only [State.storeStep, hu', hlt', if_true, storeNext_withReception]

/-- The moves of a transmission: the channel's, the transmitter's and, while START_TX runs, the sequencer's. -/
theorem State.agentMove_withReception {s' : State} {m : Move}
    (hm : m = .latch ∨ m = .latchByte ∨ m = .frameEnd ∨ ((m = .uop ∨ m = .store) ∧ ∃ k, s.seq = .run .startTx k))
    (h : State.agentMove m s = .next s') :
    State.agentMove m (s.withReception r f) = .next (s'.withReception r f) := by
  obtain rfl | rfl | rfl | ⟨rfl | rfl, k, hseq⟩ := hm
  · obtain ⟨hp, rfl⟩ := whenEnabled_next.1 h
    exact whenEnabled_next.2 ⟨hp, State.latch_withReception r f s⟩
  · obtain ⟨hp, rfl⟩ := whenEnabled_next.1 h
    exact whenEnabled_next.2 ⟨hp, State.latchStep_withReception r f s⟩
  · obtain ⟨hb, rfl⟩ := whenEnabled_next.1 h
    exact whenEnabled_next.2 ⟨hb, State.frameEnd_withReception r f s⟩
  · exact State.uopStep_withReception hseq h
  · exact State.storeStep_withReception h

end

/-- Settles O59: the move is taken after the head of the script is dropped, which commutes with the change too. -/
theorem receptionDoesNotReachTransmission : Obligations.ReceptionDoesNotReachTransmission := by
  intro s s' r f m ms hsc hm h
  have hport : (∀ w, m ≠ .command w) ∧ ∀ w, m ≠ .present w := by
    obtain rfl | rfl | rfl | ⟨rfl | rfl, -⟩ := hm <;> simp
  rw [step_of_move hport.1 hport.2 hsc] at h
  exact (step_of_move (s := s.withReception r f) hport.1 hport.2 hsc).trans
    (State.agentMove_withReception (s := { s with script := ms }) hm h)

end Sys2Proof.Machine
end

/-! The reset input: what it leaves in memory, in the control state and in the elements R33 leaves unspecified (R230, R231). -/

section
namespace Sys2Proof.Machine

/-! ### The memory of a launch (R31; log 5) -/

/-- Writing the cells of a canonical memory over another one replaces exactly the bytes that it lists. -/
theorem Memory.read_foldl_write {lo : Nat} {cells : Memory} (hw : Memory.wfFrom lo cells = true) (m : Memory) (a : Addr) :
    Memory.read (cells.foldl (fun n c => Memory.write n (BitVec.ofNat 16 c.1) c.2) m) a
      = if cells.read a = Memory.unlisted then m.read a else cells.read a := by
  induction cells generalizing lo m with
  | nil => simp
  | cons c cells ih =>
    obtain ⟨k, v⟩ := c
    obtain ⟨b, rfl, -, hv⟩ := Memory.read_head hw
    obtain ⟨-, htail⟩ := Memory.wfFrom_head hw
    rw [List.foldl_cons, ih htail, BitVec.ofNat_toNat, BitVec.setWidth_eq, Memory.read_cons]
    by_cases hab : a = b
    · subst hab
      simp [Memory.read_of_lt htail (Nat.lt_succ_self _), hv]
    · have hne : b.toNat ≠ a.toNat := fun h => hab (BitVec.eq_of_toNat_eq h.symm)
      simp only [if_neg hne, Memory.read_write_other m v hab]

/-- A launch with canonical memory has that memory after reset, read at any address. -/
theorem Memory.read_ofCells {cells : Memory} (hw : cells.wf = true) (a : Addr) :
    (Memory.ofCells cells).read a = cells.read a := by
  have hread : (Memory.ofCells cells).read a
      = if cells.read a = Memory.unlisted then Memory.unlisted else cells.read a := Memory.read_foldl_write hw [] a
  rw [hread, ite_eq_right_iff]
  exact Eq.symm

/-! ### The reset input as a step (R230, R231) -/

theorem step_of_reset {s : State} {l : Launch} {ms : List Move} (hsc : s.script = .reset l :: ms) :
    step s = .next (State.resetInput l { s with script := ms }) :=
  step_of_move (by simp) (by simp) hsc

/-- Of `UCSR`, `RE` alone is left unspecified (R33). -/
theorem State.resetInput_ucsr (l : Launch) (s : State) :
    (s.resetInput l).re = l.re ∧ (s.resetInput l).ucsr &&& 0xBF = 0 := by
  cases hr : l.re <;> simp [State.resetInput, State.ofLaunch, State.re, hr]

/-- The bits of `UGCR` that are not reserved have the launch's value (R33, R76). -/
theorem State.resetInput_ugcr (l : Launch) (s : State) :
    (s.resetInput l).ugcr.extractLsb' 0 6 = l.ugcr ∧ (s.resetInput l).ugcr &&& 0xC0 = 0 :=
  ⟨(BitVec.extractLsb'_setWidth_of_le (by decide)).trans BitVec.extractLsb'_eq_self, zeroExtend_reserved l.ugcr⟩

/-- Settles O48: the step is the reset input, whose memory holds the launch's cells and reads as they do if canonical. -/
theorem resetAbandonsEverything : Obligations.ResetAbandonsEverything := by
  intro s l ms hsc
  obtain ⟨hre, hucsr⟩ := State.resetInput_ucsr l { s with script := ms }
  obtain ⟨hbits, hreserved⟩ := State.resetInput_ugcr l { s with script := ms }
  exact ⟨_, step_of_reset hsc,
    ⟨rfl, rfl, rfl, rfl, rfl, rfl, rfl, rfl, rfl, rfl, rfl, rfl, hreserved, hucsr⟩,
    ⟨rfl, rfl, rfl, rfl, rfl, rfl, hbits, rfl, hre, rfl, rfl, rfl, rfl, rfl, rfl, rfl, rfl, rfl, rfl, rfl, rfl, rfl, rfl,
      rfl, rfl, rfl, rfl, Memory.read_ofCells⟩,
    rfl, rfl, rfl⟩

end Sys2Proof.Machine
end
